-- ==== Sys2Proof/Word.lean ====
section
/-! DEFINITION. The word types of the jtos page-table block: bytes of memory, 64-bit registers and entries, and
the two address types the spec keeps apart (rule R8). Addresses of memory cells are plain numbers, reached from a
computed 64-bit address by `toNat`. -/

namespace Sys2Proof

/-- One byte of physical memory (rule R53). -/
abbrev Byte := BitVec 8

/-- A 64-bit value: a register of the window (rule R21), an entry (rule R80, rule R132), a command word (rule R85). -/
abbrev Word := BitVec 64

/-- A physical address (rule R8): the value on the memory port, the allocator port and the paging-control port. -/
abbrev PA := Word

/-- A virtual, or linear, address (rule R8): read only by the linear-address decoder. A type of its own, so that neither
address can stand where the other is asked for. -/
structure VA where
  bits : Word
deriving DecidableEq, Repr

end Sys2Proof
end

