-- ==== Sys2Proof/Syntax.lean ====
section
/-! DEFINITION. The commands of the block (one constructor per row of spec/opcode_table.json), the fields of an
entry that `PGET` and `PSET` name, the host's register accesses, and the written form of commands and
pseudo-commands (rule R89, rule R90). -/

namespace Sys2Proof

/-- The thirteen commands (rule R86). A command word carries no operand: the operands are the values of
`ARG0`-`ARG3` latched when the command is issued (rule R85, rule R87), so no constructor has a field. -/
inductive Instr where
  | adec     -- rule R111
  | pinit    -- rule R125
  | pframe   -- rule R126
  | ppres    -- rule R127
  | pget     -- rule R128
  | pset     -- rule R129
  | einit    -- rule R130
  | walk     -- rule R152
  | map      -- rule R171
  | mapdesc  -- rule R190
  | mapfb    -- rule R191
  | rootz    -- rule R192
  | enable   -- rule R193
deriving DecidableEq, Repr

/-- The fields of a page-table entry, in the order of their field ids 0-13 (rule R80). -/
inductive EntryField where
  | p | w | u | pwt | pcd | a | d | psPat | g | avlLo | pfn | avlHi | pk | xd
deriving DecidableEq, Repr

/-- The registers of the window (rule R21); `reserved` stands for the offsets 0x78-0xFF (rule R33). -/
inductive HostReg where
  | cmd | arg0 | arg1 | arg2 | arg3 | res0 | res1 | res2 | res3 | res4
  | status | finfo | allocs | root | cr3out | reserved
deriving DecidableEq, Repr

/-- What a host access does at its offset. -/
inductive HostOp where
  | read
  | write (value : Word)
deriving DecidableEq, Repr

/-- One host access of the register window: a byte offset, a width in bytes, and what is done there (rule R34). -/
structure HostAccess where
  offset : Nat
  width  : Nat
  op     : HostOp
deriving DecidableEq, Repr

/-- A command as rule R89 writes it: the mnemonic and its operands, in `ARG0`, `ARG1`, ... order. -/
structure Written where
  instr    : Instr
  operands : List Word
deriving DecidableEq, Repr

/-- One record of the firmware memory map (glossary of 00_scope.md; rule R91): the raw values the record holds. -/
structure Descriptor where
  type  : Word
  start : PA
  pages : Word
  attr  : Word
deriving DecidableEq, Repr

/-- The framebuffer descriptor: base and size in bytes (rule R191). -/
structure Framebuffer where
  base : PA
  size : Word
deriving DecidableEq, Repr

/-- The pseudo-commands of rule R90, but for `WAIT`, which is an input of its own (`Machine.Input.wait`). -/
inductive Pseudo where
  | mapid (a n : Word)
  | mapfw (ds : List Descriptor)
  | setup (memoryMap : List Descriptor) (fb : Framebuffer)
deriving DecidableEq, Repr

end Sys2Proof
end

