-- ==== Sys2Proof/WellFormed.lean ====
section
/-! DEFINITION. What a well-formed input of the block is: a host access (rule R34), a command word (rule R85, rule
R88) and a written command (rule R87, rule R89). A command itself has no operand field (rule R85), so every term of
`Instr` is well-formed. -/

namespace Sys2Proof

/-- "The host accesses registers only with naturally aligned 64-bit reads and writes" inside 0x00-0xFF (rule R34). -/
def HostAccess.wf (a : HostAccess) : Bool :=
  a.width == 8 && a.offset % 8 == 0 && decide (a.offset < 0x100)

/-- A legal command word: bits 63:8 zero and `OPC` in 0x01-0x0D (rule R85, rule R86, rule R88). -/
def commandWordWf (c : Word) : Bool :=
  c.extractLsb' 8 56 == 0 && decide (1 ≤ (c.extractLsb' 0 8).toNat) && decide ((c.extractLsb' 0 8).toNat ≤ 0x0D)

/-- How many of `ARG0`-`ARG3` a command reads, from `ARG0` on (rule R87). -/
def Instr.operandCount : Instr → Nat
  | .adec    => 1
  | .pinit   => 1
  | .pframe  => 1
  | .ppres   => 1
  | .pget    => 2
  | .pset    => 3
  | .einit   => 2
  | .walk    => 2
  | .map     => 3
  | .mapdesc => 4
  | .mapfb   => 2
  | .rootz   => 0
  | .enable  => 0

/-- A written command gives exactly the operands rule R87 lists for it (rule R89). -/
def Written.wf (x : Written) : Bool :=
  x.operands.length == x.instr.operandCount

end Sys2Proof
end

