-- ==== Sys2Proof/Decode.lean ====
section
/-! DEFINITION. The command decoder, total on 64-bit words and rejecting by name (rule R85, rule R86, rule R88); the
encoder, from the same opcode map; the register offsets (rule R21) and field ids (rule R80); and the host sequences
that written commands and pseudo-commands stand for (rule R89, rule R90). -/

namespace Sys2Proof

/-- The opcode map of rule R86. -/
def opcodeMap : List (BitVec 8 × Instr) :=
  [(0x01, .adec), (0x02, .pinit), (0x03, .pframe), (0x04, .ppres), (0x05, .pget), (0x06, .pset), (0x07, .einit),
   (0x08, .walk), (0x09, .map), (0x0A, .mapdesc), (0x0B, .mapfb), (0x0C, .rootz), (0x0D, .enable)]

/-- Why a word is no command (rule R88). -/
inductive DecodeReject where
  /-- One of bits 63:8, which must be 0, is set. -/
  | reservedBits
  /-- `OPC` is 0x00 or one of 0x0E-0xFF. -/
  | illegalOpcode
deriving DecidableEq, Repr

/-- The decoder: it matches the whole 64-bit word (rule R86). -/
def decode (c : Word) : Except DecodeReject Instr :=
  if c.extractLsb' 8 56 ≠ 0 then .error .reservedBits
  else
    match opcodeMap.lookup (c.extractLsb' 0 8) with
    | some i => .ok i
    | none => .error .illegalOpcode

/-- The `OPC` value of a command (rule R86). -/
def opcode : Instr → BitVec 8
  | .adec    => 0x01
  | .pinit   => 0x02
  | .pframe  => 0x03
  | .ppres   => 0x04
  | .pget    => 0x05
  | .pset    => 0x06
  | .einit   => 0x07
  | .walk    => 0x08
  | .map     => 0x09
  | .mapdesc => 0x0A
  | .mapfb   => 0x0B
  | .rootz   => 0x0C
  | .enable  => 0x0D

/-- The command word of a command: `zext_64(OPC)` (rule R86). -/
def encode (i : Instr) : Word := (opcode i).setWidth 64

/-- The command the decoder reads from the opcode table's bits. A command word is one 64-bit register value, so the
bits are taken as they are; a number that needs more than 64 bits is no command word. -/
def decodeTableWord (_nbits w : Nat) : Option Instr :=
  if w < 2 ^ 64 then
    match decode (BitVec.ofNat 64 w) with
    | .ok i => some i
    | .error _ => none
  else none

/-- The register at a well-formed access's offset (rule R21, rule R33). -/
def hostRegAt (offset : Nat) : HostReg :=
  match offset with
  | 0x00 => .cmd
  | 0x08 => .arg0
  | 0x10 => .arg1
  | 0x18 => .arg2
  | 0x20 => .arg3
  | 0x28 => .res0
  | 0x30 => .res1
  | 0x38 => .res2
  | 0x40 => .res3
  | 0x48 => .res4
  | 0x50 => .status
  | 0x58 => .finfo
  | 0x60 => .allocs
  | 0x68 => .root
  | 0x70 => .cr3out
  | _ => .reserved

/-- The field a field id names; ids above 13 name none (rule R80, rule R88). -/
def entryFieldOf (f : Word) : Option EntryField :=
  match f.toNat with
  | 0 => some .p
  | 1 => some .w
  | 2 => some .u
  | 3 => some .pwt
  | 4 => some .pcd
  | 5 => some .a
  | 6 => some .d
  | 7 => some .psPat
  | 8 => some .g
  | 9 => some .avlLo
  | 10 => some .pfn
  | 11 => some .avlHi
  | 12 => some .pk
  | 13 => some .xd
  | _ => none

/-- The field id of a field (rule R80). -/
def entryFieldId : EntryField → Word
  | .p => 0
  | .w => 1
  | .u => 2
  | .pwt => 3
  | .pcd => 4
  | .a => 5
  | .d => 6
  | .psPat => 7
  | .g => 8
  | .avlLo => 9
  | .pfn => 10
  | .avlHi => 11
  | .pk => 12
  | .xd => 13

/-- The operand writes of a written command, "in increasing register order" from the offset given (rule R89). -/
def operandWrites : Nat → List Word → List HostAccess
  | _, [] => []
  | offset, v :: vs => ⟨offset, 8, .write v⟩ :: operandWrites (offset + 8) vs

/-- The register writes a written command stands for: each operand to its `ARG` register, then the command word to
`CMD` (rule R89). The wait that follows is `Machine.Input.wait`. -/
def Written.accesses (x : Written) : List HostAccess :=
  operandWrites 0x08 x.operands ++ [⟨0x00, 8, .write (encode x.instr)⟩]

/-- `MAPDESC` of one descriptor (rule R90). -/
def Descriptor.written (d : Descriptor) : Written :=
  ⟨.mapdesc, [d.type, d.start, d.pages, d.attr]⟩

/-- The expansions of rule R90; `SETUP` is the sequence of rule R194. -/
def Pseudo.expand : Pseudo → List Written
  | .mapid a n => [⟨.map, [a, a, n]⟩]
  | .mapfw ds => ds.map Descriptor.written
  | .setup mm fb => ⟨.rootz, []⟩ :: (mm.map Descriptor.written ++ [⟨.mapfb, [fb.base, fb.size]⟩, ⟨.enable, []⟩])

end Sys2Proof
end

