-- ==== Sys2Proof/Config.lean ====
section
/-! DEFINITION. The configuration parameters the spec leaves OPEN (rule R5, rule R36) and the values the spec
leaves free (rule R251, rule R32). The parameters are one record; which record a particular board has is the
constant `Config.board`, which has no body, so nothing can be proved about its value. -/

namespace Sys2Proof

/-- One stretch of physical addresses that memory backs: part of the parameter `PHYS_MEM` (rule R5, rule R50). -/
structure MemRegion where
  base : Nat
  size : Nat
deriving DecidableEq, Repr, Inhabited

/-- One kind of descriptor that `MAPPED_TYPE` accepts (rule R5, rule R190): the raw region type, and the attribute
bits it asks for (`attr &&& attrMask = attrValue`; a zero mask ignores the attribute bits, as D25 allows). A list of
these can express every predicate on (type, attr) (log entry 3). -/
structure TypePattern where
  type      : Word
  attrMask  : Word
  attrValue : Word
deriving DecidableEq, Repr, Inhabited

/-- The OPEN parameters of rule R5: `ROOT_BASE` as the 40-bit number of its frame, so that it is page-aligned and
below 2^52 by construction (rule R31); `PHYS_MEM`; `MAPPED_TYPE`; and `CPU_MAXPHYADDR`, which the block never
reads (rule R81). -/
structure Config where
  rootFrame     : BitVec 40
  physMem       : List MemRegion
  mappedTypes   : List TypePattern
  cpuMaxPhyAddr : Nat
deriving DecidableEq, Repr, Inhabited

/-- The parameters of the board at hand: OPEN in the spec, so a constant with no body (log entry 1). -/
opaque Config.board : Config

/-- What physical memory holds at reset, address by address: "unknown (any value), never as 0" (rule R251). A free
value (log entry 5). -/
opaque Config.memAtReset : Nat → Byte

/-- The CPU's paging-control register before `ENABLE`: "the firmware's and unspecified" (rule R32). A free value
(log entry 6). -/
opaque Config.firmwareCr3 : Word

end Sys2Proof
end

