-- ==== Sys2Proof/Machine/State.lean ====
section
/-! DEFINITION. The state of the block and of the agents at its ports, as plain data: the register window (rule
R21), the hidden state of a running command (rule R35), table memory (rule R37), the CPU's paging-control register
(rule R32), the frames the allocator has handed out (rule R71, rule R255), and what the environment does next. -/

namespace Sys2Proof.Machine

/-- `STATUS.PHASE` (rule R25, rule R26); the value 3 never occurs. -/
inductive Phase where
  | uninit
  | populating
  | active
deriving DecidableEq, Repr

/-- The faults the block records in `STATUS.FCODE` (rule R220). They are architectural: recording one is a next
state, never an outcome that stops the model. -/
inductive Cause where
  | allocExhausted
  | misalignedRegion
  | illegalCommand
  | phaseViolation
  | commandWhileBusy
  | allocatorContract
  | badOperand
deriving DecidableEq, Repr

/-- An answer on the frame-allocator port (rule R229). -/
inductive AllocAnswer where
  | frame (f : PA)
  | exhausted
deriving DecidableEq, Repr

/-- The copy of `ARG0`-`ARG3` latched at issue (rule R22, rule R23). -/
structure Args where
  a0 : Word
  a1 : Word
  a2 : Word
  a3 : Word
deriving DecidableEq, Repr

/-- The walker's states while it holds the sequencer (rule R153): `READ_ENTRY`; `ALLOC_WAIT`; `ZERO` with the frame
being zeroed and the counter `k`; `INSTALL` with the frame to install. -/
inductive WalkPoint where
  | readEntry
  | allocWait
  | zero (f : PA) (k : Nat)
  | install (f : PA)
deriving DecidableEq, Repr

/-- One walker call in progress: the table base, the index, and where it stands (rule R35, rule R151). -/
structure WalkJob where
  table : PA
  index : Word
  point : WalkPoint
deriving DecidableEq, Repr

/-- The levels the mapper walks through, root first (rule R9, rule R170). -/
inductive WalkLevel where
  | pml4
  | pdpt
  | pd
deriving DecidableEq, Repr

/-- The four levels of the hierarchy (rule R58). -/
inductive Level where
  | pml4
  | pdpt
  | pd
  | pt
deriving DecidableEq, Repr

/-- Where the mapper stands within one page: in the walker call of a level, or before the leaf write (rule R170). -/
inductive PagePoint where
  | walking (level : WalkLevel) (w : WalkJob)
  | leaf (pt : PA)
deriving DecidableEq, Repr

/-- A region being mapped: its bases and page count, the iteration index `i`, the point within page `i`, and what
`RES0` receives at completion, if anything (rule R35, rule R170; rule R190, rule R191). -/
structure MapJob where
  vbase  : VA
  pbase  : PA
  pages  : Nat
  i      : Nat
  point  : PagePoint
  result : Option Word
deriving DecidableEq, Repr

/-- The point a running command has reached: before its own operand checks, or inside one of the three iterations
(the walker's, the mapper's, the zeroing of the root). -/
inductive Task where
  | start
  | walk (w : WalkJob)
  | map (m : MapJob)
  | rootz (k : Nat)
deriving DecidableEq, Repr

/-- The sequencer's hidden state while `BUSY = 1` (rule R35): the latched command word (its command: `encode` gives
the word back), the latched operands, and the point reached. -/
structure Job where
  instr : Instr
  args  : Args
  task  : Task
deriving DecidableEq, Repr

/-- What the environment does next, in order: the plain data that says which agent of rule R20 moves. -/
inductive Input where
  /-- The host accesses the register window. A write to `CMD` starts a command, and the environment then waits until
  the command has ended or waits for the allocator (the atomic reading of rule R35). -/
  | host (a : HostAccess)
  /-- The host writes `CMD`, and the environment does not wait: the sequencer has only accepted the command. -/
  | issue (c : Word)
  /-- The sequencer makes one step of the running command. -/
  | tick
  /-- The sequencer runs on until the command has ended or waits for the allocator. -/
  | run
  /-- The host polls `STATUS` until `BUSY` is 0 (pseudo-command `WAIT`, rule R90). -/
  | wait
  /-- The allocator answers an outstanding request (rule R229). -/
  | answer (r : AllocAnswer)
  /-- The CPU walks the block's tables for an access to `va`. `setA` says which of the four entries get bit 5 (bit 3 of
  `setA` for the PML4 entry, bit 0 for the leaf), `setD` whether the leaf gets bit 6 if the access writes (rule R70). -/
  | cpuTouch (va : VA) (writes : Bool) (setA : BitVec 4) (setD : Bool)
  /-- Another agent stores bytes to memory (rule R64, rule R254). -/
  | agentStore (pa : Nat) (bytes : List Byte)
  /-- The host reads eight bytes of memory (rule R64, rule R254). -/
  | agentLoad (pa : Nat)
  /-- The platform resets the block (rule R250). -/
  | reset
deriving DecidableEq, Repr

/-- Physical memory as far as it has been written: bytes by address, addresses strictly rising. An unlisted address
has no entry and holds what memory held at reset (log entry 5). -/
abbrev Memory := List Host.Cell

/-- The whole machine. `BUSY` is `seq.isSome`, `STATUS` is computed from its fields, `ROOT` from `cfg`. -/
structure State where
  arg0 : Word
  arg1 : Word
  arg2 : Word
  arg3 : Word
  res0 : Word
  res1 : Word
  res2 : Word
  res3 : Word
  res4 : Word
  phase   : Phase
  faulted : Bool
  fcode   : BitVec 4
  fopc    : BitVec 8
  finfo   : Word
  allocs  : Word
  cr3out  : Word
  /-- The running command; none when `BUSY = 0` (rule R27, rule R35). -/
  seq : Option Job
  /-- Physical memory (rule R37, rule R50). -/
  mem : Memory
  /-- The CPU's paging-control register (rule R32, rule R230). -/
  pagingReg : Word
  /-- The frames the allocator has handed to the block since reset, but for an answer the walker has not taken yet,
  latest first (rule R71, rule R255). -/
  granted : List PA
  /-- The answers the allocator gives to the next requests, in order; none left means it has not answered yet (rule
  R229, rule R35). -/
  answers : List AllocAnswer
  /-- A request to the allocator has outlived its command, which `COMMAND_WHILE_BUSY` ended in `ALLOC_WAIT`, and its
  answer has not come yet (rule R223, rule R229, log entry 26). -/
  orphan : Bool
  /-- What the environment does next (the host's program among it, rule R36, rule R38). -/
  inputs : List Input
  /-- The model's own: the value the host's latest read returned. -/
  hostData : Word
  /-- The configuration parameters (rule R36), which no step changes. -/
  cfg : Config
deriving DecidableEq, Repr

/-- How the model stops where the spec says a run has no further meaning. -/
inductive Fault where
  /-- Raised by the memory port: a block access outside `PHYS_MEM` "has no specified result and a model faults it"
  (rule R50, U7). Safe. -/
  | outsidePhysMem (pa : Nat)
  /-- Raised by a CPU access to a virtual address that is not mapped once translation is active: "a fault that never
  reaches a final state" (rule R227, U22). Safe. -/
  | unmappedAccess (va : VA) (level : Level)
deriving DecidableEq, Repr

/-- What the model turns away because the spec gives it no meaning. -/
inductive Refusal where
  /-- Raised by exec's arm of a command that has no meaning yet; no arm does. Safe. -/
  | notModelled (mnemonic : String)
  /-- Raised by a host access that is not an aligned 64-bit access at an offset 0x00-0xFF: it "has no specified
  meaning: a model refuses it" (rule R34, U11). Safe. -/
  | hostAccess (offset width : Nat)
  /-- Raised by a store of another agent to table memory while the block is POPULATING, or by a host read of table
  memory while `BUSY = 1` (rule R64, rule R254, U8). Safe. -/
  | tableMemoryShared (pa : Nat)
  /-- Raised by a store or read of another agent that leaves the 64-bit physical address space (rule R50). Safe. -/
  | beyondAddressSpace (pa : Nat)
  /-- Raised by a CPU walk of the block's tables in POPULATING (rule R254 (d)). Safe. -/
  | walkBeforeEnable (va : VA)
  /-- Raised by a CPU walk from `ROOT_BASE` in UNINIT while the paging-control register holds another value: the CPU then
  uses the firmware's tables, which the spec leaves out (rule R32, rule R4 (a)). Safe. -/
  | rootNotLoaded (va : VA)
  /-- Raised by a CPU walk that meets a large-page entry, which the block never builds: `Unmodelled` "is a refusal"
  (rule R61, U10). Safe. -/
  | largePage (va : VA) (level : Level)
deriving DecidableEq, Repr

/-- The result of a step of this machine. -/
abbrev Result := Host.Outcome State Fault Refusal

/-- The machine right after reset (rule R250): every register of rule R21 is 0, the phase is UNINIT, no command
runs, and no byte of memory has been written (rule R251). The paging-control register holds the firmware's value
(rule R32). The fields that are the environment's (`answers`, `inputs`, `granted`) are empty (log entries 7, 10,
11), and no request to the allocator is outstanding (rule R250). -/
def State.reset : State where
  arg0 := 0
  arg1 := 0
  arg2 := 0
  arg3 := 0
  res0 := 0
  res1 := 0
  res2 := 0
  res3 := 0
  res4 := 0
  phase := .uninit
  faulted := false
  fcode := 0
  fopc := 0
  finfo := 0
  allocs := 0
  cr3out := 0
  seq := none
  mem := []
  pagingReg := Config.firmwareCr3
  granted := []
  answers := []
  orphan := false
  inputs := []
  hostData := 0
  cfg := Config.board

end Sys2Proof.Machine
end

