-- ==== Sys2Proof/Machine/Flags.lean ====
section
/-! DEFINITION. The `STATUS` word and its fields, and the numbers of the phases and fault codes (rule R25, rule R26,
rule R27, rule R220). -/

namespace Sys2Proof.Machine

/-- The value of `STATUS.PHASE` (rule R25). -/
def Phase.code : Phase → BitVec 2
  | .uninit => 0
  | .populating => 1
  | .active => 2

/-- The number of a fault in `STATUS.FCODE` (rule R220). -/
def Cause.code : Cause → BitVec 4
  | .allocExhausted => 1
  | .misalignedRegion => 2
  | .illegalCommand => 3
  | .phaseViolation => 4
  | .commandWhileBusy => 5
  | .allocatorContract => 6
  | .badOperand => 7

/-- `STATUS.BUSY`: a command is executing (rule R27). -/
def State.busy (s : State) : Bool := s.seq.isSome

/-- The `STATUS` register: bits 63:24, 15:12 and 7:4 read 0 (rule R25). -/
def State.statusWord (s : State) : Word :=
  (0#40 ++ s.fopc ++ 0#4 ++ s.fcode ++ 0#4 ++ BitVec.ofBool s.faulted ++ BitVec.ofBool s.busy ++ s.phase.code : BitVec 64)

end Sys2Proof.Machine
end

