-- ==== Sys2Proof/Machine/Operands.lean ====
section
/-! DEFINITION. The operands of commands: latching, the phases that admit each command, and the domain checks
(rule R22, rule R23, rule R87; rule R128, rule R129, rule R130, rule R152, rule R170). -/

namespace Sys2Proof.Machine

/-- The operands as they are latched at issue (rule R22). -/
def State.latchArgs (s : State) : Args := ⟨s.arg0, s.arg1, s.arg2, s.arg3⟩

/-- The phases that admit a command (rule R87). -/
def admits : Instr → Phase → Bool
  | .adec, _ => true
  | .pinit, _ => true
  | .pframe, _ => true
  | .ppres, _ => true
  | .pget, _ => true
  | .pset, _ => true
  | .einit, p => p == .populating
  | .walk, p => p == .populating
  | .map, p => p == .populating
  | .mapdesc, p => p == .populating
  | .mapfb, p => p == .populating
  | .rootz, p => p == .uninit
  | .enable, p => p == .populating

/-- Bits 11:0 are 0 (rule R56, rule R151, rule R152, rule R170). -/
def pageAligned (a : Word) : Bool := a.extractLsb' 0 12 == 0

/-- The address is below `PA_LIMIT` = 2^52 (rule R5, rule R50). -/
def belowLimit (a : Word) : Bool := decide (a.toNat < 2 ^ 52)

/-- A page-aligned address below 2^52: what `WALK` asks of a table and the walker of a frame (rule R151, rule R152). -/
def frameOk (a : Word) : Bool := pageAligned a && belowLimit a

/-- What `EINIT` asks of an entry address: bits 2:0 zero, below 2^52 (rule R130). -/
def entryAddrOk (a : Word) : Bool := a.extractLsb' 0 3 == 0 && belowLimit a

/-- An index of a table: at most 511 (rule R152). -/
def indexOk (j : Word) : Bool := decide (j.toNat ≤ 511)

end Sys2Proof.Machine
end

