-- ==== Sys2Proof/Machine/Ops.lean ====
section
/-! DEFINITION. The shared operations: memory and the memory port, the configuration's derived values, recording a
fault (the block's exception entry, rule R221), issuing a command (rule R224), and completing or suspending one. -/

namespace Sys2Proof.Machine

/-! Memory: a list of cells with strictly rising addresses. -/

/-- The canonical form: addresses strictly rising, all inside the 64-bit physical address space (rule R50). An
unlisted address has no value (`Memory.byte?` answers none), so no entry can repeat it. -/
abbrev Memory.wf (m : Memory) : Prop := m.Pairwise (fun x y => x.1 < y.1) ∧ ∀ c ∈ m, c.1 < 2 ^ 64

/-- The cells of consecutive bytes from an address on. -/
def cellsAt : Nat → List Byte → Memory
  | _, [] => []
  | a, b :: bs => (a, b) :: cellsAt (a + 1) bs

/-- Store consecutive bytes from address `a` on. -/
def Memory.writeBytes (m : Memory) (a : Nat) (bs : List Byte) : Memory :=
  m.filter (fun c => decide (c.1 < a)) ++ cellsAt a bs ++ m.filter (fun c => decide (a + bs.length ≤ c.1))

/-- The byte written at an address, if one was. -/
def Memory.byte? : Memory → Nat → Option Byte
  | [], _ => none
  | c :: m, a => if c.1 = a then some c.2 else Memory.byte? m a

/-- The byte memory holds: the latest one written, else what memory held at reset (rule R63, rule R251). -/
def Memory.byte (m : Memory) (a : Nat) : Byte := (m.byte? a).getD (Config.memAtReset a)

/-- Eight bytes as one little-endian value: the byte at the lowest address holds bits 7:0 (rule R53). -/
def Memory.read64 (m : Memory) (a : Nat) : Word :=
  (m.byte (a + 7) ++ m.byte (a + 6) ++ m.byte (a + 5) ++ m.byte (a + 4) ++
    m.byte (a + 3) ++ m.byte (a + 2) ++ m.byte (a + 1) ++ m.byte a : BitVec 64)

/-- The eight bytes of a value, lowest address first (rule R53). -/
def bytesOf (v : Word) : List Byte :=
  [v.extractLsb' 0 8, v.extractLsb' 8 8, v.extractLsb' 16 8, v.extractLsb' 24 8,
   v.extractLsb' 32 8, v.extractLsb' 40 8, v.extractLsb' 48 8, v.extractLsb' 56 8]

/-- Store a 64-bit value as eight little-endian bytes (rule R53). -/
def Memory.write64 (m : Memory) (a : Nat) (v : Word) : Memory := m.writeBytes a (bytesOf v)

/-- Store 0 to `n` consecutive entries from address `a` on: the loops of rule R151 step 4 and rule R192, as one
store (`Laws.zeroEntries_succ` says that it is that loop; "an empty loop when n = 0", rule R7). -/
def Memory.zeroEntries (m : Memory) (a n : Nat) : Memory :=
  if n = 0 then m else m.writeBytes a (List.replicate (8 * n) 0)

/-! The configuration's derived values. -/

/-- `ROOT_BASE`: page-aligned and below 2^52 (rule R31). -/
def rootBase (c : Config) : PA := c.rootFrame.setWidth 64 <<< 12

/-- Is the byte at this address in `PHYS_MEM`? Only addresses below 2^52 are, and the root's page always is (rule
R50, rule R252 point 1). -/
def backed (c : Config) (a : Nat) : Bool :=
  decide (a < 2 ^ 52) &&
    (decide (a / 4096 = c.rootFrame.toNat) ||
      c.physMem.any fun r => decide (r.base ≤ a) && decide (a < r.base + r.size))

/-- Is the whole eight-byte access at this address in `PHYS_MEM`? -/
def backed64 (c : Config) (a : Nat) : Bool := (List.range 8).all fun k => backed c (a + k)

/-- The first of `n` consecutive entry addresses from `a` on that an access may not touch. -/
def firstUnbacked (c : Config) : Nat → Nat → Option Nat
  | _, 0 => none
  | a, n + 1 => if backed64 c a then firstUnbacked c (a + 8) n else some a

/-- `MAPPED_TYPE(type, attr)` (rule R5, rule R190). -/
def mappedType (c : Config) (type attr : Word) : Bool :=
  c.mappedTypes.any fun p => p.type == type && (attr &&& p.attrMask) == p.attrValue

/-- The physical address of entry `j` of the table at `t` (rule R55). -/
def entryAddr (t : PA) (j : Word) : PA := t + 8#64 * j

/-! The updates of the state that commands make. -/

/-- Memory becomes `m`. -/
def State.setMem (s : State) (m : Memory) : State := { s with mem := m }

/-- `RES0` becomes `v`. -/
def State.setRes0 (s : State) (v : Word) : State := { s with res0 := v }

/-- One more table has been installed: `ALLOCS` + 1, modulo 2^64 (rule R30). -/
def State.countTable (s : State) : State := { s with allocs := s.allocs + 1 }

/-- The allocator has given the answer `r`, and will give the answers `rest`. -/
def State.takeAnswer (s : State) (r : AllocAnswer) (rest : List AllocAnswer) : State :=
  { s with
    answers := rest
    granted := match r with
      | .frame f => f :: s.granted
      | .exhausted => s.granted }

/-- `STATUS.PHASE` becomes `p` (rule R26). -/
def State.setPhase (s : State) (p : Phase) : State := { s with phase := p }

/-- The command has been accepted: its word and operands are latched and `BUSY` is 1 (rule R22, rule R27). -/
def State.latch (s : State) (i : Instr) : State := { s with seq := some ⟨i, s.latchArgs, .start⟩ }

/-! The parts of a command, in the block's order of steps: each goes on with a value, raises a fault of the block,
waits for the allocator, or stops the model. -/

/-- How a part of a command ends. `ω` is what the sequencer holds while it waits. -/
inductive Run (ω α : Type) where
  | ok (s : State) (a : α)
  | raise (s : State) (f : Cause) (info : Word)
  | wait (s : State) (w : ω)
  | stop (f : Fault)

/-- Go on after a part; a wait inside it is held as the larger part's own. -/
def Run.bind {ω ω' α β : Type} (r : Run ω α) (hold : ω → ω') (k : State → α → Run ω' β) : Run ω' β :=
  match r with
  | .ok s a => k s a
  | .raise s f info => .raise s f info
  | .wait s w => .wait s (hold w)
  | .stop f => .stop f

/-- `MemRead(pa, 8)` (rule R7, rule R54); outside `PHYS_MEM` the model stops (rule R50). -/
def memRead {ω : Type} (s : State) (a : Nat) : Run ω Word :=
  if backed64 s.cfg a then .ok s (s.mem.read64 a) else .stop (.outsidePhysMem a)

/-- `MemWrite(pa, 8, v)` (rule R7, rule R54); outside `PHYS_MEM` the model stops (rule R50). -/
def memWrite {ω : Type} (s : State) (a : Nat) (v : Word) : Run ω Unit :=
  if backed64 s.cfg a then .ok (s.setMem (s.mem.write64 a v)) () else .stop (.outsidePhysMem a)

/-- `MemWrite(a + 8 × k, 8, 0)` for the `n` entries from `a` on. -/
def memZero {ω : Type} (s : State) (a n : Nat) : Run ω Unit :=
  match firstUnbacked s.cfg a n with
  | none => .ok (s.setMem (s.mem.zeroEntries a n)) ()
  | some b => .stop (.outsidePhysMem b)

/-- The allocator's answer to a request, if it has one ready, and the state after it (rule R229). -/
def allocFrame (s : State) : Option (AllocAnswer × State) :=
  match s.answers with
  | [] => none
  | r :: rest => some (r, s.takeAnswer r rest)

/-! Recording a fault: the one exception entry of the block, and its completion. -/

/-- `raise F(info)` for the command word `c` (rule R221): `FAULTED`, `FCODE`, `FOPC` and `FINFO` are recorded, `BUSY`
becomes 0 and the running command's hidden state is dropped. `PHASE`, memory and the results stay. There is no
return from it but reset (rule R226). -/
def State.raise (s : State) (c : Word) (f : Cause) (info : Word) : State :=
  { s with faulted := true, fcode := f.code, fopc := c.extractLsb' 0 8, finfo := info, seq := none }

/-- Does the running command stand in `ALLOC_WAIT`, with a request to the allocator outstanding (rule R153, rule R229)? -/
def awaitsAllocator (s : State) : Bool :=
  match s.seq with
  | some { task := .walk { point := .allocWait, .. }, .. } => true
  | some { task := .map { point := .walking _ { point := .allocWait, .. }, .. }, .. } => true
  | _ => false

/-- The command in `ALLOC_WAIT` is about to end without its answer. The spec speaks of an outstanding request at reset only
(rule R250); that one whose command `COMMAND_WHILE_BUSY` ends is left to run out is the model's choice (DESIGN CHOICE, log
entry 26): an answer that stands on the port belongs to that request and no other (rule R229), so it is used up with it,
and a frame in it stays one that the allocator has handed to the block; an answer still to come is awaited by nobody. -/
def State.leaveRequest (s : State) : State :=
  if awaitsAllocator s then
    match s.answers with
    | [] => { s with orphan := true }
    | r :: rest => s.takeAnswer r rest
  else s

/-- A write of the word `c` to `CMD` while a command runs: `COMMAND_WHILE_BUSY` is recorded and the running command ends
where it stands (rule R223, rule R224 step 2), an outstanding request of it left behind (log entry 26). -/
def State.interrupt (s : State) (c : Word) : State := s.leaveRequest.raise c .commandWhileBusy c

/-- The latched command word of the running command (rule R35). -/
def State.latchedWord (s : State) : Word :=
  match s.seq with
  | some j => encode j.instr
  | none => 0

/-- `raise F(info)` by the running command. -/
def State.raiseHere (s : State) (f : Cause) (info : Word) : State := s.raise s.latchedWord f info

/-- The command completes: `BUSY` becomes 0 and its hidden state is dropped (rule R27, rule R35). -/
def State.complete (s : State) : State := { s with seq := none }

/-- The running command stands at another point (rule R35). -/
def State.suspend (s : State) (t : Task) : State := { s with seq := s.seq.map fun j => { j with task := t } }

/-- What a part of a command leaves of the machine: its value is used, a fault is recorded, a wait is held with
`BUSY = 1`. -/
def Run.finish {ω α : Type} (r : Run ω α) (hold : ω → Task) (k : State → α → Result) : Result :=
  match r with
  | .ok s a => k s a
  | .raise s f info => .next (s.raiseHere f info)
  | .wait s w => .next (s.suspend (hold w))
  | .stop f => .fault f

/-! Issuing a command. -/

/-- A host write of a command's word to `CMD`: the checks of rule R224 steps 1, 2 and 4 in their order, then the
operands are latched, `BUSY` is set (rule R27) and the command's own steps follow. The checks are one step: that no
other agent's access falls between `BUSY` being set after check 2 and a fault at check 3 or 4 is the model's choice, since
the spec leaves that time open (rule R27, rule R257; DESIGN CHOICE, log entry 25). -/
def issue (i : Instr) (body : Args → State → Result) (s : State) : Result :=
  if s.faulted then .next s
  else if s.busy then .next (s.interrupt (encode i))
  else if admits i s.phase then body s.latchArgs (s.latch i)
  else .next (s.raise (encode i) .phaseViolation (s.phase.code.setWidth 64))

/-- A host write to `CMD` of a word that is no command: rule R224 steps 1, 2 and 3 (rule R88), in one step as `issue`
(log entry 25). -/
def issueIllegal (c : Word) (s : State) : State :=
  if s.faulted then s
  else if s.busy then s.interrupt c
  else s.raise c .illegalCommand c

end Sys2Proof.Machine
end

