-- ==== Sys2Proof/Machine/AddressDecoder.lean ====
section
/-! DEFINITION. The linear-address decoder (rule R83, rule R84, rule R110) and the command `ADEC` (rule R111). -/

namespace Sys2Proof.Machine

/-- The five fields of a linear address (rule R83). -/
structure LinearAddress where
  i4  : BitVec 9
  i3  : BitVec 9
  i2  : BitVec 9
  i1  : BitVec 9
  off : BitVec 12
deriving DecidableEq, Repr

/-- `decode(va)` of rule R110: total; bits 63:48 are not read. -/
def splitVA (va : VA) : LinearAddress where
  i4 := va.bits.extractLsb' 39 9
  i3 := va.bits.extractLsb' 30 9
  i2 := va.bits.extractLsb' 21 9
  i1 := va.bits.extractLsb' 12 9
  off := va.bits.extractLsb' 0 12

/-- `compose(i4, i3, i2, i1, off)` of rule R84. -/
def composeVA (l : LinearAddress) : VA where
  bits := (l.i4.setWidth 64 <<< 39) ||| (l.i3.setWidth 64 <<< 30) ||| (l.i2.setWidth 64 <<< 21) |||
    (l.i1.setWidth 64 <<< 12) ||| l.off.setWidth 64

/-- The five fields, zero-extended, in `RES0`-`RES4` (rule R111). -/
def State.setFields (s : State) (l : LinearAddress) : State :=
  { s with
    res0 := l.i4.setWidth 64
    res1 := l.i3.setWidth 64
    res2 := l.i2.setWidth 64
    res3 := l.i1.setWidth 64
    res4 := l.off.setWidth 64 }

/-- `ADEC` after its issue (rule R111). -/
def bodyAdec (a : Args) (s : State) : Result := .next (s.setFields (splitVA ⟨a.a0⟩)).complete

/-- `ADEC` (rule R111). -/
def execAdec (s : State) : Result := issue .adec bodyAdec s

end Sys2Proof.Machine
end

