-- ==== Sys2Proof/Machine/Codec.lean ====
section
/-! DEFINITION. The page-table-entry codec: the functions of rules R120-R124 over the layout of rule R80, and the
commands `PINIT`, `PFRAME`, `PPRES`, `PGET`, `PSET` and `EINIT` (rules R125-R130). -/

namespace Sys2Proof.Machine

/-- The lowest bit of a field (rule R80). -/
def fieldLo : EntryField → Nat
  | .p => 0
  | .w => 1
  | .u => 2
  | .pwt => 3
  | .pcd => 4
  | .a => 5
  | .d => 6
  | .psPat => 7
  | .g => 8
  | .avlLo => 9
  | .pfn => 12
  | .avlHi => 52
  | .pk => 59
  | .xd => 63

/-- The width of a field (rule R80). -/
def fieldWidth : EntryField → Nat
  | .p => 1
  | .w => 1
  | .u => 1
  | .pwt => 1
  | .pcd => 1
  | .a => 1
  | .d => 1
  | .psPat => 1
  | .g => 1
  | .avlLo => 3
  | .pfn => 40
  | .avlHi => 7
  | .pk => 4
  | .xd => 1

/-- `2^width - 1`: the largest value of a field. -/
def fieldMax (f : EntryField) : Word := (1#64 <<< fieldWidth f) - 1#64

/-- `get(e, f)`: a shift and a mask (rule R120). -/
def getField (e : Word) (f : EntryField) : Word := (e >>> fieldLo f) &&& fieldMax f

/-- `set(e, f, v)`: every bit outside the field is unchanged (rule R121). -/
def setField (e : Word) (f : EntryField) (v : Word) : Word :=
  (e &&& ~~~(fieldMax f <<< fieldLo f)) ||| (v <<< fieldLo f)

/-- The initialize word of a physical address: `PFN` = bits 51:12, `P` and `W` set, every other bit 0 (rule R122). -/
def initWord (pa : PA) : Word := ((pa.extractLsb' 12 40).setWidth 64 <<< 12) ||| 0x3

/-- The frame address of an entry (rule R123). -/
def frameAddr (e : Word) : PA := (e.extractLsb' 12 40).setWidth 64 <<< 12

/-- Presence: bit 0 (rule R124). -/
def isPresent (e : Word) : Bool := e.getLsbD 0

/-- `PINIT` after its issue (rule R125). -/
def bodyPinit (a : Args) (s : State) : Result := .next (s.setRes0 (initWord a.a0)).complete

/-- `PINIT` (rule R125). -/
def execPinit (s : State) : Result := issue .pinit bodyPinit s

/-- `PFRAME` after its issue (rule R126). -/
def bodyPframe (a : Args) (s : State) : Result := .next (s.setRes0 (frameAddr a.a0)).complete

/-- `PFRAME` (rule R126). -/
def execPframe (s : State) : Result := issue .pframe bodyPframe s

/-- `PPRES` after its issue (rule R127). -/
def bodyPpres (a : Args) (s : State) : Result :=
  .next (s.setRes0 (if isPresent a.a0 then 1 else 0)).complete

/-- `PPRES` (rule R127). -/
def execPpres (s : State) : Result := issue .ppres bodyPpres s

/-- `PGET` after its issue: a field id above 13 is refused (rule R128). -/
def bodyPget (a : Args) (s : State) : Result :=
  match entryFieldOf a.a1 with
  | none => .next (s.raiseHere .badOperand a.a1)
  | some f => .next (s.setRes0 (getField a.a0 f)).complete

/-- `PGET` (rule R128). -/
def execPget (s : State) : Result := issue .pget bodyPget s

/-- `PSET` after its issue: first the field id is checked, then that the value fits the field (rule R129). -/
def bodyPset (a : Args) (s : State) : Result :=
  match entryFieldOf a.a1 with
  | none => .next (s.raiseHere .badOperand a.a1)
  | some f =>
    if a.a2.toNat < 2 ^ fieldWidth f then .next (s.setRes0 (setField a.a0 f a.a2)).complete
    else .next (s.raiseHere .badOperand a.a2)

/-- `PSET` (rule R129). -/
def execPset (s : State) : Result := issue .pset bodyPset s

/-- `EINIT` after its issue: one entry is written in place (rule R130). -/
def bodyEinit (a : Args) (s : State) : Result :=
  if entryAddrOk a.a0 then
    (memWrite (ω := Task) s a.a0.toNat (initWord a.a1)).finish id fun s _ => .next s.complete
  else .next (s.raiseHere .badOperand a.a0)

/-- `EINIT` (rule R130). -/
def execEinit (s : State) : Result := issue .einit bodyEinit s

end Sys2Proof.Machine
end

