-- ==== Sys2Proof/Machine/Walker.lean ====
section
/-! DEFINITION. The table walker and on-demand allocator: `resolveNext` (rule R150, rule R151), written so that it
can go on from every state of the walker (rule R153), one step of that state machine, and the command `WALK` (rule
R152). -/

namespace Sys2Proof.Machine

/-- The physical address of the entry a walker call is about (rule R151 step 1). -/
def WalkJob.ea (w : WalkJob) : PA := entryAddr w.table w.index

/-- Step 5: write the entry at `ea`, count the table, answer its base (rule R151). -/
def walkInstall (s : State) (ea f : PA) : Run WalkJob PA :=
  (memWrite (ω := WalkJob) s ea.toNat (initWord f)).bind id fun s _ => .ok s.countTable f

/-- Steps 4 and 5: zero the entries from `k` on, then install the table (rule R151). -/
def walkZero (s : State) (ea f : PA) (k : Nat) : Run WalkJob PA :=
  (memZero (ω := WalkJob) s (f.toNat + 8 * k) (512 - k)).bind id fun s _ => walkInstall s ea f

/-- Step 3: what an allocator's answer leads to; a frame that is unaligned or not below 2^52 is refused before it is
used (rule R151). -/
def walkAnswer {α : Type} (s : State) (ea : PA) (r : AllocAnswer) (k : State → PA → Run WalkJob α) : Run WalkJob α :=
  match r with
  | .exhausted => .raise s .allocExhausted ea
  | .frame f => if frameOk f then k s f else .raise s .allocatorContract f

/-- Steps 3 to 5: request a frame, and wait while the allocator has not answered (rule R151, rule R153). -/
def walkAlloc (s : State) (w : WalkJob) : Run WalkJob PA :=
  match allocFrame s with
  | none => .wait s { w with point := .allocWait }
  | some (r, s) => walkAnswer s w.ea r fun s f => walkZero s w.ea f 0

/-- `resolveNext` from the point the walker call has reached to its end (rule R151, rule R153). -/
def resolveFrom (s : State) (w : WalkJob) : Run WalkJob PA :=
  match w.point with
  | .readEntry =>
    (memRead (ω := WalkJob) s w.ea.toNat).bind id fun s e =>
      if isPresent e then .ok s (frameAddr e) else walkAlloc s w
  | .allocWait => walkAlloc s w
  | .zero f k => walkZero s w.ea f k
  | .install f => walkInstall s w.ea f

/-- `resolveNext(t, j)` (rule R150, rule R151). -/
def resolveNext (s : State) (t : PA) (j : Word) : Run WalkJob PA := resolveFrom s ⟨t, j, .readEntry⟩

/-- What one step of the walker leads to: another of its states, or `DONE` with the base of the next table. -/
inductive WalkNext where
  | more (w : WalkJob)
  | done (t : PA)
deriving DecidableEq, Repr

/-- The state after the zeroing write with the counter at `k`, which runs from 0 to 511 (rule R153). -/
def zeroNext (f : PA) (k : Nat) : WalkPoint := if k + 1 < 512 then .zero f (k + 1) else .install f

/-- One step of the walker's state machine: one memory access or one allocator answer (rule R153). -/
def walkTick (s : State) (w : WalkJob) : Run WalkJob WalkNext :=
  match w.point with
  | .readEntry =>
    (memRead (ω := WalkJob) s w.ea.toNat).bind id fun s e =>
      if isPresent e then .ok s (.done (frameAddr e)) else .ok s (.more { w with point := .allocWait })
  | .allocWait =>
    match allocFrame s with
    | none => .wait s w
    | some (r, s) => walkAnswer s w.ea r fun s f => .ok s (.more { w with point := .zero f 0 })
  | .zero f k =>
    if k < 512 then
      (memZero (ω := WalkJob) s (f.toNat + 8 * k) 1).bind id fun s _ => .ok s (.more { w with point := zeroNext f k })
    else .ok s (.more { w with point := .install f })
  | .install f => (walkInstall s w.ea f).bind id fun s t => .ok s (.done t)

/-- `WALK` answers: the base goes to `RES0` (rule R152). -/
def walkDone (s : State) (t : PA) : Result := .next (s.setRes0 t).complete

/-- `WALK`'s operand checks, in their order (rule R152), and what follows them. -/
def walkChecked (a : Args) (s : State) (k : WalkJob → Result) : Result :=
  if frameOk a.a0 then
    if indexOk a.a1 then k ⟨a.a0, a.a1, .readEntry⟩
    else .next (s.raiseHere .badOperand a.a1)
  else .next (s.raiseHere .badOperand a.a0)

/-- `WALK` from a point of its walker call to its end. -/
def walkFinish (s : State) (w : WalkJob) : Result := (resolveFrom s w).finish .walk walkDone

/-- `WALK` after its issue (rule R152). -/
def bodyWalk (a : Args) (s : State) : Result := walkChecked a s fun w => walkFinish s w

/-- `WALK` (rule R152). -/
def execWalk (s : State) : Result := issue .walk bodyWalk s

end Sys2Proof.Machine
end

