-- ==== Sys2Proof/Machine/Mapper.lean ====
section
/-! DEFINITION. The region mapper: `mapRegion` (rule R170), written so that it can go on from every point of a page,
one step of it, and the command `MAP` (rule R171). -/

namespace Sys2Proof.Machine

/-- The virtual address of page `i`, modulo 2^64 (rule R170). -/
def MapJob.va (m : MapJob) : VA := ⟨m.vbase.bits + 4096#64 * BitVec.ofNat 64 m.i⟩

/-- The physical address of page `i`, modulo 2^64 (rule R170). -/
def MapJob.pa (m : MapJob) : PA := m.pbase + 4096#64 * BitVec.ofNat 64 m.i

/-- The index a page's virtual address gives at a level the mapper walks (rule R170). -/
def levelIndex (va : VA) : WalkLevel → Word
  | .pml4 => (splitVA va).i4.setWidth 64
  | .pdpt => (splitVA va).i3.setWidth 64
  | .pd => (splitVA va).i2.setWidth 64

/-- The mapper before the first walker call of page `i`: on the root table (rule R170). -/
def MapJob.atPage (m : MapJob) (c : Config) (i : Nat) : MapJob :=
  let m := { m with i := i }
  { m with point := .walking .pml4 ⟨rootBase c, levelIndex m.va .pml4, .readEntry⟩ }

/-- The leaf write of the page: unconditional (rule R170, rule R173). -/
def leafWrite (s : State) (m : MapJob) (pt : PA) : Run MapJob Unit :=
  memWrite s (entryAddr pt ((splitVA m.va).i1.setWidth 64)).toNat (initWord m.pa)

/-- A walker call of the page, then the rest of the page. -/
def walkThen (s : State) (m : MapJob) (l : WalkLevel) (w : WalkJob) (k : State → PA → Run MapJob Unit) :
    Run MapJob Unit :=
  (resolveFrom s w).bind (fun w => { m with point := .walking l w }) k

/-- The page from its PD walker call on. -/
def pageFromPd (s : State) (m : MapJob) (w : WalkJob) : Run MapJob Unit :=
  walkThen s m .pd w fun s pt => leafWrite s m pt

/-- The page from its PDPT walker call on. -/
def pageFromPdpt (s : State) (m : MapJob) (w : WalkJob) : Run MapJob Unit :=
  walkThen s m .pdpt w fun s pd => pageFromPd s m ⟨pd, levelIndex m.va .pd, .readEntry⟩

/-- The page from its PML4 walker call on: the body of the loop of rule R170. -/
def pageFromPml4 (s : State) (m : MapJob) (w : WalkJob) : Run MapJob Unit :=
  walkThen s m .pml4 w fun s pdpt => pageFromPdpt s m ⟨pdpt, levelIndex m.va .pdpt, .readEntry⟩

/-- The page from the point reached to its end. -/
def pageFinish (s : State) (m : MapJob) : Run MapJob Unit :=
  match m.point with
  | .walking .pml4 w => pageFromPml4 s m w
  | .walking .pdpt w => pageFromPdpt s m w
  | .walking .pd w => pageFromPd s m w
  | .leaf pt => leafWrite s m pt

/-- The rest of the current page and the pages after it, `r` in all (rule R170, rule R172). -/
def mapPages : Nat → State → MapJob → Run MapJob Unit
  | 0, s, _ => .ok s ()
  | r + 1, s, m => (pageFinish s m).bind id fun s _ => mapPages r s (m.atPage s.cfg (m.i + 1))

/-- What completing a mapping command writes to `RES0`: nothing for `MAP` (rule R171, rule R190, rule R191). -/
def mapDone (s : State) (m : MapJob) : State :=
  match m.result with
  | some v => (s.setRes0 v).complete
  | none => s.complete

/-- The region from the point reached to its end. -/
def mapFinish (s : State) (m : MapJob) : Result :=
  (mapPages (m.pages - m.i) s m).finish .map fun s _ => .next (mapDone s m)

/-- The two alignment checks of `mapRegion`, virtual base first, made even for no pages (rule R170), and what follows
them. -/
def mapChecked (s : State) (vbase : VA) (pbase : PA) (pages : Nat) (result : Option Word) (k : MapJob → Result) :
    Result :=
  if pageAligned vbase.bits then
    if pageAligned pbase then k (MapJob.atPage ⟨vbase, pbase, pages, 0, .leaf 0, result⟩ s.cfg 0)
    else .next (s.raiseHere .misalignedRegion pbase)
  else .next (s.raiseHere .misalignedRegion vbase.bits)

/-- `mapRegion(vbase, pbase, n)` and the completion of the command that runs it (rule R170). -/
def mapRegion (s : State) (vbase : VA) (pbase : PA) (pages : Nat) (result : Option Word) : Result :=
  mapChecked s vbase pbase pages result fun m => mapFinish s m

/-- The point of the page after a walker call has answered (rule R170). -/
def pageAfterWalk (m : MapJob) (l : WalkLevel) (t : PA) : MapJob :=
  match l with
  | .pml4 => { m with point := .walking .pdpt ⟨t, levelIndex m.va .pdpt, .readEntry⟩ }
  | .pdpt => { m with point := .walking .pd ⟨t, levelIndex m.va .pd, .readEntry⟩ }
  | .pd => { m with point := .leaf t }

/-- One step of a mapping command. -/
def mapTick (s : State) (m : MapJob) : Result :=
  if m.i < m.pages then
    match m.point with
    | .walking l w =>
      (walkTick s w).finish (fun w => .map { m with point := .walking l w }) fun s n =>
        match n with
        | .more w => .next (s.suspend (.map { m with point := .walking l w }))
        | .done t => .next (s.suspend (.map (pageAfterWalk m l t)))
    | .leaf pt =>
      (leafWrite s m pt).finish .map fun s _ =>
        if m.i + 1 < m.pages then .next (s.suspend (.map (m.atPage s.cfg (m.i + 1))))
        else .next (mapDone s m)
  else .next (mapDone s m)

/-- The virtual address equal to a physical one: the one place where the block turns an address of one type into the
other (rule R8, `map_region_identity`). -/
def identityVA (p : PA) : VA := ⟨p⟩

/-- `MAP` after its issue (rule R171). -/
def bodyMap (a : Args) (s : State) : Result := mapRegion s ⟨a.a0⟩ a.a1 a.a2.toNat none

/-- `MAP` (rule R171). -/
def execMap (s : State) : Result := issue .map bodyMap s

end Sys2Proof.Machine
end

