-- ==== Sys2Proof/Machine/Activation.lean ====
section
/-! DEFINITION. The memory-map translator, the framebuffer, root zeroing and activation: `MAPDESC`, `MAPFB`, `ROOTZ`
and `ENABLE` (rules R190-R193). -/

namespace Sys2Proof.Machine

/-- `MAPDESC`: a descriptor of a mapped type leads to a region, another one is skipped (rule R190). -/
def descChecked (a : Args) (s : State) (k : Result) : Result :=
  if mappedType s.cfg a.a0 a.a3 then k
  else .next (s.setRes0 0).complete

/-- `MAPDESC` after its issue (rule R190). -/
def bodyMapdesc (a : Args) (s : State) : Result :=
  descChecked a s (mapRegion s (identityVA a.a1) a.a1 a.a2.toNat (some 1))

/-- `MAPDESC` (rule R190). -/
def execMapdesc (s : State) : Result := issue .mapdesc bodyMapdesc s

/-- `⌈size / 4096⌉ + 1`, computed without overflow (rule R191). -/
def framebufferPages (size : Word) : Nat := (size.toNat + 4095) / 4096 + 1

/-- `MAPFB` after its issue (rule R191). -/
def bodyMapfb (a : Args) (s : State) : Result :=
  mapRegion s (identityVA a.a0) a.a0 (framebufferPages a.a1) (some (BitVec.ofNat 64 (framebufferPages a.a1)))

/-- `MAPFB` (rule R191). -/
def execMapfb (s : State) : Result := issue .mapfb bodyMapfb s

/-- The phase becomes POPULATING at the completion of `ROOTZ` (rule R26, rule R192). -/
def rootzDone (s : State) : State := (s.setPhase .populating).complete

/-- `ROOTZ` from entry `k` on. The root's page is in `PHYS_MEM` by construction (rule R252 point 1, `backed`). -/
def rootzFinish (s : State) (k : Nat) : Result :=
  .next (rootzDone (s.setMem (s.mem.zeroEntries ((rootBase s.cfg).toNat + 8 * k) (512 - k))))

/-- `ROOTZ` after its issue (rule R192). -/
def bodyRootz (_ : Args) (s : State) : Result := rootzFinish s 0

/-- One step of `ROOTZ`: one entry zeroed; the last one completes the command. -/
def rootzTick (s : State) (k : Nat) : Result :=
  if k < 512 then
    let s := s.setMem (s.mem.zeroEntries ((rootBase s.cfg).toNat + 8 * k) 1)
    if k + 1 < 512 then .next (s.suspend (.rootz (k + 1))) else .next (rootzDone s)
  else .next (rootzDone s)

/-- `ROOTZ` (rule R192). -/
def execRootz (s : State) : Result := issue .rootz bodyRootz s

/-- `WriteCR3(v)`: the CPU's paging-control register takes the value (rule R230), and `CR3OUT` shows it (rule R32). -/
def writeCr3 (s : State) (v : Word) : State := { s with pagingReg := v, cr3out := v }

/-- `ENABLE` after its issue: every earlier memory write is performed already (rule R193). -/
def bodyEnable (_ : Args) (s : State) : Result :=
  .next ((writeCr3 s (rootBase s.cfg)).setPhase .active).complete

/-- `ENABLE` (rule R193). -/
def execEnable (s : State) : Result := issue .enable bodyEnable s

end Sys2Proof.Machine
end

