-- ==== Sys2Proof/Machine/Dispatch.lean ====
section
/-! DEFINITION. One arm per command, each one call of its meaning. -/

namespace Sys2Proof.Machine

/-- A command issued by a host write of its word to `CMD`, run until it has ended or waits for the allocator. -/
def exec (i : Instr) (s : State) : Host.Outcome State Fault Refusal :=
  match i with
  | .adec => Sys2Proof.Machine.execAdec s
  | .pinit => Sys2Proof.Machine.execPinit s
  | .pframe => Sys2Proof.Machine.execPframe s
  | .ppres => Sys2Proof.Machine.execPpres s
  | .pget => Sys2Proof.Machine.execPget s
  | .pset => Sys2Proof.Machine.execPset s
  | .einit => Sys2Proof.Machine.execEinit s
  | .walk => Sys2Proof.Machine.execWalk s
  | .map => Sys2Proof.Machine.execMap s
  | .mapdesc => Sys2Proof.Machine.execMapdesc s
  | .mapfb => Sys2Proof.Machine.execMapfb s
  | .rootz => Sys2Proof.Machine.execRootz s
  | .enable => Sys2Proof.Machine.execEnable s

end Sys2Proof.Machine
end

