-- ==== Sys2Proof/Machine/HostPort.lean ====
section
/-! DEFINITION. The register window the host reads and writes (rule R21, rules R22-R34). -/

namespace Sys2Proof.Machine

/-- What a host read of a register returns (rule R21): 0 from `CMD` (rule R22) and from the reserved offsets (rule
R33), `ROOT_BASE` from `ROOT` (rule R31). -/
def readReg (s : State) : HostReg → Word
  | .cmd => 0
  | .arg0 => s.arg0
  | .arg1 => s.arg1
  | .arg2 => s.arg2
  | .arg3 => s.arg3
  | .res0 => s.res0
  | .res1 => s.res1
  | .res2 => s.res2
  | .res3 => s.res3
  | .res4 => s.res4
  | .status => s.statusWord
  | .finfo => s.finfo
  | .allocs => s.allocs
  | .root => rootBase s.cfg
  | .cr3out => s.cr3out
  | .reserved => 0

/-- A host write to a register other than `CMD`: plain storage in `ARG0`-`ARG3` at any time (rule R23), no effect on
the others (rule R33). -/
def writeReg (s : State) (r : HostReg) (v : Word) : State :=
  match r with
  | .arg0 => { s with arg0 := v }
  | .arg1 => { s with arg1 := v }
  | .arg2 => { s with arg2 := v }
  | .arg3 => { s with arg3 := v }
  | .cmd => s
  | .res0 => s
  | .res1 => s
  | .res2 => s
  | .res3 => s
  | .res4 => s
  | .status => s
  | .finfo => s
  | .allocs => s
  | .root => s
  | .cr3out => s
  | .reserved => s

/-- A read of the host has returned `v`. -/
def State.setHostData (s : State) (v : Word) : State := { s with hostData := v }

/-- A well-formed host access that starts no command; what is read is the host's (`hostData`). -/
def plainAccess (s : State) (r : HostReg) : HostOp → State
  | .read => s.setHostData (readReg s r)
  | .write v => writeReg s r v

end Sys2Proof.Machine
end

