-- ==== Sys2Proof/Machine/Sequencer.lean ====
section
/-! DEFINITION. The sequencer with a command in progress (rule R35): its one step, and its run to the command's end. A
running command that is never interrupted ends as `exec` says (rule R35, D28). -/

namespace Sys2Proof.Machine

/-- The steps of a command after its issue, all of them (rule R35's atomic reading). -/
def bodyOf : Instr → Args → State → Result
  | .adec => bodyAdec
  | .pinit => bodyPinit
  | .pframe => bodyPframe
  | .ppres => bodyPpres
  | .pget => bodyPget
  | .pset => bodyPset
  | .einit => bodyEinit
  | .walk => bodyWalk
  | .map => bodyMap
  | .mapdesc => bodyMapdesc
  | .mapfb => bodyMapfb
  | .rootz => bodyRootz
  | .enable => bodyEnable

/-- A mapping command's first step: its checks are made and its iteration stands at page 0, or it has no page and is
done (rule R170). -/
def enterMap (s : State) (m : MapJob) : Result :=
  if 0 < m.pages then .next (s.suspend (.map m)) else .next (mapDone s m)

/-- The first step of a command: its operand checks; a command without an iteration is done in it. -/
def startTick : Instr → Args → State → Result
  | .walk, a, s => walkChecked a s fun w => .next (s.suspend (.walk w))
  | .map, a, s => mapChecked s ⟨a.a0⟩ a.a1 a.a2.toNat none (enterMap s)
  | .mapdesc, a, s => descChecked a s (mapChecked s (identityVA a.a1) a.a1 a.a2.toNat (some 1) (enterMap s))
  | .mapfb, a, s =>
    mapChecked s (identityVA a.a0) a.a0 (framebufferPages a.a1) (some (BitVec.ofNat 64 (framebufferPages a.a1))) (enterMap s)
  | .rootz, _, s => .next (s.suspend (.rootz 0))
  | .adec, a, s => bodyAdec a s
  | .pinit, a, s => bodyPinit a s
  | .pframe, a, s => bodyPframe a s
  | .ppres, a, s => bodyPpres a s
  | .pget, a, s => bodyPget a s
  | .pset, a, s => bodyPset a s
  | .einit, a, s => bodyEinit a s
  | .enable, a, s => bodyEnable a s

/-- One step of `WALK`. -/
def walkCommandTick (s : State) (w : WalkJob) : Result :=
  (walkTick s w).finish .walk fun s n =>
    match n with
    | .more w => .next (s.suspend (.walk w))
    | .done t => walkDone s t

/-- One step of the running command; nothing when none runs (rule R35, rule R153). -/
def tick (s : State) : Result :=
  match s.seq with
  | none => .next s
  | some j =>
    match j.task with
    | .start => startTick j.instr j.args s
    | .walk w => walkCommandTick s w
    | .map m => mapTick s m
    | .rootz k => rootzTick s k

/-- The running command to its end, or to its wait for the allocator (rule R35). -/
def runOn (s : State) : Result :=
  match s.seq with
  | none => .next s
  | some j =>
    match j.task with
    | .start => bodyOf j.instr j.args s
    | .walk w => walkFinish s w
    | .map m => mapFinish s m
    | .rootz k => rootzFinish s k

/-- A command accepted and not yet begun: the issue alone (rule R27). -/
def accept (i : Instr) (s : State) : Result := issue i (fun _ s => .next s) s

end Sys2Proof.Machine
end

