-- ==== Sys2Proof/Machine/Translate.lean ====
section
/-! DEFINITION. The translation the CPU performs on the finished tables: the observation `Translate` (rule R61), and
the accessed and dirty updates its walk may make (rule R70). -/

namespace Sys2Proof.Machine

/-- What `Translate` answers (rule R61). -/
inductive Translation where
  | mapped (pa : PA)
  | notMapped (level : Level)
  | unmodelled (level : Level)
deriving DecidableEq, Repr

/-- The levels above the leaf with the index each uses, root first (rule R61). -/
def upperLevels (l : LinearAddress) : List (Level × BitVec 9) :=
  [(.pml4, l.i4), (.pdpt, l.i3), (.pd, l.i2)]

/-- The address of an entry of a table, by a 9-bit index. -/
def entryAt (t : PA) (j : BitVec 9) : Nat := (entryAddr t (j.setWidth 64)).toNat

/-- The rest of `Translate` from a table on: through the levels left, then the leaf (rule R61). -/
def translateFrom (m : Memory) (l : LinearAddress) : List (Level × BitVec 9) → PA → Translation
  | [], t =>
    let e := m.read64 (entryAt t l.i1)
    if isPresent e then .mapped (frameAddr e ||| l.off.setWidth 64) else .notMapped .pt
  | (level, j) :: rest, t =>
    let e := m.read64 (entryAt t j)
    if isPresent e then
      if level ≠ .pml4 ∧ e.getLsbD 7 = true then .unmodelled level
      else translateFrom m l rest (frameAddr e)
    else .notMapped level

/-- `Translate(M, r, va)` (rule R61). -/
def translateVA (m : Memory) (r : PA) (va : VA) : Translation :=
  translateFrom m (splitVA va) (upperLevels (splitVA va)) r

/-- The addresses of the entries the walk of `va` uses, as long as they are present, root first. -/
def walkPath (m : Memory) : List (BitVec 9) → PA → List Nat
  | [], _ => []
  | j :: rest, t =>
    let a := entryAt t j
    if isPresent (m.read64 a) then a :: walkPath m rest (frameAddr (m.read64 a)) else [a]

/-- The four entry addresses of a mapped virtual address. -/
def touchedEntries (m : Memory) (r : PA) (va : VA) : List Nat :=
  let l := splitVA va
  walkPath m [l.i4, l.i3, l.i2, l.i1] r

/-- Set some bits of the entry at an address. -/
def setEntryBits (m : Memory) (a : Nat) (bits : Word) : Memory := m.write64 a (m.read64 a ||| bits)

/-- The bits a touch sets in the `k`-th entry of the path: bit 5 where `setA` says so, and bit 6 in the leaf of a page
that is written where `setD` says so (rule R70). -/
def touchBits (k : Nat) (writes : Bool) (setA : BitVec 4) (setD : Bool) : Word :=
  (if setA.getLsbD (3 - k) then 0x20 else 0) ||| (if k = 3 ∧ writes = true ∧ setD = true then 0x40 else 0)

/-- The updates of the CPU's walk, entry by entry from the `k`-th on (rule R70). -/
def touchEntries (writes : Bool) (setA : BitVec 4) (setD : Bool) : Nat → List Nat → Memory → Memory
  | _, [], m => m
  | k, a :: rest, m =>
    touchEntries writes setA setD (k + 1) rest (setEntryBits m a (touchBits k writes setA setD))

end Sys2Proof.Machine
end

