-- ==== Sys2Proof/Machine/Inputs.lean ====
section
/-! DEFINITION. What each input of the environment does to the machine: host accesses, sequencer steps, allocator
answers, CPU walks, other agents' accesses, and reset (rule R20, rule R34, rule R64, rule R70, rule R227, rule R250). -/

namespace Sys2Proof.Machine

/-- The inputs left become `is`. -/
def State.setInputs (s : State) (is : List Input) : State := { s with inputs := is }

/-- The allocator's next answers become `rs`. -/
def State.setAnswers (s : State) (rs : List AllocAnswer) : State := { s with answers := rs }

/-- A host write of a word to `CMD` (rule R22): a command runs as `exec` says, any other word is illegal (rule R88). -/
def commandWrite (c : Word) (s : State) : Result :=
  match decode c with
  | .ok i => exec i s
  | .error _ => .next (issueIllegal c s)

/-- A host write of a word to `CMD` after which the sequencer has only accepted the command. -/
def commandAccept (c : Word) (s : State) : Result :=
  match decode c with
  | .ok i => accept i s
  | .error _ => .next (issueIllegal c s)

/-- One host access of the register window; one that rule R34 gives no meaning is refused. -/
def hostStep (a : HostAccess) (s : State) : Result :=
  if a.wf then
    match hostRegAt a.offset, a.op with
    | .cmd, .write c => commandWrite c s
    | r, op => .next (plainAccess s r op)
  else .refused (.hostAccess a.offset a.width)

/-- The answer that has come for the outstanding request and has not been taken yet (rule R229). -/
def portAnswer (s : State) : Option AllocAnswer := if awaitsAllocator s then s.answers.head? else none

/-- The answers that are left when the outstanding request is abandoned: its answer, if it has come, is ignored (rule
R250). -/
def answersAfterReset (s : State) : List AllocAnswer := if awaitsAllocator s then s.answers.tail else s.answers

/-- Reset of the block (rule R250): every register takes its reset value, the hidden state and an outstanding request
are dropped, the request's answer with it. Memory, the CPU's paging-control register and everything else that is the
environment's stay (rule R251, log entry 18); "since reset" starts again for the allocator's frames (rule R255). -/
def resetBlock (s : State) : State :=
  { State.reset with
    mem := s.mem, pagingReg := s.pagingReg, answers := answersAfterReset s, inputs := s.inputs, hostData := s.hostData,
    cfg := s.cfg }

/-- A late answer, to a request that has outlived its command: nobody uses it, and a frame in it counts as handed to the
block (rule R254 (a), log entry 26). -/
def answerOrphan (r : AllocAnswer) (s : State) : State := { s.takeAnswer r s.answers with orphan := false }

/-- An allocator answer: it goes to the outstanding request, or, when there is none, is ignored (rule R229, rule
R250). -/
def answerStep (r : AllocAnswer) (s : State) : State :=
  if s.orphan then answerOrphan r s
  else if awaitsAllocator s && s.answers.isEmpty then s.setAnswers [r]
  else s

/-- The frames the allocator has handed to the block since reset: those the walker has taken, and the one it has just
been answered (rule R64, rule R254 (a)). -/
def handedFrames (s : State) : List PA :=
  match portAnswer s with
  | some (.frame f) => f :: s.granted
  | some .exhausted => s.granted
  | none => s.granted

/-- Is the byte at this address in table memory: in the root's page, or in a frame the allocator handed to the block
(rule R64, rule R254)? -/
def tableByte (s : State) (a : Nat) : Bool :=
  decide (a / 4096 = s.cfg.rootFrame.toNat) ||
    (handedFrames s).any fun f => decide (f.toNat ≤ a) && decide (a < f.toNat + 4096)

/-- Does a stretch of bytes touch table memory? -/
def touchesTables (s : State) (a n : Nat) : Bool := (List.range n).any fun k => tableByte s (a + k)

/-- A store of another agent: refused on table memory while the block is POPULATING (rule R64, rule R254 (a)). -/
def agentStoreStep (a : Nat) (bytes : List Byte) (s : State) : Result :=
  if 2 ^ 64 < a + bytes.length then .refused (.beyondAddressSpace a)
  else if s.phase = .populating ∧ touchesTables s a bytes.length = true then .refused (.tableMemoryShared a)
  else .next (s.setMem (s.mem.writeBytes a bytes))

/-- A host read of eight bytes of memory: refused on table memory while `BUSY = 1` in POPULATING (rule R64, rule R254
(b)). -/
def agentLoadStep (a : Nat) (s : State) : Result :=
  if 2 ^ 64 < a + 8 then .refused (.beyondAddressSpace a)
  else if s.phase = .populating ∧ s.busy = true ∧ touchesTables s a 8 = true then .refused (.tableMemoryShared a)
  else .next (s.setHostData (s.mem.read64 a))

/-- The CPU's walk from `ROOT_BASE`: an unmapped address is a fault that never reaches a final state (rule R227), a
mapped one may set accessed and dirty bits (rule R70). -/
def cpuWalk (va : VA) (writes : Bool) (setA : BitVec 4) (setD : Bool) (s : State) : Result :=
  match translateVA s.mem (rootBase s.cfg) va with
  | .notMapped l => .fault (.unmappedAccess va l)
  | .unmodelled l => .refused (.largePage va l)
  | .mapped _ =>
    .next (s.setMem (touchEntries writes setA setD 0 (touchedEntries s.mem (rootBase s.cfg) va) s.mem))

/-- A CPU access through the block's tables: refused in POPULATING (rule R254 (d)); in UNINIT the CPU walks them when an
`ENABLE` before the latest reset has loaded the root, and does not use them otherwise (log entry 13). -/
def cpuTouchStep (va : VA) (writes : Bool) (setA : BitVec 4) (setD : Bool) (s : State) : Result :=
  match s.phase with
  | .active => cpuWalk va writes setA setD s
  | .populating => .refused (.walkBeforeEnable va)
  | .uninit =>
    if s.pagingReg = rootBase s.cfg then cpuWalk va writes setA setD s else .refused (.rootNotLoaded va)

/-- One poll of `WAIT` (rule R90): the host reads `STATUS`; while `BUSY` is 1 it polls again, and the sequencer goes on
meanwhile. -/
def waitStep (s : State) : Result :=
  if s.busy then tick ((s.setHostData s.statusWord).setInputs (.wait :: s.inputs))
  else .next (s.setHostData s.statusWord)

/-- What an input does, in the state after it has been taken from the list. -/
def inputStep (x : Input) (s : State) : Result :=
  match x with
  | .host a => hostStep a s
  | .issue c => commandAccept c s
  | .tick => tick s
  | .run => runOn s
  | .wait => waitStep s
  | .answer r => .next (answerStep r s)
  | .cpuTouch va writes setA setD => cpuTouchStep va writes setA setD s
  | .agentStore a bytes => agentStoreStep a bytes s
  | .agentLoad a => agentLoadStep a s
  | .reset => .next (resetBlock s)

/-- The machine's step: the environment's next input; with none left the block is idle and keeps every register (rule
R233). -/
def nextInput (s : State) : Result :=
  match s.inputs with
  | [] => .next s
  | x :: rest => inputStep x (s.setInputs rest)

/-- A host write of the word to `CMD`, put before every other input: the block's next command (rule R22). -/
def placeCommand (s : State) (c : Word) : State :=
  s.setInputs (.host ⟨0x00, 8, .write c⟩ :: s.inputs)

/-- The inputs a written command stands for: its register writes, then the wait (rule R89). -/
def writtenInputs (x : Written) : List Input := x.accesses.map .host ++ [.wait]

/-- The inputs a pseudo-command stands for (rule R90, rule R194). -/
def pseudoInputs (p : Pseudo) : List Input := (p.expand.map writtenInputs).flatten

end Sys2Proof.Machine
end

