-- ==== Sys2Proof/Machine/Step.lean ====
section
/-! DEFINITION. One step of the machine, and where its next command comes from: the list of inputs, in which a host
write to `CMD` is what starts a command (rule R22, rule R38). -/

namespace Sys2Proof.Machine

/-- One step: the environment's next input (`nextInput`). -/
def step (s : State) : Host.Outcome State Fault Refusal := nextInput s

/-- The state whose next input is the host's write of this command word to `CMD`: the very next step runs the
command (log entry 7). A command word is one 64-bit register value, so the bits above `nbits` are 0. -/
def State.withFetchWord (s : State) (nbits w : Nat) : State := placeCommand s (BitVec.ofNat 64 (w % 2 ^ nbits))

end Sys2Proof.Machine
end

