-- ==== Sys2Proof/Safety.lean ====
section
/-! DEFINITION. The terms claims are stated in: when a command may be issued, the invariant of every step, the premises
of a run (rules R252-R255), and the shape of the table hierarchy (rule R58). -/

namespace Sys2Proof.Machine

/-- A command may be issued: none runs and no fault is recorded (rule R224 steps 1 and 2, rule R253). -/
def State.Ready (s : State) : Prop := s.faulted = false ∧ s.seq = none

/-- The block is at work: a command may be issued and the phase is POPULATING. -/
def State.Populating (s : State) : Prop := s.Ready ∧ s.phase = .populating

/-- A host write of a word to `CMD`, as the host does it (rule R21, rule R22, rule R34). -/
def cmdWrite (c : Word) : Input := .host ⟨0x00, 8, .write c⟩

/-- The bits of the fields of an entry, by field id: lowest bit and width, as the table of rule R80 lists them. -/
def fieldTable : List (Nat × Nat) :=
  [(0, 1), (1, 1), (2, 1), (3, 1), (4, 1), (5, 1), (6, 1), (7, 1), (8, 1), (9, 3), (12, 40), (52, 7), (59, 4), (63, 1)]

/-- The commands that table memory's phases restrict, with the phase each needs (rule R87). -/
def neededPhase : Instr → Option Phase
  | .einit => some .populating
  | .walk => some .populating
  | .map => some .populating
  | .mapdesc => some .populating
  | .mapfb => some .populating
  | .rootz => some .uninit
  | .enable => some .populating
  | .adec => none
  | .pinit => none
  | .pframe => none
  | .ppres => none
  | .pget => none
  | .pset => none

/-- The state after a fault has been recorded (rule R221), in the spec's own terms: the code's number, the low byte of
the command word, the information word, `BUSY` 0. -/
def recorded (s : State) (code : BitVec 4) (c info : Word) : State :=
  { s with faulted := true, fcode := code, fopc := c.extractLsb' 0 8, finfo := info, seq := none }

/-! The invariant. -/

/-- A walker call in progress: its table and index are in their domains, and so is the frame it holds (rule R151, rule
R152, rule R153). -/
def walkOk (w : WalkJob) : Prop :=
  frameOk w.table = true ∧ indexOk w.index = true ∧
    match w.point with
    | .readEntry => True
    | .allocWait => True
    | .zero f k => frameOk f = true ∧ k < 512
    | .install f => frameOk f = true

/-- A region in progress: its bases are aligned, its index is below its count, and the point within the page is
sound (rule R170). -/
def mapOk (m : MapJob) : Prop :=
  pageAligned m.vbase.bits = true ∧ pageAligned m.pbase = true ∧ m.i < m.pages ∧
    match m.point with
    | .walking _ w => walkOk w
    | .leaf pt => frameOk pt = true

/-- A running command stands at a point of its own, in a phase that admits it (rule R35, rule R87). -/
def jobOk (p : Phase) (j : Job) : Prop :=
  admits j.instr p = true ∧
    match j.task with
    | .start => True
    | .walk w => j.instr = .walk ∧ walkOk w
    | .map m => (j.instr = .map ∨ j.instr = .mapdesc ∨ j.instr = .mapfb) ∧ mapOk m
    | .rootz k => j.instr = .rootz ∧ k < 512

/-- What every step keeps: memory in its canonical form; the fault record empty while no fault is recorded (rule R25,
rule R29), a code of rule R220 and no running command once one is (rule R221); `CR3OUT` 0 until `ENABLE` and
`ROOT_BASE` after, with the paging-control register holding it (rule R32, rule R193); a sound running command; a request that has outlived
its command only once a fault is recorded (log entry 26). -/
structure Inv (s : State) : Prop where
  memory   : s.mem.wf
  clean    : s.faulted = false → s.fcode = 0 ∧ s.fopc = 0 ∧ s.finfo = 0
  recorded : s.faulted = true → s.seq = none ∧ ∃ f : Cause, s.fcode = f.code
  cr3      : s.cr3out = if s.phase = .active then rootBase s.cfg else 0
  paging   : s.phase = .active → s.pagingReg = rootBase s.cfg
  job      : ∀ j, s.seq = some j → jobOk s.phase j
  orphan   : s.orphan = true → s.faulted = true

/-! Premises of a run. -/

/-- Every byte of the page at `t` is in `PHYS_MEM` (rule R50). -/
def pageBacked (c : Config) (t : PA) : Prop := ∀ k < 4096, backed c (t.toNat + k) = true

/-- A frame the allocator may answer: page-aligned, below 2^52, in `PHYS_MEM`, not the root's page and not answered
before since reset (rule R255). -/
def freshFrame (s : State) (f : PA) : Prop :=
  frameOk f = true ∧ pageBacked s.cfg f ∧ f ≠ rootBase s.cfg ∧ f ∉ s.granted

/-- The allocator keeps its promise for the answers it gives next: every frame is fresh, and none comes twice (rule
R229, rule R255; U5 makes this a premise of the run). -/
def AllocatorOk (s : State) : Prop :=
  (∀ f, AllocAnswer.frame f ∈ s.answers → freshFrame s f) ∧ s.answers.Pairwise fun r r' => r = r' → r = .exhausted

/-- The allocator keeps its promise for every frame it answers that passes the block's check; the others the block turns
away itself (rule R151 step 3, rule R255). -/
def AllocatorFresh (s : State) : Prop :=
  (∀ f, AllocAnswer.frame f ∈ s.answers → frameOk f = true → freshFrame s f) ∧
    s.answers.Pairwise fun r r' => ∀ f, r = .frame f → r' = .frame f → frameOk f = false

/-- The allocator answers at least `n` requests, each with a frame. -/
def framesReady (s : State) (n : Nat) : Prop :=
  n ≤ s.answers.length ∧ ∀ r ∈ s.answers.take n, ∃ f, r = .frame f ∧ frameOk f = true

/-! The table hierarchy. -/

/-- The level below a level (rule R58). -/
def Level.below : Level → Option Level
  | .pml4 => some .pdpt
  | .pdpt => some .pd
  | .pd => some .pt
  | .pt => none

/-- Entry `j` of the table at `t` (rule R55). -/
def entryOf (m : Memory) (t : PA) (j : BitVec 9) : Word := m.read64 (entryAt t j)

/-- `t` is a table of level `l` under the root `r`: the root itself, or the table a present entry of such a table of the
level above points at (rule R58). -/
inductive Reach (m : Memory) (r : PA) : Level → PA → Prop where
  | root : Reach m r .pml4 r
  | child {l l' : Level} {t : PA} (j : BitVec 9) : Reach m r l t → l.below = some l' →
      isPresent (entryOf m t j) = true → Reach m r l' (frameAddr (entryOf m t j))

/-- The hierarchy is a tree of the block's own tables (rule R58: "owned thereafter exclusively by their parent entry's
frame-number field; no other reference to them exists"), none of its entries is a large page (rule R60), and its
tables are in `PHYS_MEM`. -/
structure TablesOk (s : State) : Prop where
  own    : ∀ l t, Reach s.mem (rootBase s.cfg) l t → t = rootBase s.cfg ∨ t ∈ s.granted
  parent : ∀ l l' t t' j j', Reach s.mem (rootBase s.cfg) l t → Reach s.mem (rootBase s.cfg) l' t' →
    l.below.isSome = true → l'.below.isSome = true →
    isPresent (entryOf s.mem t j) = true → isPresent (entryOf s.mem t' j') = true →
    frameAddr (entryOf s.mem t j) = frameAddr (entryOf s.mem t' j') → t = t' ∧ j = j'
  top    : ∀ l t j, Reach s.mem (rootBase s.cfg) l t → l.below.isSome = true →
    isPresent (entryOf s.mem t j) = true → frameAddr (entryOf s.mem t j) ≠ rootBase s.cfg
  small  : ∀ l t j, Reach s.mem (rootBase s.cfg) l t → l.below.isSome = true →
    isPresent (entryOf s.mem t j) = true → (entryOf s.mem t j).getLsbD 7 = false
  inMem  : ∀ l t, Reach s.mem (rootBase s.cfg) l t → pageBacked s.cfg t

/-- The table that the indices lead to from `t`, as long as the entries are present. -/
def pathFrom (m : Memory) : PA → List (BitVec 9) → Option PA
  | t, [] => some t
  | t, j :: js => if isPresent (entryOf m t j) then pathFrom m (frameAddr (entryOf m t j)) js else none

/-- The present leaf entry that the indices, and the last index, lead to from `t`. -/
def leafFrom (m : Memory) (t : PA) (js : List (BitVec 9)) (i : BitVec 9) : Option Word :=
  match pathFrom m t js with
  | some p => if isPresent (entryOf m p i) then some (entryOf m p i) else none
  | none => none

/-- How many levels lie below a level: a path of that many indices leads to a leaf table (rule R58). -/
def Level.depth : Level → Nat
  | .pml4 => 3
  | .pdpt => 2
  | .pd => 1
  | .pt => 0

/-- Two virtual addresses lie in one virtual page: equal in bits 47:12 (rule R59). -/
def samePage (va va' : VA) : Prop := va.bits.extractLsb' 12 36 = va'.bits.extractLsb' 12 36

/-- The indices above the leaf level that a virtual address gives (rule R110, rule R170). -/
def pathOf (va : VA) : List (BitVec 9) := [(splitVA va).i4, (splitVA va).i3, (splitVA va).i2]

/-- The virtual address of page `i` of a region, modulo 2^64 (rule R170). -/
def regionPage (vbase : VA) (i : Nat) : VA := ⟨vbase.bits + 4096#64 * BitVec.ofNat 64 i⟩

/-- The physical address of page `i` of a region, modulo 2^64 (rule R170). -/
def regionFrame (pbase : PA) (i : Nat) : PA := pbase + 4096#64 * BitVec.ofNat 64 i

/-- `va` lies in some page of the region of `n` pages at `vbase` (rule R59). -/
def covered (vbase : VA) (n : Nat) (va : VA) : Prop := ∃ i < n, samePage va (regionPage vbase i)

/-- Page `i` is the last page of the region of `n` pages at `vbase` in which `va` lies: the one whose leaf write stays
(rule R172, rule R173). -/
def lastCover (vbase : VA) (n : Nat) (va : VA) (i : Nat) : Prop :=
  i < n ∧ samePage va (regionPage vbase i) ∧ ∀ i', i < i' → i' < n → ¬ samePage va (regionPage vbase i')

/-- The physical address that a leaf entry for the page at `pa` gives to `va`: bits 51:12 of `pa`, bits 11:0 of `va`
(rule R61, rule R122). -/
def inPage (pa : PA) (va : VA) : PA := (pa &&& 0x000FFFFFFFFFF000) ||| (va.bits &&& 0xFFF)

/-- In the memory `m'` the region of `n` pages at `vbase`, mapped to `pbase`, has just been mapped over the translations
of `m`: an address in the region translates as its last page says, and every other address to what it translated to
(rule R170, rule R173, rule R176). -/
def mappedOver (r : PA) (vbase : VA) (pbase : PA) (n : Nat) (m m' : Memory) : Prop :=
  ∀ va,
    (∀ i, lastCover vbase n va i → translateVA m' r va = .mapped (inPage (regionFrame pbase i) va)) ∧
    (¬ covered vbase n va → ∀ x, translateVA m' r va = .mapped x ↔ translateVA m r va = .mapped x)

/-- The fields of the machine a mapping command's iterations write: memory, `ALLOCS`, and the allocator's side (rule
R170, rule R171). Everything else is as before. -/
def onlyTables (s s' : State) : Prop :=
  s' = { s with mem := s'.mem, allocs := s'.allocs, granted := s'.granted, answers := s'.answers }

/-- Every byte of memory outside table memory is as before: the block writes only the PML4 and the frames the allocator
gave it (rule R50). -/
def onlyTableBytes (s s' : State) : Prop := ∀ a, tableByte s' a = false → s'.mem.byte a = s.mem.byte a

/-- Every byte of memory outside the root's page and the frames `fs` is as before (rule R50). -/
def onlyFrameBytes (s s' : State) (fs : List PA) : Prop :=
  ∀ a, a / 4096 ≠ s.cfg.rootFrame.toNat → (∀ f ∈ fs, a < f.toNat ∨ f.toNat + 4096 ≤ a) → s'.mem.byte a = s.mem.byte a

/-- The block has taken the frames `fs` from the allocator, latest first, installed a table in each, and counted it (rule
R30, rule R151). -/
structure Drew (s s' : State) (fs : List PA) : Prop where
  granted : s'.granted = fs ++ s.granted
  answers : s.answers = fs.reverse.map .frame ++ s'.answers
  allocs  : s'.allocs = s.allocs + BitVec.ofNat 64 fs.length

/-- A region at `vbase`, mapped to `pbase`, has been cut short at page `i`, with tables installed in the frames `fs`: the
pages before it are mapped and no other address translates differently, the hierarchy is sound, the walk of page `i` ends
above the leaf level, and nothing has been written outside the root's page, the frames `fs` and those taken before (rule
R174). -/
def regionCutShort (s t : State) (vbase : VA) (pbase : PA) (i : Nat) (fs : List PA) : Prop :=
  mappedOver (rootBase s.cfg) vbase pbase i s.mem t.mem ∧ TablesOk t ∧ onlyFrameBytes s t (fs ++ s.granted) ∧
    (∃ l, l ≠ .pt ∧ translateVA t.mem (rootBase s.cfg) (regionPage vbase i) = .notMapped l) ∧
    t.allocs = s.allocs + BitVec.ofNat 64 fs.length

/-- The region of `n` pages that the command with the word `c` maps has ended in `ALLOC_EXHAUSTED` (code 1), recorded with
the address of the entry that was to be installed (rule R151 step 3, rule R220, rule R221). -/
def regionExhausted (s t : State) (c : Word) (vbase : VA) (pbase : PA) (n : Nat) : Prop :=
  ∃ i < n, ∃ fs : List PA, regionCutShort s t vbase pbase i fs ∧
    s.answers = fs.reverse.map .frame ++ .exhausted :: t.answers ∧ t.granted = fs ++ s.granted ∧
    (touchedEntries t.mem (rootBase s.cfg) (regionPage vbase i)).getLast? = some t.finfo.toNat ∧
    onlyTables (recorded s 1 c t.finfo) t

/-- The region of `n` pages that the command with the word `c` maps has ended in `ALLOCATOR_CONTRACT` (code 6), recorded
with the frame answered, which is unaligned or not below 2^52 (rule R151 step 3, rule R220, rule R221). -/
def regionBadFrame (s t : State) (c : Word) (vbase : VA) (pbase : PA) (n : Nat) : Prop :=
  ∃ i < n, ∃ fs : List PA, regionCutShort s t vbase pbase i fs ∧
    s.answers = fs.reverse.map .frame ++ .frame t.finfo :: t.answers ∧ t.granted = t.finfo :: fs ++ s.granted ∧
    (t.finfo.toNat % 4096 ≠ 0 ∨ 2 ^ 52 ≤ t.finfo.toNat) ∧ onlyTables (recorded s 6 c t.finfo) t

/-- The CPU's walks go through the tables at `ROOT_BASE`: always in ACTIVE, and in UNINIT when the paging-control register
holds it from an `ENABLE` before the latest reset (rule R227, rule R250, rule R251). -/
def State.CpuWalks (s : State) : Prop := s.phase = .active ∨ (s.phase = .uninit ∧ s.pagingReg = rootBase s.cfg)

/-- A run of the host from one state to another in which every command issued completed with no fault, none was `EINIT`
or `WALK`, and the pages given were mapped: the virtual base and the page count of every `MAP`, of every `MAPDESC` of a
mapped type, and of every `MAPFB`, in order (rule R195). -/
inductive Populates : State → List (VA × Nat) → State → Prop where
  | done (s : State) : Populates s [] s
  | map {s t u : State} {rs : List (VA × Nat)} (vbase pbase n : Word) :
      exec .map { s with arg0 := vbase, arg1 := pbase, arg2 := n } = .next t → t.Ready → Populates t rs u →
      Populates s ((⟨vbase⟩, n.toNat) :: rs) u
  | mapped {s t u : State} {rs : List (VA × Nat)} (d : Descriptor) : mappedType s.cfg d.type d.attr = true →
      exec .mapdesc { s with arg0 := d.type, arg1 := d.start, arg2 := d.pages, arg3 := d.attr } = .next t → t.Ready →
      Populates t rs u → Populates s ((identityVA d.start, d.pages.toNat) :: rs) u
  | skipped {s t u : State} {rs : List (VA × Nat)} (d : Descriptor) : mappedType s.cfg d.type d.attr = false →
      exec .mapdesc { s with arg0 := d.type, arg1 := d.start, arg2 := d.pages, arg3 := d.attr } = .next t → t.Ready →
      Populates t rs u → Populates s rs u
  | framebuffer {s t u : State} {rs : List (VA × Nat)} (fb : Framebuffer) :
      exec .mapfb { s with arg0 := fb.base, arg1 := fb.size } = .next t → t.Ready → Populates t rs u →
      Populates s ((identityVA fb.base, (fb.size.toNat + 4095) / 4096 + 1) :: rs) u
  | compute {s t u : State} {rs : List (VA × Nat)} (i : Instr) (a0 a1 a2 : Word) : neededPhase i = none →
      exec i { s with arg0 := a0, arg1 := a1, arg2 := a2 } = .next t → t.Ready → Populates t rs u → Populates s rs u

/-- The `PFN` bits at and above `CPU_MAXPHYADDR` are 0, as the CPU asks of a present entry (rule R81). The block never
checks this (rule R5). -/
def cpuAcceptsFrame (c : Config) (e : Word) : Prop := (frameAddr e).toNat < 2 ^ c.cpuMaxPhyAddr

end Sys2Proof.Machine
end

