-- ==== Sys2Proof/Certificates/Slice0/Obligations.lean ====
section
/-! DEFINITION. The statements for the provers, one per entry of OBLIGATIONS.json. -/

open Sys2Proof Sys2Proof.Machine

/-! Encoding. -/

/-- The command words are those of the opcode map; over all 64-bit words, decoder and encoder agree, and a word is a
command exactly when bits 63:8 are zero and `OPC` is in 0x01-0x0D (rule R86). -/
def Obligations.DecodeAgreesWithEncode : Prop :=
  [encode .adec, encode .pinit, encode .pframe, encode .ppres, encode .pget, encode .pset, encode .einit, encode .walk,
    encode .map, encode .mapdesc, encode .mapfb, encode .rootz, encode .enable] =
    [0x01, 0x02, 0x03, 0x04, 0x05, 0x06, 0x07, 0x08, 0x09, 0x0A, 0x0B, 0x0C, 0x0D] ∧
  ∀ c : Word,
    (∀ i, decode c = .ok i ↔ c = encode i) ∧
    ((∃ i, decode c = .ok i) ↔ c.extractLsb' 8 56 = 0 ∧ 0x01 ≤ (c.extractLsb' 0 8).toNat ∧ (c.extractLsb' 0 8).toNat ≤ 0x0D)

/-- Command words of each family, written out from rule R86, and words rule R88 makes illegal. -/
def Obligations.SampleWordsDecode : Prop :=
  decode 0x0000000000000001 = .ok .adec ∧ decode 0x0000000000000005 = .ok .pget ∧
  decode 0x0000000000000007 = .ok .einit ∧ decode 0x0000000000000008 = .ok .walk ∧
  decode 0x0000000000000009 = .ok .map ∧ decode 0x000000000000000D = .ok .enable ∧
  decode 0x0000000000000000 = .error .illegalOpcode ∧ decode 0x000000000000000E = .error .illegalOpcode ∧
  decode 0x0000000000000101 = .error .reservedBits

/-! Issue, faults, the halted state. -/

/-- When the environment's next input is a host write to `CMD` of a word that decodes to a command (rule R22), the step is
`exec` of that command, in the state from which that input has been taken; for an `issue` input the step is the command's
acceptance alone. The list of inputs is the model's choice (log entry 7), and so is that one step runs the whole command,
or only accepts it (log entry 8): rule R35 says "A model may execute a command as one atomic step parametrised by the list
of allocator answers it receives". -/
def Obligations.StepRunsTheCommandWritten : Prop :=
  ∀ (s : State) (c : Word) (rest : List Input) (i : Instr), decode c = .ok i →
    (s.inputs = cmdWrite c :: rest → step s = exec i { s with inputs := rest }) ∧
    (s.inputs = .issue c :: rest → step s = accept i { s with inputs := rest })

/-- The other inputs that move the sequencer: one step of the running command, and its run to its end or its wait; with
no input left nothing changes. All three are the model's choices: the two inputs log entry 8, with the step boundaries of
log entry 9 (rule R35 says only what the sequencer holds while a command runs), the idle step log entry 20 (rule R233 says
only that the block is idle between commands). -/
def Obligations.StepMovesTheSequencer : Prop :=
  ∀ (s : State) (rest : List Input),
    (s.inputs = .tick :: rest → step s = tick { s with inputs := rest }) ∧
    (s.inputs = .run :: rest → step s = runOn { s with inputs := rest }) ∧ (s.inputs = [] → step s = .next s)

/-- A word that is no command, written to `CMD` while a command may be issued, records `ILLEGAL_COMMAND` (code 3) with
the word as `FINFO` and its low byte as `FOPC`, and changes nothing else (rule R88, rule R220, rule R224 step 3). That the
checks up to it are one step is the model's choice (log entry 25). -/
def Obligations.IllegalWordIsRecorded : Prop :=
  ∀ (s : State) (c : Word) (rest : List Input), s.Ready → s.inputs = cmdWrite c :: rest →
    (c.extractLsb' 8 56 ≠ 0 ∨ c.extractLsb' 0 8 = 0 ∨ 0x0E ≤ (c.extractLsb' 0 8).toNat) →
    step s = .next (recorded { s with inputs := rest } 3 c c)

/-- While a fault is recorded a host write to `CMD`, of whatever word and at whatever pace, changes nothing but that
the input has been taken; operand writes and register reads go on (rule R222). -/
def Obligations.HaltedBlockIgnoresCommands : Prop :=
  ∀ (s : State) (rest : List Input), s.faulted = true →
    (∀ c, s.inputs = cmdWrite c :: rest ∨ s.inputs = .issue c :: rest → step s = .next { s with inputs := rest }) ∧
    (∀ v, s.inputs = .host ⟨0x08, 8, .write v⟩ :: rest → step s = .next { s with inputs := rest, arg0 := v }) ∧
    (∀ v, s.inputs = .host ⟨0x10, 8, .write v⟩ :: rest → step s = .next { s with inputs := rest, arg1 := v }) ∧
    (∀ v, s.inputs = .host ⟨0x18, 8, .write v⟩ :: rest → step s = .next { s with inputs := rest, arg2 := v }) ∧
    (∀ v, s.inputs = .host ⟨0x20, 8, .write v⟩ :: rest → step s = .next { s with inputs := rest, arg3 := v }) ∧
    (∀ k, k < 32 → s.inputs = .host ⟨8 * k, 8, .read⟩ :: rest →
      step s = .next { s with inputs := rest, hostData := readReg s (hostRegAt (8 * k)) })

/-- Once a fault is recorded, no step but a reset changes `FAULTED`, `FCODE`, `FOPC` or `FINFO` (rule R28, rule R29). The
invariant rules out states in which a command runs although a fault is recorded, which no run reaches. -/
def Obligations.FaultRecordIsSticky : Prop :=
  ∀ s t : State, Inv s → s.faulted = true → s.inputs.head? ≠ some .reset → step s = .next t →
    t.faulted = true ∧ t.fcode = s.fcode ∧ t.fopc = s.fopc ∧ t.finfo = s.finfo

/-- A host write to `CMD` while a command runs records `COMMAND_WHILE_BUSY` (code 5) with the word written (rule R220, rule
R224 step 2), ends the running command, and makes no memory write. That the command ends where the write arrives is the
model's reading (log entries 9 and 23, DEDUCED): rule R223 says "at its next step boundary". In `ALLOC_WAIT` the request is
left behind, which is the model's choice (log entry 26): its answer, if it has come, is used up, and a frame in it has been
handed to the block; else an answer is still to come. -/
def Obligations.WriteWhileBusyFaults : Prop :=
  ∀ (s : State) (c : Word) (rest : List Input), s.faulted = false → s.seq.isSome = true →
    (s.inputs = cmdWrite c :: rest ∨ s.inputs = .issue c :: rest) →
    (awaitsAllocator s = false → step s = .next (recorded { s with inputs := rest } 5 c c)) ∧
    (awaitsAllocator s = true →
      (s.answers = [] → step s = .next (recorded { s with inputs := rest, orphan := true } 5 c c)) ∧
      (∀ as, s.answers = .exhausted :: as → step s = .next (recorded { s with inputs := rest, answers := as } 5 c c)) ∧
      ∀ f as, s.answers = .frame f :: as →
        step s = .next (recorded { s with inputs := rest, answers := as, granted := f :: s.granted } 5 c c))

/-- A command in a phase that does not admit it records `PHASE_VIOLATION` (code 4) with the phase as `FINFO`, and
changes nothing else (rule R87, rule R220, rule R224 step 4). That the checks up to it are one step is the model's choice
(log entry 25). -/
def Obligations.PhaseViolationIsRecorded : Prop :=
  ∀ (s : State) (i : Instr) (p : Phase), s.Ready → neededPhase i = some p → s.phase ≠ p →
    exec i s = .next (recorded s 4 (encode i) (match s.phase with | .uninit => 0 | .populating => 1 | .active => 2))

/-! The decoder and the codec. -/

/-- `ADEC`, command word 0x01: the five fields of `ARG0`, zero-extended, go to `RES0`-`RES4`, in every phase; nothing
else changes (rule R110, rule R111). -/
def Obligations.AdecSplitsTheAddress : Prop :=
  encode .adec = 0x01 ∧ ∀ s : State, s.Ready →
    exec .adec s = .next { s with
      res0 := (s.arg0.extractLsb' 39 9).setWidth 64
      res1 := (s.arg0.extractLsb' 30 9).setWidth 64
      res2 := (s.arg0.extractLsb' 21 9).setWidth 64
      res3 := (s.arg0.extractLsb' 12 9).setWidth 64
      res4 := (s.arg0.extractLsb' 0 12).setWidth 64 }

/-- `PINIT`, `PFRAME` and `PPRES`, command words 0x02 to 0x04: `RES0` is the initialize word of `ARG0`, the frame address in `ARG0`, and bit 0 of
`ARG0`; in every phase; nothing else changes (rule R125, rule R126, rule R127). -/
def Obligations.CodecCommandsComputeAWord : Prop :=
  encode .pinit = 0x02 ∧ encode .pframe = 0x03 ∧ encode .ppres = 0x04 ∧ ∀ s : State, s.Ready →
    exec .pinit s = .next { s with res0 := (s.arg0 &&& 0x000FFFFFFFFFF000) ||| 0x3 } ∧
    exec .pframe s = .next { s with res0 := s.arg0 &&& 0x000FFFFFFFFFF000 } ∧
    exec .ppres s = .next { s with res0 := s.arg0 &&& 1 }

/-- `PGET`, command word 0x05: for a field id 0-13 `RES0` is the field's bits, zero-extended; for any other id
`BAD_OPERAND` (code 7) is recorded with the id; in every phase; nothing else changes (rule R128). -/
def Obligations.PgetReadsAField : Prop :=
  encode .pget = 0x05 ∧ ∀ s : State, s.Ready →
    (∀ lo w, fieldTable[s.arg1.toNat]? = some (lo, w) →
      exec .pget s = .next { s with res0 := (s.arg0.extractLsb' lo w).setWidth 64 }) ∧
    (13 < s.arg1.toNat → exec .pget s = .next (recorded s 7 0x05 s.arg1))

/-- `PSET`, command word 0x06: for a field id 0-13 and a value that fits, `RES0` is `ARG0` with the field replaced by the
value, bit by bit; otherwise `BAD_OPERAND` (code 7) is recorded with the id, or else with the value; in every phase;
nothing else changes (rule R129). -/
def Obligations.PsetWritesAField : Prop :=
  encode .pset = 0x06 ∧ ∀ s : State, s.Ready →
    (∀ lo w, fieldTable[s.arg1.toNat]? = some (lo, w) → s.arg2.toNat < 2 ^ w →
      ∃ r : Word, exec .pset s = .next { s with res0 := r } ∧
        ∀ k < 64, r.getLsbD k = if lo ≤ k ∧ k < lo + w then s.arg2.getLsbD (k - lo) else s.arg0.getLsbD k) ∧
    (13 < s.arg1.toNat → exec .pset s = .next (recorded s 7 0x06 s.arg1)) ∧
    (∀ lo w, fieldTable[s.arg1.toNat]? = some (lo, w) → 2 ^ w ≤ s.arg2.toNat →
      exec .pset s = .next (recorded s 7 0x06 s.arg2))

/-- `EINIT` in POPULATING: with an aligned entry address below 2^52 in `PHYS_MEM`, the eight bytes there become the
initialize word and nothing else changes; an unaligned or too large address is refused with `BAD_OPERAND` (code 7) and
no write; outside `PHYS_MEM` the model stops (rule R50, rule R122, rule R130). -/
def Obligations.EinitWritesOneEntry : Prop :=
  ∀ s : State, s.Populating →
    (s.arg0.toNat % 8 = 0 → s.arg0.toNat < 2 ^ 52 → (∀ k < 8, backed s.cfg (s.arg0.toNat + k) = true) →
      ∃ m, exec .einit s = .next { s with mem := m } ∧
        m.read64 s.arg0.toNat = (s.arg1 &&& 0x000FFFFFFFFFF000) ||| 0x3 ∧
        ∀ a, a < s.arg0.toNat ∨ s.arg0.toNat + 8 ≤ a → m.byte a = s.mem.byte a) ∧
    (s.arg0.toNat % 8 ≠ 0 ∨ 2 ^ 52 ≤ s.arg0.toNat → exec .einit s = .next (recorded s 7 0x07 s.arg0)) ∧
    (s.arg0.toNat % 8 = 0 → s.arg0.toNat < 2 ^ 52 → (∃ k < 8, backed s.cfg (s.arg0.toNat + k) = false) →
      exec .einit s = .fault (.outsidePhysMem s.arg0.toNat))

/-- The entry-encoding law: the frame address of an initialize word is the address rounded down to a page and cut to
52 bits; for an aligned address below 2^52 it is the address (rule R131). -/
def Obligations.FrameOfInitializeWord : Prop :=
  ∀ p : PA,
    frameAddr (initWord p) = p &&& 0x000FFFFFFFFFF000 ∧
    (p.toNat < 2 ^ 52 → frameAddr (initWord p) = p &&& ~~~0xFFF) ∧
    (p.toNat < 2 ^ 52 → p.toNat % 4096 = 0 → frameAddr (initWord p) = p)

/-- An initialize word is present and writable, and every other field of it but `PFN` is 0 (rule R133). -/
def Obligations.InitializeWordFlags : Prop :=
  ∀ p : PA,
    isPresent (initWord p) = true ∧ getField (initWord p) .w = 1 ∧
    ∀ f, f ≠ .p → f ≠ .w → f ≠ .pfn → getField (initWord p) f = 0

/-- Reading a field after writing one: the value where it is the same field, else what was there before (rule R120, rule
R121: every bit outside the field is unchanged). -/
def Obligations.FieldReadAfterWrite : Prop :=
  ∀ (e v : Word) (f f' : EntryField), v.toNat < 2 ^ fieldWidth f →
    getField (setField e f v) f' = if f' = f then v else getField e f'

/-- The round-trip law of the linear-address decoder (rule R112). -/
def Obligations.ComposeAfterSplit : Prop :=
  ∀ a : VA, composeVA (splitVA a) = ⟨a.bits &&& 0x0000FFFFFFFFFFFF⟩

/-! The walker. -/

/-- `WALK` on a present entry: `RES0` is the frame address in the entry, whatever its other bits, and nothing is written
and no frame drawn (rule R151 step 2, rule R152, rule R154). -/
def Obligations.WalkFollowsAPresentEntry : Prop :=
  ∀ s : State, s.Populating → s.arg0.toNat % 4096 = 0 → s.arg0.toNat < 2 ^ 52 → s.arg1.toNat ≤ 511 →
    (∀ k < 8, backed s.cfg (s.arg0.toNat + 8 * s.arg1.toNat + k) = true) →
    (s.mem.read64 (s.arg0.toNat + 8 * s.arg1.toNat)).getLsbD 0 = true →
    exec .walk s = .next { s with res0 := s.mem.read64 (s.arg0.toNat + 8 * s.arg1.toNat) &&& 0x000FFFFFFFFFF000 }

/-- `WALK` on an empty entry, with an aligned frame below 2^52 answered: the frame's 512 entries become 0, then the entry
becomes the frame's initialize word, `ALLOCS` grows by 1 and `RES0` is the frame; every other byte of memory and every
other register is as before (rule R151 steps 3 to 5, rule R152). -/
def Obligations.WalkInstallsATable : Prop :=
  ∀ (s : State) (f : PA) (rest : List AllocAnswer), s.Populating → s.arg0.toNat % 4096 = 0 → s.arg0.toNat < 2 ^ 52 →
    s.arg1.toNat ≤ 511 → s.answers = .frame f :: rest → f.toNat % 4096 = 0 → f.toNat < 2 ^ 52 →
    (∀ k < 8, backed s.cfg (s.arg0.toNat + 8 * s.arg1.toNat + k) = true) →
    (∀ k < 4096, backed s.cfg (f.toNat + k) = true) →
    (s.mem.read64 (s.arg0.toNat + 8 * s.arg1.toNat)).getLsbD 0 = false →
    ∃ m, exec .walk s = .next { s with
        mem := m, res0 := f, allocs := s.allocs + 1, answers := rest, granted := f :: s.granted } ∧
      m.read64 (s.arg0.toNat + 8 * s.arg1.toNat) = f ||| 0x3 ∧
      (∀ k < 512, f.toNat + 8 * k ≠ s.arg0.toNat + 8 * s.arg1.toNat → m.read64 (f.toNat + 8 * k) = 0) ∧
      (∀ a, (a < s.arg0.toNat + 8 * s.arg1.toNat ∨ s.arg0.toNat + 8 * s.arg1.toNat + 8 ≤ a) →
        (a < f.toNat ∨ f.toNat + 4096 ≤ a) → m.byte a = s.mem.byte a)

/-- Where `WALK` faults: `BAD_OPERAND` (code 7) for a bad table, else for a bad index; on an empty entry
`ALLOC_EXHAUSTED` (code 1) with the entry's address when the allocator has no frame, and `ALLOCATOR_CONTRACT` (code 6)
with the frame when it is unaligned or not below 2^52. None of them writes memory, `ALLOCS` or a result (rule R151 step
3, rule R152, rule R220). -/
def Obligations.WalkFaults : Prop :=
  ∀ s : State, s.Populating →
    (s.arg0.toNat % 4096 ≠ 0 ∨ 2 ^ 52 ≤ s.arg0.toNat → exec .walk s = .next (recorded s 7 0x08 s.arg0)) ∧
    (s.arg0.toNat % 4096 = 0 → s.arg0.toNat < 2 ^ 52 → 511 < s.arg1.toNat →
      exec .walk s = .next (recorded s 7 0x08 s.arg1)) ∧
    (∀ rest, s.arg0.toNat % 4096 = 0 → s.arg0.toNat < 2 ^ 52 → s.arg1.toNat ≤ 511 →
      (∀ k < 8, backed s.cfg (s.arg0.toNat + 8 * s.arg1.toNat + k) = true) →
      (s.mem.read64 (s.arg0.toNat + 8 * s.arg1.toNat)).getLsbD 0 = false →
      (s.answers = .exhausted :: rest →
        exec .walk s = .next (recorded { s with answers := rest } 1 0x08 (s.arg0 + 8 * s.arg1))) ∧
      (∀ f, s.answers = .frame f :: rest → f.toNat % 4096 ≠ 0 ∨ 2 ^ 52 ≤ f.toNat →
        exec .walk s = .next (recorded { s with answers := rest, granted := f :: s.granted } 6 0x08 f)))

/-- `WALK` on an empty entry while the allocator has not answered: the command waits with `BUSY` = 1 and nothing else
changed; when the answer arrives and the block goes on, it ends as if the answer had been there at once (rule R153, rule
R229). The premise on `orphan` rules out states that no run reaches: by the invariant a request outlives its command only
once a fault is recorded. -/
def Obligations.WalkWaitsForTheAllocator : Prop :=
  ∀ (s : State) (r : AllocAnswer), s.Populating → s.arg0.toNat % 4096 = 0 → s.arg0.toNat < 2 ^ 52 → s.arg1.toNat ≤ 511 →
    (∀ k < 8, backed s.cfg (s.arg0.toNat + 8 * s.arg1.toNat + k) = true) →
    (s.mem.read64 (s.arg0.toNat + 8 * s.arg1.toNat)).getLsbD 0 = false → s.answers = [] → s.orphan = false →
    ∃ t, exec .walk s = .next t ∧ t.busy = true ∧ t.faulted = false ∧ { t with seq := none } = s ∧
      runOn (answerStep r t) = exec .walk { s with answers := [r] }

/-! The mapper. -/

/-- The walker's states, in a running `WALK`, one step each: `READ_ENTRY` reads the entry and goes to `DONE` or to
`ALLOC_WAIT`; `ALLOC_WAIT` waits, faults, or goes to `ZERO` with the counter at 0; `ZERO` writes one entry of zero for each
value of the counter from 0 to 511, and after the last goes to `INSTALL`; `INSTALL` writes the entry and goes to `DONE` (rule
R151, rule R153). That each of these is one step is the model's reading (log entry 9). -/
def Obligations.WalkerStateMachine : Prop :=
  ∀ (s : State) (a : Args) (t : PA) (j : Word),
    (s.seq = some ⟨.walk, a, .walk ⟨t, j, .readEntry⟩⟩ → (∀ b < 8, backed s.cfg ((t + 8 * j).toNat + b) = true) →
      ((s.mem.read64 (t + 8 * j).toNat).getLsbD 0 = true →
        tick s = .next { s with res0 := s.mem.read64 (t + 8 * j).toNat &&& 0x000FFFFFFFFFF000, seq := none }) ∧
      ((s.mem.read64 (t + 8 * j).toNat).getLsbD 0 = false →
        tick s = .next { s with seq := some ⟨.walk, a, .walk ⟨t, j, .allocWait⟩⟩ })) ∧
    (s.seq = some ⟨.walk, a, .walk ⟨t, j, .allocWait⟩⟩ →
      (s.answers = [] → tick s = .next s) ∧
      (∀ rest, s.answers = .exhausted :: rest →
        tick s = .next (recorded { s with answers := rest } 1 0x08 (t + 8 * j))) ∧
      ∀ f rest, s.answers = .frame f :: rest →
        (f.toNat % 4096 = 0 → f.toNat < 2 ^ 52 → tick s = .next { s with
          answers := rest, granted := f :: s.granted, seq := some ⟨.walk, a, .walk ⟨t, j, .zero f 0⟩⟩ }) ∧
        (f.toNat % 4096 ≠ 0 ∨ 2 ^ 52 ≤ f.toNat →
          tick s = .next (recorded { s with answers := rest, granted := f :: s.granted } 6 0x08 f))) ∧
    (∀ f k, s.seq = some ⟨.walk, a, .walk ⟨t, j, .zero f k⟩⟩ → k ≤ 511 →
      (∀ b < 8, backed s.cfg (f.toNat + 8 * k + b) = true) →
      ∃ m, tick s = .next { s with
          mem := m, seq := some ⟨.walk, a, .walk ⟨t, j, if k = 511 then .install f else .zero f (k + 1)⟩⟩ } ∧
        m.read64 (f.toNat + 8 * k) = 0 ∧
        ∀ x, x < f.toNat + 8 * k ∨ f.toNat + 8 * k + 8 ≤ x → m.byte x = s.mem.byte x) ∧
    ∀ f, s.seq = some ⟨.walk, a, .walk ⟨t, j, .install f⟩⟩ → (∀ b < 8, backed s.cfg ((t + 8 * j).toNat + b) = true) →
      ∃ m, tick s = .next { s with mem := m, allocs := s.allocs + 1, res0 := f, seq := none } ∧
        m.read64 (t + 8 * j).toNat = (f &&& 0x000FFFFFFFFFF000) ||| 0x3 ∧
        ∀ x, x < (t + 8 * j).toNat ∨ (t + 8 * j).toNat + 8 ≤ x → m.byte x = s.mem.byte x

/-- The alignment checks of the mapping commands: an unaligned virtual base is recorded as `MISALIGNED_REGION` (code 2),
else an unaligned physical base, whatever the page count, and nothing else changes; a skipped descriptor is not checked
(rule R170, rule R171, rule R174, rule R190, rule R191). -/
def Obligations.MisalignedRegionIsRecorded : Prop :=
  ∀ s : State, s.Populating →
    (s.arg0.toNat % 4096 ≠ 0 → exec .map s = .next (recorded s 2 0x09 s.arg0)) ∧
    (s.arg0.toNat % 4096 = 0 → s.arg1.toNat % 4096 ≠ 0 → exec .map s = .next (recorded s 2 0x09 s.arg1)) ∧
    (mappedType s.cfg s.arg0 s.arg3 = true → s.arg1.toNat % 4096 ≠ 0 →
      exec .mapdesc s = .next (recorded s 2 0x0A s.arg1)) ∧
    (s.arg0.toNat % 4096 ≠ 0 → exec .mapfb s = .next (recorded s 2 0x0B s.arg0))

/-- `MAPDESC` of a type that is not mapped: `RES0` is 0 and nothing else changes, even if the start is unaligned (rule
R190). -/
def Obligations.OtherDescriptorsAreSkipped : Prop :=
  ∀ s : State, s.Populating → mappedType s.cfg s.arg0 s.arg3 = false → exec .mapdesc s = .next { s with res0 := 0 }

/-- The mapping commands complete, from every state of POPULATING, when their bases are aligned, the allocator answers a
good frame to every request (three for each page suffice), and every access is in `PHYS_MEM`: because every physical
address below 2^52 is, or because the hierarchy is sound and the allocator keeps its promise. They change memory, `ALLOCS`, the allocator's side and the result register the spec names, and nothing else (rule
R171, rule R190, rule R191). -/
def Obligations.MappingCommandsComplete : Prop :=
  ∀ s : State, s.Populating → ((∀ a < 2 ^ 52, backed s.cfg a = true) ∨ (TablesOk s ∧ AllocatorOk s)) →
    (s.arg0.toNat % 4096 = 0 → s.arg1.toNat % 4096 = 0 → framesReady s (3 * s.arg2.toNat) →
      ∃ t, exec .map s = .next t ∧ onlyTables s t) ∧
    (mappedType s.cfg s.arg0 s.arg3 = true → s.arg1.toNat % 4096 = 0 → framesReady s (3 * s.arg2.toNat) →
      ∃ t, exec .mapdesc s = .next t ∧ onlyTables { s with res0 := 1 } t) ∧
    (s.arg0.toNat % 4096 = 0 → framesReady s (3 * ((s.arg1.toNat + 4095) / 4096 + 1)) →
      ∃ t, exec .mapfb s = .next t ∧
        onlyTables { s with res0 := BitVec.ofNat 64 ((s.arg1.toNat + 4095) / 4096 + 1) } t)

/-- `MAP` of one page whose three tables exist, with the entries on its path in `PHYS_MEM` (the root's page always is, log
entry 2): the leaf entry, at the address the three present entries lead to, becomes the initialize word, over whatever
was there; nothing else changes (rule R170, rule R173). -/
def Obligations.MapOverExistingTables : Prop :=
  ∀ (s : State) (pdpt pd pt : PA), s.Populating → s.arg0.toNat % 4096 = 0 → s.arg1.toNat % 4096 = 0 → s.arg2 = 1 →
    (entryOf s.mem (rootBase s.cfg) (s.arg0.extractLsb' 39 9)).getLsbD 0 = true →
    pdpt = entryOf s.mem (rootBase s.cfg) (s.arg0.extractLsb' 39 9) &&& 0x000FFFFFFFFFF000 →
    (entryOf s.mem pdpt (s.arg0.extractLsb' 30 9)).getLsbD 0 = true →
    pd = entryOf s.mem pdpt (s.arg0.extractLsb' 30 9) &&& 0x000FFFFFFFFFF000 →
    (entryOf s.mem pd (s.arg0.extractLsb' 21 9)).getLsbD 0 = true →
    pt = entryOf s.mem pd (s.arg0.extractLsb' 21 9) &&& 0x000FFFFFFFFFF000 →
    (∀ k < 8, backed s.cfg (entryAt pdpt (s.arg0.extractLsb' 30 9) + k) = true ∧
      backed s.cfg (entryAt pd (s.arg0.extractLsb' 21 9) + k) = true ∧
      backed s.cfg (entryAt pt (s.arg0.extractLsb' 12 9) + k) = true) →
    ∃ m, exec .map s = .next { s with mem := m } ∧
      entryOf m pt (s.arg0.extractLsb' 12 9) = (s.arg1 &&& 0x000FFFFFFFFFF000) ||| 0x3 ∧
      ∀ a, a < entryAt pt (s.arg0.extractLsb' 12 9) ∨ entryAt pt (s.arg0.extractLsb' 12 9) + 8 ≤ a →
        m.byte a = s.mem.byte a

/-- `MAP` of one page under an empty PML4 entry: the allocator's three frames become, in order, the PDPT, the PD and the PT
of the page, the leaf entry follows, `ALLOCS` grows by 3, and every byte outside the PML4 entry and the three frames is
as before (rule R170, rule R172, rule R151). -/
def Obligations.MapBuildsThreeTables : Prop :=
  ∀ (s : State) (f g h : PA) (rest : List AllocAnswer), s.Populating → AllocatorOk s →
    s.answers = .frame f :: .frame g :: .frame h :: rest → s.arg0.toNat % 4096 = 0 → s.arg1.toNat % 4096 = 0 →
    s.arg2 = 1 → (entryOf s.mem (rootBase s.cfg) (s.arg0.extractLsb' 39 9)).getLsbD 0 = false →
    ∃ m, exec .map s = .next { s with
        mem := m, allocs := s.allocs + 3, answers := rest, granted := h :: g :: f :: s.granted } ∧
      entryOf m (rootBase s.cfg) (s.arg0.extractLsb' 39 9) = f ||| 0x3 ∧
      (∀ j, entryOf m f j = if j = s.arg0.extractLsb' 30 9 then g ||| 0x3 else 0) ∧
      (∀ j, entryOf m g j = if j = s.arg0.extractLsb' 21 9 then h ||| 0x3 else 0) ∧
      (∀ j, entryOf m h j = if j = s.arg0.extractLsb' 12 9 then (s.arg1 &&& 0x000FFFFFFFFFF000) ||| 0x3 else 0) ∧
      (∀ a, (a < entryAt (rootBase s.cfg) (s.arg0.extractLsb' 39 9) ∨
          entryAt (rootBase s.cfg) (s.arg0.extractLsb' 39 9) + 8 ≤ a) →
        (a < f.toNat ∨ f.toNat + 4096 ≤ a) → (a < g.toNat ∨ g.toNat + 4096 ≤ a) →
        (a < h.toNat ∨ h.toNat + 4096 ≤ a) → m.byte a = s.mem.byte a)

/-- The headline of the mapper: from a sound hierarchy and an allocator that keeps its promise, a `MAP` that completes
leaves a sound hierarchy and an allocator that keeps its promise, in which every address of the region translates as the
last page it lies in says, and every other address as before; every byte outside the PML4 and the frames the allocator gave
is as before (rule R50, rule R170, rule R172, rule R173). -/
def Obligations.MapSetsExactlyItsPages : Prop :=
  ∀ s t : State, s.Populating → TablesOk s → AllocatorOk s → exec .map s = .next t → t.Ready →
    TablesOk t ∧ AllocatorOk t ∧ onlyTables s t ∧ onlyTableBytes s t ∧
      mappedOver (rootBase s.cfg) ⟨s.arg0⟩ s.arg1 s.arg2.toNat s.mem t.mem

/-- The firmware's commands map identity in the same sense: a `MAPDESC` of a mapped type its pages, a `MAPFB` the pages
of `⌈size / 4096⌉ + 1`; every byte outside the PML4 and the frames the allocator gave is as before (rule R50, rule R190,
rule R191). -/
def Obligations.FirmwareRegionsMapIdentity : Prop :=
  ∀ s t : State, s.Populating → TablesOk s → AllocatorOk s → t.Ready →
    (exec .mapdesc s = .next t → mappedType s.cfg s.arg0 s.arg3 = true →
      TablesOk t ∧ AllocatorOk t ∧ onlyTables { s with res0 := 1 } t ∧ onlyTableBytes s t ∧
        mappedOver (rootBase s.cfg) (identityVA s.arg1) s.arg1 s.arg2.toNat s.mem t.mem) ∧
    (exec .mapfb s = .next t →
      TablesOk t ∧ AllocatorOk t ∧ onlyTables { s with res0 := BitVec.ofNat 64 ((s.arg1.toNat + 4095) / 4096 + 1) } t ∧
        onlyTableBytes s t ∧
        mappedOver (rootBase s.cfg) (identityVA s.arg0) s.arg0 ((s.arg1.toNat + 4095) / 4096 + 1) s.mem t.mem)

/-- The identity-mapping law: after `MAPID a, n` and `ENABLE` have completed, every page of the region that is below 2^52
and that no later page of the region shares a leaf entry with translates to itself (rule R175). -/
def Obligations.IdentityRegionTranslatesToItself : Prop :=
  ∀ s t u : State, s.Populating → TablesOk s → AllocatorOk s → s.arg1 = s.arg0 → exec .map s = .next t → t.Ready →
    exec .enable t = .next u → u.phase = .active →
    ∀ i, i < s.arg2.toNat → (regionFrame s.arg0 i).toNat < 2 ^ 52 →
      (∀ i', i < i' → i' < s.arg2.toNat →
        ¬ samePage (regionPage (identityVA s.arg0) i) (regionPage (identityVA s.arg0) i')) →
      ∀ o : Word, o.toNat < 4096 →
        translateVA u.mem (rootBase u.cfg) (identityVA (regionFrame s.arg0 i + o)) = .mapped (regionFrame s.arg0 i + o)

/-- The non-interference law: a `MAP`, `MAPDESC` or `MAPFB` that completes leaves the four entries on the path of every
mapped address outside its region as they were (rule R176). -/
def Obligations.MapLeavesOtherPathsAlone : Prop :=
  ∀ (s t : State) (va : VA) (x : PA), s.Populating → TablesOk s → AllocatorOk s → t.Ready →
    translateVA s.mem (rootBase s.cfg) va = .mapped x →
    (exec .map s = .next t ∧ ¬ covered ⟨s.arg0⟩ s.arg2.toNat va) ∨
      (exec .mapdesc s = .next t ∧
        (mappedType s.cfg s.arg0 s.arg3 = true → ¬ covered (identityVA s.arg1) s.arg2.toNat va)) ∨
      (exec .mapfb s = .next t ∧ ¬ covered (identityVA s.arg0) ((s.arg1.toNat + 4095) / 4096 + 1) va) →
    ∀ a ∈ touchedEntries s.mem (rootBase s.cfg) va, t.mem.read64 a = s.mem.read64 a

/-- Idempotent materialization: a `MAP` of one page installs at most three tables, and a second one that shares its
PML4, PDPT and PD indices completes without installing any (rule R155). -/
def Obligations.SharedPathInstallsNothing : Prop :=
  ∀ (s t : State) (b q : Word), s.Populating → TablesOk s → AllocatorOk s → s.arg2 = 1 → exec .map s = .next t →
    t.Ready → b.toNat % 4096 = 0 → q.toNat % 4096 = 0 → b.extractLsb' 21 27 = s.arg0.extractLsb' 21 27 →
    (∃ k ≤ 3, t.allocs = s.allocs + BitVec.ofNat 64 k ∧ t.granted.length = s.granted.length + k) ∧
    ∃ m, exec .map { t with arg0 := b, arg1 := q, arg2 := 1 } =
      .next { t with arg0 := b, arg1 := q, arg2 := 1, mem := m }

/-- The partial effect of exhaustion: when a mapping command on a sound hierarchy faults for want of a frame, it has
reached some page `i`; the pages before it are mapped, and no other address translates differently; the tables installed
stay, and `ALLOCS` counts them; `FINFO` is the address of the entry that was to be installed, the last one on the walk of
page `i`; nothing else has changed (rule R151 step 3, rule R174, rule R220, rule R221, rule R223). -/
def Obligations.ExhaustedMapKeepsEarlierPages : Prop :=
  ∀ s t : State, s.Populating → TablesOk s → AllocatorOk s → t.faulted = true →
    (s.arg0.toNat % 4096 = 0 → s.arg1.toNat % 4096 = 0 → exec .map s = .next t →
      regionExhausted s t 0x09 ⟨s.arg0⟩ s.arg1 s.arg2.toNat) ∧
    (s.arg1.toNat % 4096 = 0 → exec .mapdesc s = .next t →
      regionExhausted s t 0x0A (identityVA s.arg1) s.arg1 s.arg2.toNat) ∧
    (s.arg0.toNat % 4096 = 0 → exec .mapfb s = .next t →
      regionExhausted s t 0x0B (identityVA s.arg0) s.arg0 ((s.arg1.toNat + 4095) / 4096 + 1))

/-- The partial effect of a bad frame: when a mapping command on a sound hierarchy faults otherwise, the allocator has
answered a frame that is unaligned or not below 2^52, which is `FINFO`; the same holds of the pages, the tables, `ALLOCS`
and the rest, and the frame is not used: no byte from it on is written that is not the root's, or of a frame taken before
(rule R151 step 3, rule R174, rule R220, rule R221, rule R223). -/
def Obligations.BadFrameKeepsEarlierPages : Prop :=
  ∀ s t : State, s.Populating → TablesOk s → AllocatorFresh s → t.faulted = true → t.fcode ≠ 1 →
    (s.arg0.toNat % 4096 = 0 → s.arg1.toNat % 4096 = 0 → exec .map s = .next t →
      regionBadFrame s t 0x09 ⟨s.arg0⟩ s.arg1 s.arg2.toNat) ∧
    (s.arg1.toNat % 4096 = 0 → exec .mapdesc s = .next t →
      regionBadFrame s t 0x0A (identityVA s.arg1) s.arg1 s.arg2.toNat) ∧
    (s.arg0.toNat % 4096 = 0 → exec .mapfb s = .next t →
      regionBadFrame s t 0x0B (identityVA s.arg0) s.arg0 ((s.arg1.toNat + 4095) / 4096 + 1))

/-! The root and activation. -/

/-- `ROOTZ` in UNINIT: the 512 entries of the root become 0, the phase becomes POPULATING, and nothing else changes (rule
R26, rule R192). -/
def Obligations.RootzZeroesTheRoot : Prop :=
  ∀ s : State, s.Ready → s.phase = .uninit →
    ∃ m, exec .rootz s = .next { s with mem := m, phase := .populating } ∧
      (∀ k < 512, m.read64 ((rootBase s.cfg).toNat + 8 * k) = 0) ∧
      (∀ a, a < (rootBase s.cfg).toNat ∨ (rootBase s.cfg).toNat + 4096 ≤ a → m.byte a = s.mem.byte a)

/-- After `ROOTZ` the hierarchy is sound and no virtual address is mapped: every walk ends at the PML4 (rule R192, rule
R195). -/
def Obligations.RootzMapsNothing : Prop :=
  ∀ s t : State, s.Ready → exec .rootz s = .next t → t.Ready →
    TablesOk t ∧ ∀ va, translateVA t.mem (rootBase t.cfg) va = .notMapped .pml4

/-- `ENABLE` in POPULATING: the paging-control register and `CR3OUT` become `ROOT_BASE`, with bits 11:0 and 63:52 zero,
the phase becomes ACTIVE, and nothing else changes (rule R92, rule R193). -/
def Obligations.EnableLoadsTheRoot : Prop :=
  ∀ s : State, s.Populating →
    exec .enable s = .next { s with pagingReg := rootBase s.cfg, cr3out := rootBase s.cfg, phase := .active } ∧
    (rootBase s.cfg).extractLsb' 12 40 = s.cfg.rootFrame ∧ (rootBase s.cfg).extractLsb' 0 12 = 0 ∧
    (rootBase s.cfg).extractLsb' 52 12 = 0

/-- The post-activation contract: a run from UNINIT through `ROOTZ`, mapping commands that all complete, and `ENABLE`
leaves tables in which exactly the addresses in a mapped page translate; every other address ends its walk at an entry
that is not present (rule R195). -/
def Obligations.PostActivationContract : Prop :=
  ∀ (s t u w : State) (rs : List (VA × Nat)), s.Ready → s.phase = .uninit → AllocatorOk s → exec .rootz s = .next t →
    Populates t rs u → exec .enable u = .next w → w.phase = .active →
    ∀ va, ((∃ r ∈ rs, covered r.1 r.2 va) → ∃ x, translateVA w.mem (rootBase w.cfg) va = .mapped x) ∧
      ((∀ r ∈ rs, ¬ covered r.1 r.2 va) → ∃ l, translateVA w.mem (rootBase w.cfg) va = .notMapped l)

/-! The whole machine. -/

/-- The machine after reset, and after a reset at any time: every register of rule R21 is 0, the phase is UNINIT, no
command runs and no request to the allocator is outstanding, `ROOT` reads `ROOT_BASE` (rule R250); memory stays (rule
R251). That the CPU's paging-control register stays at every reset, also after `ENABLE`, is the model's deduction (log
entry 18): rule R251 says that it "is not the block's". -/
def Obligations.ResetValues : Prop :=
  (∀ r, r ≠ .root → readReg State.reset r = 0) ∧ State.reset.seq = none ∧ State.reset.phase = .uninit ∧
  ∀ (s t : State) (rest : List Input), s.inputs = .reset :: rest → step s = .next t →
    (∀ r, r ≠ .root → readReg t r = 0) ∧ readReg t .root = rootBase s.cfg ∧ t.seq = none ∧
      awaitsAllocator t = false ∧ t.orphan = false ∧ t.phase = .uninit ∧ t.mem = s.mem ∧ t.pagingReg = s.pagingReg

/-- The invariant holds right after reset. -/
def Obligations.InvariantAtReset : Prop := Inv State.reset

/-- Every step keeps the invariant, from every state that has it. -/
def Obligations.StepKeepsInvariant : Prop :=
  ∀ s t : State, Inv s → step s = .next t → Inv t

/-- The only transitions of `PHASE` (rule R26): UNINIT to POPULATING when `ROOTZ`, just written or running, completes;
POPULATING to ACTIVE when `ENABLE` does; any to UNINIT at reset. So no fault changes it and no command leaves ACTIVE.
The invariant rules out running commands in a phase that does not admit them. -/
def Obligations.PhaseTransitions : Prop :=
  ∀ s t : State, Inv s → step s = .next t → t.phase ≠ s.phase →
    (s.phase = .uninit ∧ t.phase = .populating ∧ t.faulted = false ∧ t.seq = none ∧
      (s.inputs.head? = some (cmdWrite 0x0C) ∨ ∃ j, s.seq = some j ∧ j.instr = .rootz)) ∨
    (s.phase = .populating ∧ t.phase = .active ∧ t.faulted = false ∧ t.seq = none ∧
      (s.inputs.head? = some (cmdWrite 0x0D) ∨ ∃ j, s.seq = some j ∧ j.instr = .enable)) ∨
    (s.inputs.head? = some .reset ∧ t.phase = .uninit)

/-- The paging-control register changes only when the phase becomes ACTIVE, and then to `ROOT_BASE`; so at most once
between two resets (rule R230). -/
def Obligations.PagingRegisterWrittenOnlyByEnable : Prop :=
  ∀ s t : State, Inv s → step s = .next t → t.pagingReg ≠ s.pagingReg →
    s.phase = .populating ∧ t.phase = .active ∧ t.pagingReg = rootBase s.cfg

/-- No command writes memory in ACTIVE, whatever it is and however it is run (rule R258). -/
def Obligations.ActiveFreezesTheTables : Prop :=
  ∀ s t : State, Inv s → s.phase = .active →
    (∀ i, exec i s = .next t → t.mem = s.mem ∧ t.allocs = s.allocs) ∧
    (tick s = .next t → t.mem = s.mem ∧ t.allocs = s.allocs) ∧ (runOn s = .next t → t.mem = s.mem ∧ t.allocs = s.allocs)

/-- The block never writes `ARG0`-`ARG3`; a command that faults or waits writes no result register (rule R24, rule R38). -/
def Obligations.FaultedCommandWritesNoResult : Prop :=
  ∀ (s t : State) (i : Instr), exec i s = .next t →
    t.arg0 = s.arg0 ∧ t.arg1 = s.arg1 ∧ t.arg2 = s.arg2 ∧ t.arg3 = s.arg3 ∧
    (t.faulted = true ∨ t.busy = true → t.res0 = s.res0 ∧ t.res1 = s.res1 ∧ t.res2 = s.res2 ∧ t.res3 = s.res3 ∧
      t.res4 = s.res4)

/-- `ALLOCS` counts the tables installed: however a command ends, with its completion, a fault or a wait for the
allocator, it has added one for every frame the allocator gave it, but for a frame it turned away with
`ALLOCATOR_CONTRACT` (code 6); and only `WALK` and the mapping commands add any (rule R30, rule R151). -/
def Obligations.AllocsCountsInstalledTables : Prop :=
  ∀ (s t : State) (i : Instr), s.Ready → exec i s = .next t →
    ∃ fs : List PA, t.allocs = s.allocs + BitVec.ofNat 64 fs.length ∧
      t.granted = (if t.faulted = true ∧ t.fcode = 6 then [t.finfo] else []) ++ fs ++ s.granted ∧
      (fs ≠ [] → i = .walk ∨ i = .map ∨ i = .mapdesc ∨ i = .mapfb)

/-- One step of the running command and then the rest of it end as the rest of it would have: the atomic reading of a
command is exact at every step boundary (rule R35). With it, accepting a command and running it on is executing it. -/
def Obligations.StepByStepEqualsAtomic : Prop :=
  (∀ s t : State, tick s = .next t → runOn t = runOn s) ∧
  (∀ (s t : State) (i : Instr), s.Ready → accept i s = .next t → runOn t = exec i s)

/-- A host write to `ARG0`-`ARG3` while a command runs does not reach it: the command ends the same, but for the operand
register written (rule R23). -/
def Obligations.OperandWritesDoNotReachARunningCommand : Prop :=
  ∀ (s t : State) (v0 v1 v2 v3 : Word), s.seq.isSome = true → runOn s = .next t →
    runOn { s with arg0 := v0, arg1 := v1, arg2 := v2, arg3 := v3 } =
      .next { t with arg0 := v0, arg1 := v1, arg2 := v2, arg3 := v3 }

/-- The register window, in every state: a read returns the register at its offset, 0 for `CMD` and the reserved offsets,
`ROOT_BASE` for `ROOT`; a write to `ARG0`-`ARG3` stores the value; a write to a read-only register or a reserved offset
changes nothing; any access that is not an aligned 64-bit one at 0x00-0xFF is refused (rule R21, rule R31, rule R33,
rule R34). -/
def Obligations.RegisterWindow : Prop :=
  ∀ (s : State) (a : HostAccess) (rest : List Input), s.inputs = .host a :: rest →
    ((a.width ≠ 8 ∨ a.offset % 8 ≠ 0 ∨ 0x100 ≤ a.offset) → step s = .refused (.hostAccess a.offset a.width)) ∧
    (∀ o v, (o, v) ∈ [(0x00, 0#64), (0x08, s.arg0), (0x10, s.arg1), (0x18, s.arg2), (0x20, s.arg3), (0x28, s.res0),
        (0x30, s.res1), (0x38, s.res2), (0x40, s.res3), (0x48, s.res4), (0x50, s.statusWord), (0x58, s.finfo),
        (0x60, s.allocs), (0x68, rootBase s.cfg), (0x70, s.cr3out)] →
      a = ⟨o, 8, .read⟩ → step s = .next { s with inputs := rest, hostData := v }) ∧
    (a.op = .read → a.width = 8 → a.offset % 8 = 0 → 0x78 ≤ a.offset → a.offset < 0x100 →
      step s = .next { s with inputs := rest, hostData := 0 }) ∧
    (∀ v, a = ⟨0x08, 8, .write v⟩ → step s = .next { s with inputs := rest, arg0 := v }) ∧
    (∀ v, a = ⟨0x10, 8, .write v⟩ → step s = .next { s with inputs := rest, arg1 := v }) ∧
    (∀ v, a = ⟨0x18, 8, .write v⟩ → step s = .next { s with inputs := rest, arg2 := v }) ∧
    (∀ v, a = ⟨0x20, 8, .write v⟩ → step s = .next { s with inputs := rest, arg3 := v }) ∧
    (∀ v, a.op = .write v → a.width = 8 → a.offset % 8 = 0 → 0x28 ≤ a.offset → a.offset < 0x100 →
      step s = .next { s with inputs := rest })

/-- The fields of `STATUS` (rule R25). -/
def Obligations.StatusFields : Prop :=
  ∀ s : State,
    (s.statusWord.extractLsb' 0 2).toNat = (match s.phase with | .uninit => 0 | .populating => 1 | .active => 2) ∧
    s.statusWord.getLsbD 2 = s.seq.isSome ∧ s.statusWord.getLsbD 3 = s.faulted ∧ s.statusWord.extractLsb' 4 4 = 0 ∧
    s.statusWord.extractLsb' 8 4 = s.fcode ∧ s.statusWord.extractLsb' 12 4 = 0 ∧
    s.statusWord.extractLsb' 16 8 = s.fopc ∧ s.statusWord.extractLsb' 24 40 = 0

/-- An answer of the allocator is taken while a request of the block is outstanding and has no answer yet, and ignored when
no request is outstanding; a late answer to a request left behind changes nothing but that a frame in it counts as handed
to the block; at a reset the outstanding request's answer is dropped with it. Rule R250 says so of a request abandoned at
reset only; the rest is the model's choice (log entries 10 and 26), as is that the other answers stay (log entry 18). -/
def Obligations.AnswersWithoutRequestAreIgnored : Prop :=
  ∀ (s : State) (rest : List Input),
    (∀ r, s.inputs = .answer r :: rest → s.orphan = false →
      (awaitsAllocator s = false → step s = .next { s with inputs := rest }) ∧
      (awaitsAllocator s = true → s.answers = [] → step s = .next { s with inputs := rest, answers := [r] })) ∧
    (s.orphan = true →
      (s.inputs = .answer .exhausted :: rest → step s = .next { s with inputs := rest, orphan := false }) ∧
      ∀ f, s.inputs = .answer (.frame f) :: rest →
        step s = .next { s with inputs := rest, orphan := false, granted := f :: s.granted }) ∧
    (s.inputs = .reset :: rest → ∃ t, step s = .next t ∧ t.orphan = false ∧
      t.answers = if awaitsAllocator s = true then s.answers.tail else s.answers)

/-- The duties of the environment in POPULATING, as the model treats a run that breaks one (rule R64, rule R254): a store of
another agent to table memory, and a host read of table memory while a command runs, are refused (U8), and so is a CPU
walk of the block's tables (log entry 13). Table memory is the root's page and the frames handed to the block since reset,
the one just answered among them. Model's choices, too: any other store of an agent inside the 64-bit space is performed,
and any other read returns the bytes, without a `PHYS_MEM` check (log entry 14); in UNINIT a CPU walk is refused while the
paging-control register does not hold the root (log entry 13). -/
def Obligations.EnvironmentDutiesAreRefused : Prop :=
  ∀ (s : State) (a : Nat) (rest : List Input),
    (tableByte s a = true ↔ a / 4096 = s.cfg.rootFrame.toNat ∨
      ∃ f : PA, (f ∈ s.granted ∨ (awaitsAllocator s = true ∧ s.answers.head? = some (.frame f))) ∧
        f.toNat ≤ a ∧ a < f.toNat + 4096) ∧
    (∀ bytes : List Byte, a + bytes.length ≤ 2 ^ 64 → s.inputs = .agentStore a bytes :: rest →
      (s.phase = .populating → (∃ k < bytes.length, tableByte s (a + k) = true) →
        step s = .refused (.tableMemoryShared a)) ∧
      (s.phase ≠ .populating ∨ (∀ k < bytes.length, tableByte s (a + k) = false) →
        ∃ m, step s = .next { s with inputs := rest, mem := m } ∧
          (∀ (k : Nat) (h : k < bytes.length), m.byte (a + k) = bytes[k]) ∧
          ∀ b, b < a ∨ a + bytes.length ≤ b → m.byte b = s.mem.byte b)) ∧
    (a + 8 ≤ 2 ^ 64 → s.inputs = .agentLoad a :: rest →
      (s.phase = .populating → s.seq.isSome = true → (∃ k < 8, tableByte s (a + k) = true) →
        step s = .refused (.tableMemoryShared a)) ∧
      (s.phase ≠ .populating ∨ s.seq = none ∨ (∀ k < 8, tableByte s (a + k) = false) →
        step s = .next { s with inputs := rest, hostData := s.mem.read64 a })) ∧
    (∀ va writes setA setD, s.inputs = .cpuTouch va writes setA setD :: rest →
      (s.phase = .populating → step s = .refused (.walkBeforeEnable va)) ∧
      (s.phase = .uninit → s.pagingReg ≠ rootBase s.cfg → step s = .refused (.rootNotLoaded va)))

/-- What has become table memory stays it until a reset: no other step takes a byte out of it, so a frame that the allocator
has handed to the block is protected even when the command that asked for it has ended (rule R64, rule R254 (a)). Of a
command that `COMMAND_WHILE_BUSY` ends in `ALLOC_WAIT` it rests on the model's choice (log entry 26). -/
def Obligations.TableMemoryOnlyGrows : Prop :=
  ∀ s t : State, Inv s → step s = .next t → s.inputs.head? ≠ some .reset →
    ∀ a, tableByte s a = true → tableByte t a = true

/-- The host sequences of written commands and pseudo-commands: the operands in increasing register order, the command
word, the wait; `MAPID`, `MAPFW` and `SETUP` in terms of them (rule R89, rule R90, rule R194). -/
def Obligations.PseudoCommandsExpand : Prop :=
  (∀ a n, pseudoInputs (.mapid a n) = [.host ⟨0x08, 8, .write a⟩, .host ⟨0x10, 8, .write a⟩,
    .host ⟨0x18, 8, .write n⟩, .host ⟨0x00, 8, .write 0x09⟩, .wait]) ∧
  (∀ d : Descriptor, pseudoInputs (.mapfw [d]) = [.host ⟨0x08, 8, .write d.type⟩, .host ⟨0x10, 8, .write d.start⟩,
    .host ⟨0x18, 8, .write d.pages⟩, .host ⟨0x20, 8, .write d.attr⟩, .host ⟨0x00, 8, .write 0x0A⟩, .wait]) ∧
  (∀ ds ds', pseudoInputs (.mapfw (ds ++ ds')) = pseudoInputs (.mapfw ds) ++ pseudoInputs (.mapfw ds')) ∧
  ∀ ds fb, pseudoInputs (.setup ds fb) = [.host ⟨0x00, 8, .write 0x0C⟩, .wait] ++ pseudoInputs (.mapfw ds) ++
    [.host ⟨0x08, 8, .write fb.base⟩, .host ⟨0x10, 8, .write fb.size⟩, .host ⟨0x00, 8, .write 0x0B⟩, .wait] ++
    [.host ⟨0x00, 8, .write 0x0D⟩, .wait]

/-- A poll of `WAIT` returns `STATUS` to the host, and while a command runs the host polls again (rule R90: "repeat"). That
the sequencer goes one step on for each poll is the model's choice (log entry 19). -/
def Obligations.WaitPollsStatus : Prop :=
  ∀ (s : State) (rest : List Input), s.inputs = .wait :: rest →
    (s.seq = none → step s = .next { s with inputs := rest, hostData := s.statusWord }) ∧
    (s.seq.isSome = true → step s = tick { s with inputs := .wait :: rest, hostData := s.statusWord })

/-! The CPU's side. -/

/-- Two virtual addresses equal in bits 47:0 reach the same entries and translate alike (rule R51). -/
def Obligations.SignBitsDoNotMatter : Prop :=
  ∀ (m : Memory) (r : PA) (va va' : VA), va.bits.extractLsb' 0 48 = va'.bits.extractLsb' 0 48 →
    touchedEntries m r va = touchedEntries m r va' ∧ translateVA m r va = translateVA m r va'

/-- Once translation is active, a CPU access to an address that is not mapped is a fault that never reaches a final state,
and is not recorded in the block (rule R227). -/
def Obligations.UnmappedAccessFaults : Prop :=
  ∀ (s : State) (va : VA) (l : Level) (writes : Bool) (setA : BitVec 4) (setD : Bool) (rest : List Input),
    s.phase = .active → s.inputs = .cpuTouch va writes setA setD :: rest →
    translateVA s.mem (rootBase s.cfg) va = .notMapped l → step s = .fault (.unmappedAccess va l)

/-- The CPU's accessed and dirty updates change no translation, whichever of them it makes (rule R61, rule R70). -/
def Obligations.CpuUpdatesKeepTranslations : Prop :=
  ∀ (s t : State) (va va' : VA) (writes : Bool) (setA : BitVec 4) (setD : Bool) (rest : List Input),
    s.inputs = .cpuTouch va writes setA setD :: rest → step s = .next t →
    translateVA t.mem (rootBase t.cfg) va' = translateVA s.mem (rootBase s.cfg) va'

/-- What a CPU walk of a mapped address writes: in the entries on its path bit 5 where `setA` asks for it, in the leaf entry
of a page that is written bit 6 when `setD` asks for it, and no other bit of them; every other byte of memory, and every
register, is as before. `setA` and `setD` are free: rule R70 says that the walk may set these bits. The walk in UNINIT
after an earlier `ENABLE` is the model's reading (log entry 13). -/
def Obligations.CpuWalkSetsAccessedAndDirty : Prop :=
  ∀ (s : State) (va : VA) (x : PA) (writes : Bool) (setA : BitVec 4) (setD : Bool) (rest : List Input),
    s.CpuWalks → s.inputs = .cpuTouch va writes setA setD :: rest →
    translateVA s.mem (rootBase s.cfg) va = .mapped x →
    ∃ m, step s = .next { s with inputs := rest, mem := m } ∧
      (touchedEntries s.mem (rootBase s.cfg) va).length = 4 ∧
      (∀ e ∈ touchedEntries s.mem (rootBase s.cfg) va, ∀ b < 64, (m.read64 e).getLsbD b = true ↔
        (s.mem.read64 e).getLsbD b = true ∨
        (b = 5 ∧ ∃ k < 4, (touchedEntries s.mem (rootBase s.cfg) va)[k]? = some e ∧ setA.getLsbD (3 - k) = true) ∨
        (b = 6 ∧ writes = true ∧ setD = true ∧ (touchedEntries s.mem (rootBase s.cfg) va)[3]? = some e)) ∧
      ∀ a, (∀ e ∈ touchedEntries s.mem (rootBase s.cfg) va, a < e ∨ e + 8 ≤ a) → m.byte a = s.mem.byte a
end

