-- ==== Sys2Proof/Laws/Memory.lean ====
section
/-! SUPPORT. The laws of memory: what a read finds after a store, that every store keeps the canonical form, that
equal memories are equal lists, and that the bulk store of zeros is the loop of rule R151 step 4. -/

namespace Sys2Proof.Laws
open Sys2Proof.Machine

/-! The cells of consecutive bytes. -/

theorem cellsAt_bounds {a : Nat} {bs : List Byte} {c : Host.Cell} (h : c ∈ cellsAt a bs) :
    a ≤ c.1 ∧ c.1 < a + bs.length := by
  induction bs generalizing a with
  | nil => simp [cellsAt] at h
  | cons b bs ih =>
    simp only [cellsAt, List.mem_cons] at h
    rcases h with rfl | h
    · simp
    · have := ih h; simp only [List.length_cons]; omega

theorem cellsAt_rising (a : Nat) (bs : List Byte) : (cellsAt a bs).Pairwise (fun x y => x.1 < y.1) := by
  induction bs generalizing a with
  | nil => simp [cellsAt]
  | cons b bs ih =>
    refine List.Pairwise.cons (fun c hc => ?_) (ih (a + 1))
    have := cellsAt_bounds hc
    simp only; omega

theorem byte?_cellsAt (a : Nat) (bs : List Byte) (x : Nat) :
    Memory.byte? (cellsAt a bs) x = if a ≤ x then bs[x - a]? else none := by
  induction bs generalizing a with
  | nil => simp [cellsAt, Memory.byte?]
  | cons b bs ih =>
    simp only [cellsAt, Memory.byte?, ih]
    by_cases hx : a = x
    · simp [hx]
    · by_cases hle : a ≤ x
      · have e : x - a = (x - (a + 1)) + 1 := by omega
        rw [if_neg hx, if_pos hle, if_pos (by omega), e, List.getElem?_cons_succ]
      · rw [if_neg hx, if_neg hle, if_neg (by omega)]

theorem byte?_append (m m' : Memory) (x : Nat) :
    Memory.byte? (m ++ m') x = (Memory.byte? m x).or (Memory.byte? m' x) := by
  induction m with
  | nil => simp [Memory.byte?]
  | cons c m ih =>
    by_cases h : c.1 = x <;> simp [Memory.byte?, h, ih]

theorem byte?_filter (p : Nat → Bool) (m : Memory) (x : Nat) :
    Memory.byte? (m.filter fun c => p c.1) x = if p x then Memory.byte? m x else none := by
  induction m with
  | nil => simp [Memory.byte?]
  | cons c m ih =>
    by_cases hp : p c.1 <;> by_cases hx : c.1 = x
    · subst hx; simp [hp, Memory.byte?]
    · rw [List.filter_cons_of_pos (by simpa using hp)]
      simp only [Memory.byte?, if_neg hx, ih]
    · subst hx; rw [List.filter_cons_of_neg (by simpa using hp), ih]; simp [hp]
    · rw [List.filter_cons_of_neg (by simpa using hp), ih]; simp only [Memory.byte?, if_neg hx]

/-! Stores of bytes. -/

theorem byte?_writeBytes (m : Memory) (a : Nat) (bs : List Byte) (x : Nat) :
    (m.writeBytes a bs).byte? x = if a ≤ x ∧ x < a + bs.length then bs[x - a]? else m.byte? x := by
  unfold Memory.writeBytes
  rw [byte?_append, byte?_append, byte?_filter (fun k => decide (k < a)),
    byte?_filter (fun k => decide (a + bs.length ≤ k)), byte?_cellsAt]
  by_cases h1 : x < a
  · have h2 : ¬ a ≤ x := by omega
    have h3 : ¬ a + bs.length ≤ x := by omega
    simp [h1, h2, h3]
  · by_cases h2 : x < a + bs.length
    · have h3 : ¬ a + bs.length ≤ x := by omega
      have h4 : a ≤ x := by omega
      simp [h1, h2, h3, h4]
    · have h4 : a ≤ x := by omega
      have h5 : bs[x - a]? = none := List.getElem?_eq_none (by omega)
      have h6 : a + bs.length ≤ x := by omega
      simp [h1, h2, h4, h5, h6]

/-- A store leaves every other byte alone. -/
theorem byte_writeBytes_other {m : Memory} {a : Nat} {bs : List Byte} {x : Nat} (h : x < a ∨ a + bs.length ≤ x) :
    (m.writeBytes a bs).byte x = m.byte x := by
  unfold Memory.byte
  rw [byte?_writeBytes, if_neg (by omega)]

/-- A read after a store finds the byte stored. -/
theorem byte_writeBytes_same {m : Memory} {a : Nat} {bs : List Byte} {k : Nat} (h : k < bs.length) :
    (m.writeBytes a bs).byte (a + k) = bs[k] := by
  unfold Memory.byte
  rw [byte?_writeBytes, if_pos (by omega)]
  have e : a + k - a = k := by omega
  rw [e, List.getElem?_eq_getElem h]
  rfl

/-- A store of bytes inside the address space keeps the canonical form. -/
theorem wf_writeBytes {m : Memory} (hm : m.wf) {a : Nat} {bs : List Byte} (h : a + bs.length ≤ 2 ^ 64) :
    (m.writeBytes a bs).wf := by
  refine ⟨?_, ?_⟩
  · unfold Memory.writeBytes
    rw [List.pairwise_append, List.pairwise_append]
    refine ⟨⟨hm.1.filter _, cellsAt_rising a bs, ?_⟩, hm.1.filter _, ?_⟩
    · intro x hx y hy
      have hx := (List.mem_filter.1 hx).2
      have hy := cellsAt_bounds hy
      simp only [decide_eq_true_eq] at hx
      omega
    · intro x hx y hy
      have hy := (List.mem_filter.1 hy).2
      simp only [decide_eq_true_eq] at hy
      rcases List.mem_append.1 hx with hx | hx
      · have hx := (List.mem_filter.1 hx).2
        simp only [decide_eq_true_eq] at hx
        omega
      · have hx := cellsAt_bounds hx
        omega
  · intro c hc
    unfold Memory.writeBytes at hc
    rcases List.mem_append.1 hc with hc | hc
    · rcases List.mem_append.1 hc with hc | hc
      · exact hm.2 c (List.mem_filter.1 hc).1
      · have := cellsAt_bounds hc; omega
    · exact hm.2 c (List.mem_filter.1 hc).1

/-! Eight-byte accesses. -/

theorem length_bytesOf (v : Word) : (bytesOf v).length = 8 := rfl

theorem wf_write64 {m : Memory} (hm : m.wf) {a : Nat} (v : Word) (h : a + 8 ≤ 2 ^ 64) : (m.write64 a v).wf :=
  wf_writeBytes hm h

/-- The eight bytes of a value, put together again, are the value. -/
theorem bytes_reassemble (v : Word) :
    (v.extractLsb' 56 8 ++ v.extractLsb' 48 8 ++ v.extractLsb' 40 8 ++ v.extractLsb' 32 8 ++ v.extractLsb' 24 8 ++
      v.extractLsb' 16 8 ++ v.extractLsb' 8 8 ++ v.extractLsb' 0 8 : BitVec 64) = v := by
  ext i hi
  simp only [BitVec.getElem_append, BitVec.getElem_extractLsb']
  repeat' split
  all_goals (rw [← BitVec.getLsbD_eq_getElem]; congr 1; omega)

theorem read64_write64_same (m : Memory) (a : Nat) (v : Word) : (m.write64 a v).read64 a = v := by
  have hb (k : Nat) (h : k < 8) : (m.write64 a v).byte (a + k) = (bytesOf v)[k]'(by simpa [length_bytesOf] using h) :=
    byte_writeBytes_same (by simpa [length_bytesOf] using h)
  have h0 : (m.write64 a v).byte a = (bytesOf v)[0]'(by simp [length_bytesOf]) := hb 0 (by omega)
  unfold Memory.read64
  rw [hb 7 (by omega), hb 6 (by omega), hb 5 (by omega), hb 4 (by omega), hb 3 (by omega), hb 2 (by omega),
    hb 1 (by omega), h0]
  exact bytes_reassemble v

theorem byte_write64_other {m : Memory} {a : Nat} {v : Word} {x : Nat} (h : x < a ∨ a + 8 ≤ x) :
    (m.write64 a v).byte x = m.byte x :=
  byte_writeBytes_other h

/-- Reading eight bytes depends on those eight bytes only. -/
theorem read64_congr {m m' : Memory} {a : Nat} (h : ∀ k < 8, m'.byte (a + k) = m.byte (a + k)) :
    m'.read64 a = m.read64 a := by
  have h0 : m'.byte a = m.byte a := h 0 (by omega)
  unfold Memory.read64
  rw [h 7 (by omega), h 6 (by omega), h 5 (by omega), h 4 (by omega), h 3 (by omega), h 2 (by omega), h 1 (by omega), h0]

theorem read64_write64_other {m : Memory} {a b : Nat} {v : Word} (h : b + 8 ≤ a ∨ a + 8 ≤ b) :
    (m.write64 a v).read64 b = m.read64 b :=
  read64_congr fun _ _ => byte_write64_other (by omega)

/-! The bulk store of zeros. -/

theorem byte_zeroEntries_other {m : Memory} {a n x : Nat} (h : x < a ∨ a + 8 * n ≤ x) :
    (m.zeroEntries a n).byte x = m.byte x := by
  unfold Memory.zeroEntries
  split
  · rfl
  · exact byte_writeBytes_other (by simpa using h)

theorem byte_zeroEntries_same {m : Memory} {a n x : Nat} (h : a ≤ x ∧ x < a + 8 * n) :
    (m.zeroEntries a n).byte x = 0 := by
  unfold Memory.zeroEntries
  rw [if_neg (by omega)]
  have e : x = a + (x - a) := by omega
  have hk : x - a < (List.replicate (8 * n) (0 : Byte)).length := by simp; omega
  rw [e, byte_writeBytes_same hk, List.getElem_replicate]

theorem read64_zeroEntries_same {m : Memory} {a n x : Nat} (h : a ≤ x ∧ x + 8 ≤ a + 8 * n) :
    (m.zeroEntries a n).read64 x = 0 := by
  have hb : ∀ k < 8, (m.zeroEntries a n).byte (x + k) = 0 := fun k hk => byte_zeroEntries_same (by omega)
  have h0 : (m.zeroEntries a n).byte x = 0 := hb 0 (by omega)
  unfold Memory.read64
  rw [hb 7 (by omega), hb 6 (by omega), hb 5 (by omega), hb 4 (by omega), hb 3 (by omega), hb 2 (by omega),
    hb 1 (by omega), h0]
  decide

theorem read64_zeroEntries_other {m : Memory} {a n x : Nat} (h : x + 8 ≤ a ∨ a + 8 * n ≤ x) :
    (m.zeroEntries a n).read64 x = m.read64 x :=
  read64_congr fun _ _ => byte_zeroEntries_other (by omega)

theorem wf_zeroEntries {m : Memory} (hm : m.wf) {a n : Nat} (h : a + 8 * n ≤ 2 ^ 64) : (m.zeroEntries a n).wf := by
  unfold Memory.zeroEntries
  split
  · exact hm
  · exact wf_writeBytes hm (by simpa using h)

theorem cellsAt_append (a : Nat) (bs bs' : List Byte) :
    cellsAt a (bs ++ bs') = cellsAt a bs ++ cellsAt (a + bs.length) bs' := by
  induction bs generalizing a with
  | nil => simp [cellsAt]
  | cons b bs ih =>
    have e : a + 1 + bs.length = a + (bs.length + 1) := by omega
    simp [cellsAt, ih, e]

/-- Two stores, one right after the other, are one store. -/
theorem writeBytes_append (m : Memory) (a : Nat) (bs bs' : List Byte) :
    (m.writeBytes a bs).writeBytes (a + bs.length) bs' = m.writeBytes a (bs ++ bs') := by
  unfold Memory.writeBytes
  have f1 : (m.filter fun c => decide (c.1 < a)).filter (fun c => decide (c.1 < a + bs.length)) =
      m.filter fun c => decide (c.1 < a) := by
    rw [List.filter_filter]
    refine List.filter_congr fun c _ => ?_
    by_cases h : c.1 < a
    · simp [h]; omega
    · simp [h]
  have f2 : (cellsAt a bs).filter (fun c => decide (c.1 < a + bs.length)) = cellsAt a bs :=
    List.filter_eq_self.2 fun c hc => by have := cellsAt_bounds hc; simp; omega
  have f3 : (m.filter fun c => decide (a + bs.length ≤ c.1)).filter (fun c => decide (c.1 < a + bs.length)) = [] := by
    rw [List.filter_filter, List.filter_eq_nil_iff]
    intro c _; simp
  have g1 : (m.filter fun c => decide (c.1 < a)).filter (fun c => decide (a + bs.length + bs'.length ≤ c.1)) = [] := by
    rw [List.filter_filter, List.filter_eq_nil_iff]
    intro c _; simp; omega
  have g2 : (cellsAt a bs).filter (fun c => decide (a + bs.length + bs'.length ≤ c.1)) = [] := by
    rw [List.filter_eq_nil_iff]
    intro c hc; have := cellsAt_bounds hc; simp; omega
  have g3 : (m.filter fun c => decide (a + bs.length ≤ c.1)).filter
      (fun c => decide (a + bs.length + bs'.length ≤ c.1)) =
      m.filter fun c => decide (a + (bs ++ bs').length ≤ c.1) := by
    rw [List.filter_filter]
    refine List.filter_congr fun c _ => ?_
    have e : a + (bs ++ bs').length = a + bs.length + bs'.length := by rw [List.length_append]; omega
    rw [e]
    by_cases h : a + bs.length + bs'.length ≤ c.1
    · simp [h]
      omega
    · simp [h]
  simp only [List.filter_append, f1, f2, f3, g1, g2, g3, cellsAt_append, List.append_nil, List.nil_append,
    List.append_assoc]

/-- The bulk store of zeros is the loop that stores 0 to one entry after another (rule R151 step 4, rule R192). -/
theorem zeroEntries_succ (m : Memory) (a n : Nat) :
    m.zeroEntries a (n + 1) = (m.zeroEntries a 1).zeroEntries (a + 8) n := by
  unfold Memory.zeroEntries
  by_cases h : n = 0
  · simp [h]
  · rw [if_neg (Nat.succ_ne_zero n), if_neg h, if_neg Nat.one_ne_zero]
    have e := writeBytes_append m a (List.replicate (8 * 1) 0) (List.replicate (8 * n) 0)
    rw [List.length_replicate] at e
    rw [e, List.replicate_append_replicate]
    congr 2; omega

/-- One step of that loop is `MemWrite(a, 8, 0)`. -/
theorem zeroEntries_one (m : Memory) (a : Nat) : m.zeroEntries a 1 = m.write64 a 0 := by
  have e : List.replicate (8 * 1) (0 : Byte) = bytesOf 0 := by decide
  unfold Memory.zeroEntries Memory.write64
  rw [if_neg (by decide), e]

/-! Equal memories are equal lists. -/

theorem byte?_eq_none_of_lt {m : Memory} {a : Nat} (h : ∀ c ∈ m, a < c.1) : m.byte? a = none := by
  induction m with
  | nil => rfl
  | cons c m ih =>
    have hc := h c (by simp)
    simp only [Memory.byte?, if_neg (show ¬ c.1 = a by omega)]
    exact ih fun d hd => h d (by simp [hd])

/-- Two memories in canonical form that answer the same at every address are the same list. -/
theorem memory_ext {m m' : Memory} (hm : m.wf) (hm' : m'.wf) (h : ∀ a, m.byte? a = m'.byte? a) : m = m' := by
  replace hm := hm.1
  replace hm' := hm'.1
  induction m generalizing m' with
  | nil =>
    cases m' with
    | nil => rfl
    | cons c' m' => have := h c'.1; simp [Memory.byte?] at this
  | cons c m ih =>
    cases m' with
    | nil => have := h c.1; simp [Memory.byte?] at this
    | cons c' m' =>
      obtain ⟨h1, h2⟩ := List.pairwise_cons.1 hm
      obtain ⟨h1', h2'⟩ := List.pairwise_cons.1 hm'
      have e1 : c.1 = c'.1 := by
        by_contra hne
        rcases Nat.lt_or_gt_of_ne hne with hlt | hgt
        · have := h c.1
          have hn : Memory.byte? m' c.1 = none := byte?_eq_none_of_lt fun d hd => by have := h1' d hd; omega
          simp only [Memory.byte?, if_true, if_neg (show ¬ c'.1 = c.1 by omega), hn] at this
          cases this
        · have := h c'.1
          have hn : Memory.byte? m c'.1 = none := byte?_eq_none_of_lt fun d hd => by have := h1 d hd; omega
          simp only [Memory.byte?, if_true, if_neg (show ¬ c.1 = c'.1 by omega), hn] at this
          cases this
      have e2 : c.2 = c'.2 := by
        have := h c.1
        simpa [Memory.byte?, e1] using this
      have e3 : m = m' := by
        refine ih (m' := m') (fun a => ?_) h2 h2'
        by_cases ha : a = c.1
        · subst ha
          rw [byte?_eq_none_of_lt h1, byte?_eq_none_of_lt fun d hd => by have := h1' d hd; omega]
        · have := h a
          simpa [Memory.byte?, show ¬ c.1 = a from fun e => ha e.symm, show ¬ c'.1 = a by omega] using this
      obtain ⟨k, v⟩ := c
      obtain ⟨k', v'⟩ := c'
      simp only at e1 e2
      rw [e1, e2, e3]

end Sys2Proof.Laws
end

