-- ==== Sys2Proof/Laws/State.lean ====
section
/-! SUPPORT. What each shared update of the state leaves in each field, one lemma per field, so that no later proof
unfolds a record update. -/

namespace Sys2Proof.Machine

/-! `raise` (rule R221) -/

@[simp] theorem State.raise_arg0 (s : State) (c : Word) (f : Cause) (info : Word) : (s.raise c f info).arg0 = s.arg0 := rfl
@[simp] theorem State.raise_arg1 (s : State) (c : Word) (f : Cause) (info : Word) : (s.raise c f info).arg1 = s.arg1 := rfl
@[simp] theorem State.raise_arg2 (s : State) (c : Word) (f : Cause) (info : Word) : (s.raise c f info).arg2 = s.arg2 := rfl
@[simp] theorem State.raise_arg3 (s : State) (c : Word) (f : Cause) (info : Word) : (s.raise c f info).arg3 = s.arg3 := rfl
@[simp] theorem State.raise_res0 (s : State) (c : Word) (f : Cause) (info : Word) : (s.raise c f info).res0 = s.res0 := rfl
@[simp] theorem State.raise_res1 (s : State) (c : Word) (f : Cause) (info : Word) : (s.raise c f info).res1 = s.res1 := rfl
@[simp] theorem State.raise_res2 (s : State) (c : Word) (f : Cause) (info : Word) : (s.raise c f info).res2 = s.res2 := rfl
@[simp] theorem State.raise_res3 (s : State) (c : Word) (f : Cause) (info : Word) : (s.raise c f info).res3 = s.res3 := rfl
@[simp] theorem State.raise_res4 (s : State) (c : Word) (f : Cause) (info : Word) : (s.raise c f info).res4 = s.res4 := rfl
@[simp] theorem State.raise_phase (s : State) (c : Word) (f : Cause) (info : Word) : (s.raise c f info).phase = s.phase := rfl
@[simp] theorem State.raise_faulted (s : State) (c : Word) (f : Cause) (info : Word) : (s.raise c f info).faulted = true := rfl
@[simp] theorem State.raise_fcode (s : State) (c : Word) (f : Cause) (info : Word) : (s.raise c f info).fcode = f.code := rfl
@[simp] theorem State.raise_fopc (s : State) (c : Word) (f : Cause) (info : Word) : (s.raise c f info).fopc = c.extractLsb' 0 8 := rfl
@[simp] theorem State.raise_finfo (s : State) (c : Word) (f : Cause) (info : Word) : (s.raise c f info).finfo = info := rfl
@[simp] theorem State.raise_allocs (s : State) (c : Word) (f : Cause) (info : Word) : (s.raise c f info).allocs = s.allocs := rfl
@[simp] theorem State.raise_cr3out (s : State) (c : Word) (f : Cause) (info : Word) : (s.raise c f info).cr3out = s.cr3out := rfl
@[simp] theorem State.raise_seq (s : State) (c : Word) (f : Cause) (info : Word) : (s.raise c f info).seq = none := rfl
@[simp] theorem State.raise_mem (s : State) (c : Word) (f : Cause) (info : Word) : (s.raise c f info).mem = s.mem := rfl
@[simp] theorem State.raise_pagingReg (s : State) (c : Word) (f : Cause) (info : Word) : (s.raise c f info).pagingReg = s.pagingReg := rfl
@[simp] theorem State.raise_granted (s : State) (c : Word) (f : Cause) (info : Word) : (s.raise c f info).granted = s.granted := rfl
@[simp] theorem State.raise_answers (s : State) (c : Word) (f : Cause) (info : Word) : (s.raise c f info).answers = s.answers := rfl
@[simp] theorem State.raise_orphan (s : State) (c : Word) (f : Cause) (info : Word) : (s.raise c f info).orphan = s.orphan := rfl
@[simp] theorem State.raise_inputs (s : State) (c : Word) (f : Cause) (info : Word) : (s.raise c f info).inputs = s.inputs := rfl
@[simp] theorem State.raise_hostData (s : State) (c : Word) (f : Cause) (info : Word) : (s.raise c f info).hostData = s.hostData := rfl
@[simp] theorem State.raise_cfg (s : State) (c : Word) (f : Cause) (info : Word) : (s.raise c f info).cfg = s.cfg := rfl

/-! `raiseHere` (rule R221) -/

@[simp] theorem State.raiseHere_arg0 (s : State) (f : Cause) (info : Word) : (s.raiseHere f info).arg0 = s.arg0 := rfl
@[simp] theorem State.raiseHere_arg1 (s : State) (f : Cause) (info : Word) : (s.raiseHere f info).arg1 = s.arg1 := rfl
@[simp] theorem State.raiseHere_arg2 (s : State) (f : Cause) (info : Word) : (s.raiseHere f info).arg2 = s.arg2 := rfl
@[simp] theorem State.raiseHere_arg3 (s : State) (f : Cause) (info : Word) : (s.raiseHere f info).arg3 = s.arg3 := rfl
@[simp] theorem State.raiseHere_res0 (s : State) (f : Cause) (info : Word) : (s.raiseHere f info).res0 = s.res0 := rfl
@[simp] theorem State.raiseHere_res1 (s : State) (f : Cause) (info : Word) : (s.raiseHere f info).res1 = s.res1 := rfl
@[simp] theorem State.raiseHere_res2 (s : State) (f : Cause) (info : Word) : (s.raiseHere f info).res2 = s.res2 := rfl
@[simp] theorem State.raiseHere_res3 (s : State) (f : Cause) (info : Word) : (s.raiseHere f info).res3 = s.res3 := rfl
@[simp] theorem State.raiseHere_res4 (s : State) (f : Cause) (info : Word) : (s.raiseHere f info).res4 = s.res4 := rfl
@[simp] theorem State.raiseHere_phase (s : State) (f : Cause) (info : Word) : (s.raiseHere f info).phase = s.phase := rfl
@[simp] theorem State.raiseHere_faulted (s : State) (f : Cause) (info : Word) : (s.raiseHere f info).faulted = true := rfl
@[simp] theorem State.raiseHere_fcode (s : State) (f : Cause) (info : Word) : (s.raiseHere f info).fcode = f.code := rfl
@[simp] theorem State.raiseHere_fopc (s : State) (f : Cause) (info : Word) : (s.raiseHere f info).fopc = s.latchedWord.extractLsb' 0 8 := rfl
@[simp] theorem State.raiseHere_finfo (s : State) (f : Cause) (info : Word) : (s.raiseHere f info).finfo = info := rfl
@[simp] theorem State.raiseHere_allocs (s : State) (f : Cause) (info : Word) : (s.raiseHere f info).allocs = s.allocs := rfl
@[simp] theorem State.raiseHere_cr3out (s : State) (f : Cause) (info : Word) : (s.raiseHere f info).cr3out = s.cr3out := rfl
@[simp] theorem State.raiseHere_seq (s : State) (f : Cause) (info : Word) : (s.raiseHere f info).seq = none := rfl
@[simp] theorem State.raiseHere_mem (s : State) (f : Cause) (info : Word) : (s.raiseHere f info).mem = s.mem := rfl
@[simp] theorem State.raiseHere_pagingReg (s : State) (f : Cause) (info : Word) : (s.raiseHere f info).pagingReg = s.pagingReg := rfl
@[simp] theorem State.raiseHere_granted (s : State) (f : Cause) (info : Word) : (s.raiseHere f info).granted = s.granted := rfl
@[simp] theorem State.raiseHere_answers (s : State) (f : Cause) (info : Word) : (s.raiseHere f info).answers = s.answers := rfl
@[simp] theorem State.raiseHere_orphan (s : State) (f : Cause) (info : Word) : (s.raiseHere f info).orphan = s.orphan := rfl
@[simp] theorem State.raiseHere_inputs (s : State) (f : Cause) (info : Word) : (s.raiseHere f info).inputs = s.inputs := rfl
@[simp] theorem State.raiseHere_hostData (s : State) (f : Cause) (info : Word) : (s.raiseHere f info).hostData = s.hostData := rfl
@[simp] theorem State.raiseHere_cfg (s : State) (f : Cause) (info : Word) : (s.raiseHere f info).cfg = s.cfg := rfl

/-! `complete` (rule R27) -/

@[simp] theorem State.complete_arg0 (s : State) : s.complete.arg0 = s.arg0 := rfl
@[simp] theorem State.complete_arg1 (s : State) : s.complete.arg1 = s.arg1 := rfl
@[simp] theorem State.complete_arg2 (s : State) : s.complete.arg2 = s.arg2 := rfl
@[simp] theorem State.complete_arg3 (s : State) : s.complete.arg3 = s.arg3 := rfl
@[simp] theorem State.complete_res0 (s : State) : s.complete.res0 = s.res0 := rfl
@[simp] theorem State.complete_res1 (s : State) : s.complete.res1 = s.res1 := rfl
@[simp] theorem State.complete_res2 (s : State) : s.complete.res2 = s.res2 := rfl
@[simp] theorem State.complete_res3 (s : State) : s.complete.res3 = s.res3 := rfl
@[simp] theorem State.complete_res4 (s : State) : s.complete.res4 = s.res4 := rfl
@[simp] theorem State.complete_phase (s : State) : s.complete.phase = s.phase := rfl
@[simp] theorem State.complete_faulted (s : State) : s.complete.faulted = s.faulted := rfl
@[simp] theorem State.complete_fcode (s : State) : s.complete.fcode = s.fcode := rfl
@[simp] theorem State.complete_fopc (s : State) : s.complete.fopc = s.fopc := rfl
@[simp] theorem State.complete_finfo (s : State) : s.complete.finfo = s.finfo := rfl
@[simp] theorem State.complete_allocs (s : State) : s.complete.allocs = s.allocs := rfl
@[simp] theorem State.complete_cr3out (s : State) : s.complete.cr3out = s.cr3out := rfl
@[simp] theorem State.complete_seq (s : State) : s.complete.seq = none := rfl
@[simp] theorem State.complete_mem (s : State) : s.complete.mem = s.mem := rfl
@[simp] theorem State.complete_pagingReg (s : State) : s.complete.pagingReg = s.pagingReg := rfl
@[simp] theorem State.complete_granted (s : State) : s.complete.granted = s.granted := rfl
@[simp] theorem State.complete_answers (s : State) : s.complete.answers = s.answers := rfl
@[simp] theorem State.complete_orphan (s : State) : s.complete.orphan = s.orphan := rfl
@[simp] theorem State.complete_inputs (s : State) : s.complete.inputs = s.inputs := rfl
@[simp] theorem State.complete_hostData (s : State) : s.complete.hostData = s.hostData := rfl
@[simp] theorem State.complete_cfg (s : State) : s.complete.cfg = s.cfg := rfl

/-! `suspend` (rule R35) -/

@[simp] theorem State.suspend_arg0 (s : State) (t : Task) : (s.suspend t).arg0 = s.arg0 := rfl
@[simp] theorem State.suspend_arg1 (s : State) (t : Task) : (s.suspend t).arg1 = s.arg1 := rfl
@[simp] theorem State.suspend_arg2 (s : State) (t : Task) : (s.suspend t).arg2 = s.arg2 := rfl
@[simp] theorem State.suspend_arg3 (s : State) (t : Task) : (s.suspend t).arg3 = s.arg3 := rfl
@[simp] theorem State.suspend_res0 (s : State) (t : Task) : (s.suspend t).res0 = s.res0 := rfl
@[simp] theorem State.suspend_res1 (s : State) (t : Task) : (s.suspend t).res1 = s.res1 := rfl
@[simp] theorem State.suspend_res2 (s : State) (t : Task) : (s.suspend t).res2 = s.res2 := rfl
@[simp] theorem State.suspend_res3 (s : State) (t : Task) : (s.suspend t).res3 = s.res3 := rfl
@[simp] theorem State.suspend_res4 (s : State) (t : Task) : (s.suspend t).res4 = s.res4 := rfl
@[simp] theorem State.suspend_phase (s : State) (t : Task) : (s.suspend t).phase = s.phase := rfl
@[simp] theorem State.suspend_faulted (s : State) (t : Task) : (s.suspend t).faulted = s.faulted := rfl
@[simp] theorem State.suspend_fcode (s : State) (t : Task) : (s.suspend t).fcode = s.fcode := rfl
@[simp] theorem State.suspend_fopc (s : State) (t : Task) : (s.suspend t).fopc = s.fopc := rfl
@[simp] theorem State.suspend_finfo (s : State) (t : Task) : (s.suspend t).finfo = s.finfo := rfl
@[simp] theorem State.suspend_allocs (s : State) (t : Task) : (s.suspend t).allocs = s.allocs := rfl
@[simp] theorem State.suspend_cr3out (s : State) (t : Task) : (s.suspend t).cr3out = s.cr3out := rfl
@[simp] theorem State.suspend_seq (s : State) (t : Task) : (s.suspend t).seq = s.seq.map fun j => { j with task := t } := rfl
@[simp] theorem State.suspend_mem (s : State) (t : Task) : (s.suspend t).mem = s.mem := rfl
@[simp] theorem State.suspend_pagingReg (s : State) (t : Task) : (s.suspend t).pagingReg = s.pagingReg := rfl
@[simp] theorem State.suspend_granted (s : State) (t : Task) : (s.suspend t).granted = s.granted := rfl
@[simp] theorem State.suspend_answers (s : State) (t : Task) : (s.suspend t).answers = s.answers := rfl
@[simp] theorem State.suspend_orphan (s : State) (t : Task) : (s.suspend t).orphan = s.orphan := rfl
@[simp] theorem State.suspend_inputs (s : State) (t : Task) : (s.suspend t).inputs = s.inputs := rfl
@[simp] theorem State.suspend_hostData (s : State) (t : Task) : (s.suspend t).hostData = s.hostData := rfl
@[simp] theorem State.suspend_cfg (s : State) (t : Task) : (s.suspend t).cfg = s.cfg := rfl

/-! `writeCr3` (rule R230) -/

@[simp] theorem writeCr3_arg0 (s : State) (v : Word) : (writeCr3 s v).arg0 = s.arg0 := rfl
@[simp] theorem writeCr3_arg1 (s : State) (v : Word) : (writeCr3 s v).arg1 = s.arg1 := rfl
@[simp] theorem writeCr3_arg2 (s : State) (v : Word) : (writeCr3 s v).arg2 = s.arg2 := rfl
@[simp] theorem writeCr3_arg3 (s : State) (v : Word) : (writeCr3 s v).arg3 = s.arg3 := rfl
@[simp] theorem writeCr3_res0 (s : State) (v : Word) : (writeCr3 s v).res0 = s.res0 := rfl
@[simp] theorem writeCr3_res1 (s : State) (v : Word) : (writeCr3 s v).res1 = s.res1 := rfl
@[simp] theorem writeCr3_res2 (s : State) (v : Word) : (writeCr3 s v).res2 = s.res2 := rfl
@[simp] theorem writeCr3_res3 (s : State) (v : Word) : (writeCr3 s v).res3 = s.res3 := rfl
@[simp] theorem writeCr3_res4 (s : State) (v : Word) : (writeCr3 s v).res4 = s.res4 := rfl
@[simp] theorem writeCr3_phase (s : State) (v : Word) : (writeCr3 s v).phase = s.phase := rfl
@[simp] theorem writeCr3_faulted (s : State) (v : Word) : (writeCr3 s v).faulted = s.faulted := rfl
@[simp] theorem writeCr3_fcode (s : State) (v : Word) : (writeCr3 s v).fcode = s.fcode := rfl
@[simp] theorem writeCr3_fopc (s : State) (v : Word) : (writeCr3 s v).fopc = s.fopc := rfl
@[simp] theorem writeCr3_finfo (s : State) (v : Word) : (writeCr3 s v).finfo = s.finfo := rfl
@[simp] theorem writeCr3_allocs (s : State) (v : Word) : (writeCr3 s v).allocs = s.allocs := rfl
@[simp] theorem writeCr3_cr3out (s : State) (v : Word) : (writeCr3 s v).cr3out = v := rfl
@[simp] theorem writeCr3_seq (s : State) (v : Word) : (writeCr3 s v).seq = s.seq := rfl
@[simp] theorem writeCr3_mem (s : State) (v : Word) : (writeCr3 s v).mem = s.mem := rfl
@[simp] theorem writeCr3_pagingReg (s : State) (v : Word) : (writeCr3 s v).pagingReg = v := rfl
@[simp] theorem writeCr3_granted (s : State) (v : Word) : (writeCr3 s v).granted = s.granted := rfl
@[simp] theorem writeCr3_answers (s : State) (v : Word) : (writeCr3 s v).answers = s.answers := rfl
@[simp] theorem writeCr3_orphan (s : State) (v : Word) : (writeCr3 s v).orphan = s.orphan := rfl
@[simp] theorem writeCr3_inputs (s : State) (v : Word) : (writeCr3 s v).inputs = s.inputs := rfl
@[simp] theorem writeCr3_hostData (s : State) (v : Word) : (writeCr3 s v).hostData = s.hostData := rfl
@[simp] theorem writeCr3_cfg (s : State) (v : Word) : (writeCr3 s v).cfg = s.cfg := rfl

/-! `setMem` -/

@[simp] theorem State.setMem_arg0 (s : State) (m : Memory) : (s.setMem m).arg0 = s.arg0 := rfl
@[simp] theorem State.setMem_arg1 (s : State) (m : Memory) : (s.setMem m).arg1 = s.arg1 := rfl
@[simp] theorem State.setMem_arg2 (s : State) (m : Memory) : (s.setMem m).arg2 = s.arg2 := rfl
@[simp] theorem State.setMem_arg3 (s : State) (m : Memory) : (s.setMem m).arg3 = s.arg3 := rfl
@[simp] theorem State.setMem_res0 (s : State) (m : Memory) : (s.setMem m).res0 = s.res0 := rfl
@[simp] theorem State.setMem_res1 (s : State) (m : Memory) : (s.setMem m).res1 = s.res1 := rfl
@[simp] theorem State.setMem_res2 (s : State) (m : Memory) : (s.setMem m).res2 = s.res2 := rfl
@[simp] theorem State.setMem_res3 (s : State) (m : Memory) : (s.setMem m).res3 = s.res3 := rfl
@[simp] theorem State.setMem_res4 (s : State) (m : Memory) : (s.setMem m).res4 = s.res4 := rfl
@[simp] theorem State.setMem_phase (s : State) (m : Memory) : (s.setMem m).phase = s.phase := rfl
@[simp] theorem State.setMem_faulted (s : State) (m : Memory) : (s.setMem m).faulted = s.faulted := rfl
@[simp] theorem State.setMem_fcode (s : State) (m : Memory) : (s.setMem m).fcode = s.fcode := rfl
@[simp] theorem State.setMem_fopc (s : State) (m : Memory) : (s.setMem m).fopc = s.fopc := rfl
@[simp] theorem State.setMem_finfo (s : State) (m : Memory) : (s.setMem m).finfo = s.finfo := rfl
@[simp] theorem State.setMem_allocs (s : State) (m : Memory) : (s.setMem m).allocs = s.allocs := rfl
@[simp] theorem State.setMem_cr3out (s : State) (m : Memory) : (s.setMem m).cr3out = s.cr3out := rfl
@[simp] theorem State.setMem_seq (s : State) (m : Memory) : (s.setMem m).seq = s.seq := rfl
@[simp] theorem State.setMem_mem (s : State) (m : Memory) : (s.setMem m).mem = m := rfl
@[simp] theorem State.setMem_pagingReg (s : State) (m : Memory) : (s.setMem m).pagingReg = s.pagingReg := rfl
@[simp] theorem State.setMem_granted (s : State) (m : Memory) : (s.setMem m).granted = s.granted := rfl
@[simp] theorem State.setMem_answers (s : State) (m : Memory) : (s.setMem m).answers = s.answers := rfl
@[simp] theorem State.setMem_orphan (s : State) (m : Memory) : (s.setMem m).orphan = s.orphan := rfl
@[simp] theorem State.setMem_inputs (s : State) (m : Memory) : (s.setMem m).inputs = s.inputs := rfl
@[simp] theorem State.setMem_hostData (s : State) (m : Memory) : (s.setMem m).hostData = s.hostData := rfl
@[simp] theorem State.setMem_cfg (s : State) (m : Memory) : (s.setMem m).cfg = s.cfg := rfl

/-! `setRes0` -/

@[simp] theorem State.setRes0_arg0 (s : State) (v : Word) : (s.setRes0 v).arg0 = s.arg0 := rfl
@[simp] theorem State.setRes0_arg1 (s : State) (v : Word) : (s.setRes0 v).arg1 = s.arg1 := rfl
@[simp] theorem State.setRes0_arg2 (s : State) (v : Word) : (s.setRes0 v).arg2 = s.arg2 := rfl
@[simp] theorem State.setRes0_arg3 (s : State) (v : Word) : (s.setRes0 v).arg3 = s.arg3 := rfl
@[simp] theorem State.setRes0_res0 (s : State) (v : Word) : (s.setRes0 v).res0 = v := rfl
@[simp] theorem State.setRes0_res1 (s : State) (v : Word) : (s.setRes0 v).res1 = s.res1 := rfl
@[simp] theorem State.setRes0_res2 (s : State) (v : Word) : (s.setRes0 v).res2 = s.res2 := rfl
@[simp] theorem State.setRes0_res3 (s : State) (v : Word) : (s.setRes0 v).res3 = s.res3 := rfl
@[simp] theorem State.setRes0_res4 (s : State) (v : Word) : (s.setRes0 v).res4 = s.res4 := rfl
@[simp] theorem State.setRes0_phase (s : State) (v : Word) : (s.setRes0 v).phase = s.phase := rfl
@[simp] theorem State.setRes0_faulted (s : State) (v : Word) : (s.setRes0 v).faulted = s.faulted := rfl
@[simp] theorem State.setRes0_fcode (s : State) (v : Word) : (s.setRes0 v).fcode = s.fcode := rfl
@[simp] theorem State.setRes0_fopc (s : State) (v : Word) : (s.setRes0 v).fopc = s.fopc := rfl
@[simp] theorem State.setRes0_finfo (s : State) (v : Word) : (s.setRes0 v).finfo = s.finfo := rfl
@[simp] theorem State.setRes0_allocs (s : State) (v : Word) : (s.setRes0 v).allocs = s.allocs := rfl
@[simp] theorem State.setRes0_cr3out (s : State) (v : Word) : (s.setRes0 v).cr3out = s.cr3out := rfl
@[simp] theorem State.setRes0_seq (s : State) (v : Word) : (s.setRes0 v).seq = s.seq := rfl
@[simp] theorem State.setRes0_mem (s : State) (v : Word) : (s.setRes0 v).mem = s.mem := rfl
@[simp] theorem State.setRes0_pagingReg (s : State) (v : Word) : (s.setRes0 v).pagingReg = s.pagingReg := rfl
@[simp] theorem State.setRes0_granted (s : State) (v : Word) : (s.setRes0 v).granted = s.granted := rfl
@[simp] theorem State.setRes0_answers (s : State) (v : Word) : (s.setRes0 v).answers = s.answers := rfl
@[simp] theorem State.setRes0_orphan (s : State) (v : Word) : (s.setRes0 v).orphan = s.orphan := rfl
@[simp] theorem State.setRes0_inputs (s : State) (v : Word) : (s.setRes0 v).inputs = s.inputs := rfl
@[simp] theorem State.setRes0_hostData (s : State) (v : Word) : (s.setRes0 v).hostData = s.hostData := rfl
@[simp] theorem State.setRes0_cfg (s : State) (v : Word) : (s.setRes0 v).cfg = s.cfg := rfl

/-! `countTable` (rule R30) -/

@[simp] theorem State.countTable_arg0 (s : State) : s.countTable.arg0 = s.arg0 := rfl
@[simp] theorem State.countTable_arg1 (s : State) : s.countTable.arg1 = s.arg1 := rfl
@[simp] theorem State.countTable_arg2 (s : State) : s.countTable.arg2 = s.arg2 := rfl
@[simp] theorem State.countTable_arg3 (s : State) : s.countTable.arg3 = s.arg3 := rfl
@[simp] theorem State.countTable_res0 (s : State) : s.countTable.res0 = s.res0 := rfl
@[simp] theorem State.countTable_res1 (s : State) : s.countTable.res1 = s.res1 := rfl
@[simp] theorem State.countTable_res2 (s : State) : s.countTable.res2 = s.res2 := rfl
@[simp] theorem State.countTable_res3 (s : State) : s.countTable.res3 = s.res3 := rfl
@[simp] theorem State.countTable_res4 (s : State) : s.countTable.res4 = s.res4 := rfl
@[simp] theorem State.countTable_phase (s : State) : s.countTable.phase = s.phase := rfl
@[simp] theorem State.countTable_faulted (s : State) : s.countTable.faulted = s.faulted := rfl
@[simp] theorem State.countTable_fcode (s : State) : s.countTable.fcode = s.fcode := rfl
@[simp] theorem State.countTable_fopc (s : State) : s.countTable.fopc = s.fopc := rfl
@[simp] theorem State.countTable_finfo (s : State) : s.countTable.finfo = s.finfo := rfl
@[simp] theorem State.countTable_allocs (s : State) : s.countTable.allocs = s.allocs + 1 := rfl
@[simp] theorem State.countTable_cr3out (s : State) : s.countTable.cr3out = s.cr3out := rfl
@[simp] theorem State.countTable_seq (s : State) : s.countTable.seq = s.seq := rfl
@[simp] theorem State.countTable_mem (s : State) : s.countTable.mem = s.mem := rfl
@[simp] theorem State.countTable_pagingReg (s : State) : s.countTable.pagingReg = s.pagingReg := rfl
@[simp] theorem State.countTable_granted (s : State) : s.countTable.granted = s.granted := rfl
@[simp] theorem State.countTable_answers (s : State) : s.countTable.answers = s.answers := rfl
@[simp] theorem State.countTable_orphan (s : State) : s.countTable.orphan = s.orphan := rfl
@[simp] theorem State.countTable_inputs (s : State) : s.countTable.inputs = s.inputs := rfl
@[simp] theorem State.countTable_hostData (s : State) : s.countTable.hostData = s.hostData := rfl
@[simp] theorem State.countTable_cfg (s : State) : s.countTable.cfg = s.cfg := rfl

/-! `takeAnswer` (rule R229) -/

@[simp] theorem State.takeAnswer_arg0 (s : State) (r : AllocAnswer) (rest : List AllocAnswer) : (s.takeAnswer r rest).arg0 = s.arg0 := rfl
@[simp] theorem State.takeAnswer_arg1 (s : State) (r : AllocAnswer) (rest : List AllocAnswer) : (s.takeAnswer r rest).arg1 = s.arg1 := rfl
@[simp] theorem State.takeAnswer_arg2 (s : State) (r : AllocAnswer) (rest : List AllocAnswer) : (s.takeAnswer r rest).arg2 = s.arg2 := rfl
@[simp] theorem State.takeAnswer_arg3 (s : State) (r : AllocAnswer) (rest : List AllocAnswer) : (s.takeAnswer r rest).arg3 = s.arg3 := rfl
@[simp] theorem State.takeAnswer_res0 (s : State) (r : AllocAnswer) (rest : List AllocAnswer) : (s.takeAnswer r rest).res0 = s.res0 := rfl
@[simp] theorem State.takeAnswer_res1 (s : State) (r : AllocAnswer) (rest : List AllocAnswer) : (s.takeAnswer r rest).res1 = s.res1 := rfl
@[simp] theorem State.takeAnswer_res2 (s : State) (r : AllocAnswer) (rest : List AllocAnswer) : (s.takeAnswer r rest).res2 = s.res2 := rfl
@[simp] theorem State.takeAnswer_res3 (s : State) (r : AllocAnswer) (rest : List AllocAnswer) : (s.takeAnswer r rest).res3 = s.res3 := rfl
@[simp] theorem State.takeAnswer_res4 (s : State) (r : AllocAnswer) (rest : List AllocAnswer) : (s.takeAnswer r rest).res4 = s.res4 := rfl
@[simp] theorem State.takeAnswer_phase (s : State) (r : AllocAnswer) (rest : List AllocAnswer) : (s.takeAnswer r rest).phase = s.phase := rfl
@[simp] theorem State.takeAnswer_faulted (s : State) (r : AllocAnswer) (rest : List AllocAnswer) : (s.takeAnswer r rest).faulted = s.faulted := rfl
@[simp] theorem State.takeAnswer_fcode (s : State) (r : AllocAnswer) (rest : List AllocAnswer) : (s.takeAnswer r rest).fcode = s.fcode := rfl
@[simp] theorem State.takeAnswer_fopc (s : State) (r : AllocAnswer) (rest : List AllocAnswer) : (s.takeAnswer r rest).fopc = s.fopc := rfl
@[simp] theorem State.takeAnswer_finfo (s : State) (r : AllocAnswer) (rest : List AllocAnswer) : (s.takeAnswer r rest).finfo = s.finfo := rfl
@[simp] theorem State.takeAnswer_allocs (s : State) (r : AllocAnswer) (rest : List AllocAnswer) : (s.takeAnswer r rest).allocs = s.allocs := rfl
@[simp] theorem State.takeAnswer_cr3out (s : State) (r : AllocAnswer) (rest : List AllocAnswer) : (s.takeAnswer r rest).cr3out = s.cr3out := rfl
@[simp] theorem State.takeAnswer_seq (s : State) (r : AllocAnswer) (rest : List AllocAnswer) : (s.takeAnswer r rest).seq = s.seq := rfl
@[simp] theorem State.takeAnswer_mem (s : State) (r : AllocAnswer) (rest : List AllocAnswer) : (s.takeAnswer r rest).mem = s.mem := rfl
@[simp] theorem State.takeAnswer_pagingReg (s : State) (r : AllocAnswer) (rest : List AllocAnswer) : (s.takeAnswer r rest).pagingReg = s.pagingReg := rfl
@[simp] theorem State.takeAnswer_answers (s : State) (r : AllocAnswer) (rest : List AllocAnswer) : (s.takeAnswer r rest).answers = rest := rfl
@[simp] theorem State.takeAnswer_orphan (s : State) (r : AllocAnswer) (rest : List AllocAnswer) : (s.takeAnswer r rest).orphan = s.orphan := rfl
@[simp] theorem State.takeAnswer_inputs (s : State) (r : AllocAnswer) (rest : List AllocAnswer) : (s.takeAnswer r rest).inputs = s.inputs := rfl
@[simp] theorem State.takeAnswer_hostData (s : State) (r : AllocAnswer) (rest : List AllocAnswer) : (s.takeAnswer r rest).hostData = s.hostData := rfl
@[simp] theorem State.takeAnswer_cfg (s : State) (r : AllocAnswer) (rest : List AllocAnswer) : (s.takeAnswer r rest).cfg = s.cfg := rfl

/-! `setPhase` (rule R26) -/

@[simp] theorem State.setPhase_arg0 (s : State) (p : Phase) : (s.setPhase p).arg0 = s.arg0 := rfl
@[simp] theorem State.setPhase_arg1 (s : State) (p : Phase) : (s.setPhase p).arg1 = s.arg1 := rfl
@[simp] theorem State.setPhase_arg2 (s : State) (p : Phase) : (s.setPhase p).arg2 = s.arg2 := rfl
@[simp] theorem State.setPhase_arg3 (s : State) (p : Phase) : (s.setPhase p).arg3 = s.arg3 := rfl
@[simp] theorem State.setPhase_res0 (s : State) (p : Phase) : (s.setPhase p).res0 = s.res0 := rfl
@[simp] theorem State.setPhase_res1 (s : State) (p : Phase) : (s.setPhase p).res1 = s.res1 := rfl
@[simp] theorem State.setPhase_res2 (s : State) (p : Phase) : (s.setPhase p).res2 = s.res2 := rfl
@[simp] theorem State.setPhase_res3 (s : State) (p : Phase) : (s.setPhase p).res3 = s.res3 := rfl
@[simp] theorem State.setPhase_res4 (s : State) (p : Phase) : (s.setPhase p).res4 = s.res4 := rfl
@[simp] theorem State.setPhase_phase (s : State) (p : Phase) : (s.setPhase p).phase = p := rfl
@[simp] theorem State.setPhase_faulted (s : State) (p : Phase) : (s.setPhase p).faulted = s.faulted := rfl
@[simp] theorem State.setPhase_fcode (s : State) (p : Phase) : (s.setPhase p).fcode = s.fcode := rfl
@[simp] theorem State.setPhase_fopc (s : State) (p : Phase) : (s.setPhase p).fopc = s.fopc := rfl
@[simp] theorem State.setPhase_finfo (s : State) (p : Phase) : (s.setPhase p).finfo = s.finfo := rfl
@[simp] theorem State.setPhase_allocs (s : State) (p : Phase) : (s.setPhase p).allocs = s.allocs := rfl
@[simp] theorem State.setPhase_cr3out (s : State) (p : Phase) : (s.setPhase p).cr3out = s.cr3out := rfl
@[simp] theorem State.setPhase_seq (s : State) (p : Phase) : (s.setPhase p).seq = s.seq := rfl
@[simp] theorem State.setPhase_mem (s : State) (p : Phase) : (s.setPhase p).mem = s.mem := rfl
@[simp] theorem State.setPhase_pagingReg (s : State) (p : Phase) : (s.setPhase p).pagingReg = s.pagingReg := rfl
@[simp] theorem State.setPhase_granted (s : State) (p : Phase) : (s.setPhase p).granted = s.granted := rfl
@[simp] theorem State.setPhase_answers (s : State) (p : Phase) : (s.setPhase p).answers = s.answers := rfl
@[simp] theorem State.setPhase_orphan (s : State) (p : Phase) : (s.setPhase p).orphan = s.orphan := rfl
@[simp] theorem State.setPhase_inputs (s : State) (p : Phase) : (s.setPhase p).inputs = s.inputs := rfl
@[simp] theorem State.setPhase_hostData (s : State) (p : Phase) : (s.setPhase p).hostData = s.hostData := rfl
@[simp] theorem State.setPhase_cfg (s : State) (p : Phase) : (s.setPhase p).cfg = s.cfg := rfl

/-! `latch` (rule R22) -/

@[simp] theorem State.latch_arg0 (s : State) (i : Instr) : (s.latch i).arg0 = s.arg0 := rfl
@[simp] theorem State.latch_arg1 (s : State) (i : Instr) : (s.latch i).arg1 = s.arg1 := rfl
@[simp] theorem State.latch_arg2 (s : State) (i : Instr) : (s.latch i).arg2 = s.arg2 := rfl
@[simp] theorem State.latch_arg3 (s : State) (i : Instr) : (s.latch i).arg3 = s.arg3 := rfl
@[simp] theorem State.latch_res0 (s : State) (i : Instr) : (s.latch i).res0 = s.res0 := rfl
@[simp] theorem State.latch_res1 (s : State) (i : Instr) : (s.latch i).res1 = s.res1 := rfl
@[simp] theorem State.latch_res2 (s : State) (i : Instr) : (s.latch i).res2 = s.res2 := rfl
@[simp] theorem State.latch_res3 (s : State) (i : Instr) : (s.latch i).res3 = s.res3 := rfl
@[simp] theorem State.latch_res4 (s : State) (i : Instr) : (s.latch i).res4 = s.res4 := rfl
@[simp] theorem State.latch_phase (s : State) (i : Instr) : (s.latch i).phase = s.phase := rfl
@[simp] theorem State.latch_faulted (s : State) (i : Instr) : (s.latch i).faulted = s.faulted := rfl
@[simp] theorem State.latch_fcode (s : State) (i : Instr) : (s.latch i).fcode = s.fcode := rfl
@[simp] theorem State.latch_fopc (s : State) (i : Instr) : (s.latch i).fopc = s.fopc := rfl
@[simp] theorem State.latch_finfo (s : State) (i : Instr) : (s.latch i).finfo = s.finfo := rfl
@[simp] theorem State.latch_allocs (s : State) (i : Instr) : (s.latch i).allocs = s.allocs := rfl
@[simp] theorem State.latch_cr3out (s : State) (i : Instr) : (s.latch i).cr3out = s.cr3out := rfl
@[simp] theorem State.latch_seq (s : State) (i : Instr) : (s.latch i).seq = some ⟨i, s.latchArgs, .start⟩ := rfl
@[simp] theorem State.latch_mem (s : State) (i : Instr) : (s.latch i).mem = s.mem := rfl
@[simp] theorem State.latch_pagingReg (s : State) (i : Instr) : (s.latch i).pagingReg = s.pagingReg := rfl
@[simp] theorem State.latch_granted (s : State) (i : Instr) : (s.latch i).granted = s.granted := rfl
@[simp] theorem State.latch_answers (s : State) (i : Instr) : (s.latch i).answers = s.answers := rfl
@[simp] theorem State.latch_orphan (s : State) (i : Instr) : (s.latch i).orphan = s.orphan := rfl
@[simp] theorem State.latch_inputs (s : State) (i : Instr) : (s.latch i).inputs = s.inputs := rfl
@[simp] theorem State.latch_hostData (s : State) (i : Instr) : (s.latch i).hostData = s.hostData := rfl
@[simp] theorem State.latch_cfg (s : State) (i : Instr) : (s.latch i).cfg = s.cfg := rfl

/-! `setFields` (rule R111) -/

@[simp] theorem State.setFields_arg0 (s : State) (l : LinearAddress) : (s.setFields l).arg0 = s.arg0 := rfl
@[simp] theorem State.setFields_arg1 (s : State) (l : LinearAddress) : (s.setFields l).arg1 = s.arg1 := rfl
@[simp] theorem State.setFields_arg2 (s : State) (l : LinearAddress) : (s.setFields l).arg2 = s.arg2 := rfl
@[simp] theorem State.setFields_arg3 (s : State) (l : LinearAddress) : (s.setFields l).arg3 = s.arg3 := rfl
@[simp] theorem State.setFields_res0 (s : State) (l : LinearAddress) : (s.setFields l).res0 = l.i4.setWidth 64 := rfl
@[simp] theorem State.setFields_res1 (s : State) (l : LinearAddress) : (s.setFields l).res1 = l.i3.setWidth 64 := rfl
@[simp] theorem State.setFields_res2 (s : State) (l : LinearAddress) : (s.setFields l).res2 = l.i2.setWidth 64 := rfl
@[simp] theorem State.setFields_res3 (s : State) (l : LinearAddress) : (s.setFields l).res3 = l.i1.setWidth 64 := rfl
@[simp] theorem State.setFields_res4 (s : State) (l : LinearAddress) : (s.setFields l).res4 = l.off.setWidth 64 := rfl
@[simp] theorem State.setFields_phase (s : State) (l : LinearAddress) : (s.setFields l).phase = s.phase := rfl
@[simp] theorem State.setFields_faulted (s : State) (l : LinearAddress) : (s.setFields l).faulted = s.faulted := rfl
@[simp] theorem State.setFields_fcode (s : State) (l : LinearAddress) : (s.setFields l).fcode = s.fcode := rfl
@[simp] theorem State.setFields_fopc (s : State) (l : LinearAddress) : (s.setFields l).fopc = s.fopc := rfl
@[simp] theorem State.setFields_finfo (s : State) (l : LinearAddress) : (s.setFields l).finfo = s.finfo := rfl
@[simp] theorem State.setFields_allocs (s : State) (l : LinearAddress) : (s.setFields l).allocs = s.allocs := rfl
@[simp] theorem State.setFields_cr3out (s : State) (l : LinearAddress) : (s.setFields l).cr3out = s.cr3out := rfl
@[simp] theorem State.setFields_seq (s : State) (l : LinearAddress) : (s.setFields l).seq = s.seq := rfl
@[simp] theorem State.setFields_mem (s : State) (l : LinearAddress) : (s.setFields l).mem = s.mem := rfl
@[simp] theorem State.setFields_pagingReg (s : State) (l : LinearAddress) : (s.setFields l).pagingReg = s.pagingReg := rfl
@[simp] theorem State.setFields_granted (s : State) (l : LinearAddress) : (s.setFields l).granted = s.granted := rfl
@[simp] theorem State.setFields_answers (s : State) (l : LinearAddress) : (s.setFields l).answers = s.answers := rfl
@[simp] theorem State.setFields_orphan (s : State) (l : LinearAddress) : (s.setFields l).orphan = s.orphan := rfl
@[simp] theorem State.setFields_inputs (s : State) (l : LinearAddress) : (s.setFields l).inputs = s.inputs := rfl
@[simp] theorem State.setFields_hostData (s : State) (l : LinearAddress) : (s.setFields l).hostData = s.hostData := rfl
@[simp] theorem State.setFields_cfg (s : State) (l : LinearAddress) : (s.setFields l).cfg = s.cfg := rfl

/-! `setInputs` -/

@[simp] theorem State.setInputs_arg0 (s : State) (is : List Input) : (s.setInputs is).arg0 = s.arg0 := rfl
@[simp] theorem State.setInputs_arg1 (s : State) (is : List Input) : (s.setInputs is).arg1 = s.arg1 := rfl
@[simp] theorem State.setInputs_arg2 (s : State) (is : List Input) : (s.setInputs is).arg2 = s.arg2 := rfl
@[simp] theorem State.setInputs_arg3 (s : State) (is : List Input) : (s.setInputs is).arg3 = s.arg3 := rfl
@[simp] theorem State.setInputs_res0 (s : State) (is : List Input) : (s.setInputs is).res0 = s.res0 := rfl
@[simp] theorem State.setInputs_res1 (s : State) (is : List Input) : (s.setInputs is).res1 = s.res1 := rfl
@[simp] theorem State.setInputs_res2 (s : State) (is : List Input) : (s.setInputs is).res2 = s.res2 := rfl
@[simp] theorem State.setInputs_res3 (s : State) (is : List Input) : (s.setInputs is).res3 = s.res3 := rfl
@[simp] theorem State.setInputs_res4 (s : State) (is : List Input) : (s.setInputs is).res4 = s.res4 := rfl
@[simp] theorem State.setInputs_phase (s : State) (is : List Input) : (s.setInputs is).phase = s.phase := rfl
@[simp] theorem State.setInputs_faulted (s : State) (is : List Input) : (s.setInputs is).faulted = s.faulted := rfl
@[simp] theorem State.setInputs_fcode (s : State) (is : List Input) : (s.setInputs is).fcode = s.fcode := rfl
@[simp] theorem State.setInputs_fopc (s : State) (is : List Input) : (s.setInputs is).fopc = s.fopc := rfl
@[simp] theorem State.setInputs_finfo (s : State) (is : List Input) : (s.setInputs is).finfo = s.finfo := rfl
@[simp] theorem State.setInputs_allocs (s : State) (is : List Input) : (s.setInputs is).allocs = s.allocs := rfl
@[simp] theorem State.setInputs_cr3out (s : State) (is : List Input) : (s.setInputs is).cr3out = s.cr3out := rfl
@[simp] theorem State.setInputs_seq (s : State) (is : List Input) : (s.setInputs is).seq = s.seq := rfl
@[simp] theorem State.setInputs_mem (s : State) (is : List Input) : (s.setInputs is).mem = s.mem := rfl
@[simp] theorem State.setInputs_pagingReg (s : State) (is : List Input) : (s.setInputs is).pagingReg = s.pagingReg := rfl
@[simp] theorem State.setInputs_granted (s : State) (is : List Input) : (s.setInputs is).granted = s.granted := rfl
@[simp] theorem State.setInputs_answers (s : State) (is : List Input) : (s.setInputs is).answers = s.answers := rfl
@[simp] theorem State.setInputs_orphan (s : State) (is : List Input) : (s.setInputs is).orphan = s.orphan := rfl
@[simp] theorem State.setInputs_inputs (s : State) (is : List Input) : (s.setInputs is).inputs = is := rfl
@[simp] theorem State.setInputs_hostData (s : State) (is : List Input) : (s.setInputs is).hostData = s.hostData := rfl
@[simp] theorem State.setInputs_cfg (s : State) (is : List Input) : (s.setInputs is).cfg = s.cfg := rfl

/-! `setAnswers` -/

@[simp] theorem State.setAnswers_arg0 (s : State) (rs : List AllocAnswer) : (s.setAnswers rs).arg0 = s.arg0 := rfl
@[simp] theorem State.setAnswers_arg1 (s : State) (rs : List AllocAnswer) : (s.setAnswers rs).arg1 = s.arg1 := rfl
@[simp] theorem State.setAnswers_arg2 (s : State) (rs : List AllocAnswer) : (s.setAnswers rs).arg2 = s.arg2 := rfl
@[simp] theorem State.setAnswers_arg3 (s : State) (rs : List AllocAnswer) : (s.setAnswers rs).arg3 = s.arg3 := rfl
@[simp] theorem State.setAnswers_res0 (s : State) (rs : List AllocAnswer) : (s.setAnswers rs).res0 = s.res0 := rfl
@[simp] theorem State.setAnswers_res1 (s : State) (rs : List AllocAnswer) : (s.setAnswers rs).res1 = s.res1 := rfl
@[simp] theorem State.setAnswers_res2 (s : State) (rs : List AllocAnswer) : (s.setAnswers rs).res2 = s.res2 := rfl
@[simp] theorem State.setAnswers_res3 (s : State) (rs : List AllocAnswer) : (s.setAnswers rs).res3 = s.res3 := rfl
@[simp] theorem State.setAnswers_res4 (s : State) (rs : List AllocAnswer) : (s.setAnswers rs).res4 = s.res4 := rfl
@[simp] theorem State.setAnswers_phase (s : State) (rs : List AllocAnswer) : (s.setAnswers rs).phase = s.phase := rfl
@[simp] theorem State.setAnswers_faulted (s : State) (rs : List AllocAnswer) : (s.setAnswers rs).faulted = s.faulted := rfl
@[simp] theorem State.setAnswers_fcode (s : State) (rs : List AllocAnswer) : (s.setAnswers rs).fcode = s.fcode := rfl
@[simp] theorem State.setAnswers_fopc (s : State) (rs : List AllocAnswer) : (s.setAnswers rs).fopc = s.fopc := rfl
@[simp] theorem State.setAnswers_finfo (s : State) (rs : List AllocAnswer) : (s.setAnswers rs).finfo = s.finfo := rfl
@[simp] theorem State.setAnswers_allocs (s : State) (rs : List AllocAnswer) : (s.setAnswers rs).allocs = s.allocs := rfl
@[simp] theorem State.setAnswers_cr3out (s : State) (rs : List AllocAnswer) : (s.setAnswers rs).cr3out = s.cr3out := rfl
@[simp] theorem State.setAnswers_seq (s : State) (rs : List AllocAnswer) : (s.setAnswers rs).seq = s.seq := rfl
@[simp] theorem State.setAnswers_mem (s : State) (rs : List AllocAnswer) : (s.setAnswers rs).mem = s.mem := rfl
@[simp] theorem State.setAnswers_pagingReg (s : State) (rs : List AllocAnswer) : (s.setAnswers rs).pagingReg = s.pagingReg := rfl
@[simp] theorem State.setAnswers_granted (s : State) (rs : List AllocAnswer) : (s.setAnswers rs).granted = s.granted := rfl
@[simp] theorem State.setAnswers_answers (s : State) (rs : List AllocAnswer) : (s.setAnswers rs).answers = rs := rfl
@[simp] theorem State.setAnswers_orphan (s : State) (rs : List AllocAnswer) : (s.setAnswers rs).orphan = s.orphan := rfl
@[simp] theorem State.setAnswers_inputs (s : State) (rs : List AllocAnswer) : (s.setAnswers rs).inputs = s.inputs := rfl
@[simp] theorem State.setAnswers_hostData (s : State) (rs : List AllocAnswer) : (s.setAnswers rs).hostData = s.hostData := rfl
@[simp] theorem State.setAnswers_cfg (s : State) (rs : List AllocAnswer) : (s.setAnswers rs).cfg = s.cfg := rfl

/-! `setHostData` -/

@[simp] theorem State.setHostData_arg0 (s : State) (v : Word) : (s.setHostData v).arg0 = s.arg0 := rfl
@[simp] theorem State.setHostData_arg1 (s : State) (v : Word) : (s.setHostData v).arg1 = s.arg1 := rfl
@[simp] theorem State.setHostData_arg2 (s : State) (v : Word) : (s.setHostData v).arg2 = s.arg2 := rfl
@[simp] theorem State.setHostData_arg3 (s : State) (v : Word) : (s.setHostData v).arg3 = s.arg3 := rfl
@[simp] theorem State.setHostData_res0 (s : State) (v : Word) : (s.setHostData v).res0 = s.res0 := rfl
@[simp] theorem State.setHostData_res1 (s : State) (v : Word) : (s.setHostData v).res1 = s.res1 := rfl
@[simp] theorem State.setHostData_res2 (s : State) (v : Word) : (s.setHostData v).res2 = s.res2 := rfl
@[simp] theorem State.setHostData_res3 (s : State) (v : Word) : (s.setHostData v).res3 = s.res3 := rfl
@[simp] theorem State.setHostData_res4 (s : State) (v : Word) : (s.setHostData v).res4 = s.res4 := rfl
@[simp] theorem State.setHostData_phase (s : State) (v : Word) : (s.setHostData v).phase = s.phase := rfl
@[simp] theorem State.setHostData_faulted (s : State) (v : Word) : (s.setHostData v).faulted = s.faulted := rfl
@[simp] theorem State.setHostData_fcode (s : State) (v : Word) : (s.setHostData v).fcode = s.fcode := rfl
@[simp] theorem State.setHostData_fopc (s : State) (v : Word) : (s.setHostData v).fopc = s.fopc := rfl
@[simp] theorem State.setHostData_finfo (s : State) (v : Word) : (s.setHostData v).finfo = s.finfo := rfl
@[simp] theorem State.setHostData_allocs (s : State) (v : Word) : (s.setHostData v).allocs = s.allocs := rfl
@[simp] theorem State.setHostData_cr3out (s : State) (v : Word) : (s.setHostData v).cr3out = s.cr3out := rfl
@[simp] theorem State.setHostData_seq (s : State) (v : Word) : (s.setHostData v).seq = s.seq := rfl
@[simp] theorem State.setHostData_mem (s : State) (v : Word) : (s.setHostData v).mem = s.mem := rfl
@[simp] theorem State.setHostData_pagingReg (s : State) (v : Word) : (s.setHostData v).pagingReg = s.pagingReg := rfl
@[simp] theorem State.setHostData_granted (s : State) (v : Word) : (s.setHostData v).granted = s.granted := rfl
@[simp] theorem State.setHostData_answers (s : State) (v : Word) : (s.setHostData v).answers = s.answers := rfl
@[simp] theorem State.setHostData_orphan (s : State) (v : Word) : (s.setHostData v).orphan = s.orphan := rfl
@[simp] theorem State.setHostData_inputs (s : State) (v : Word) : (s.setHostData v).inputs = s.inputs := rfl
@[simp] theorem State.setHostData_hostData (s : State) (v : Word) : (s.setHostData v).hostData = v := rfl
@[simp] theorem State.setHostData_cfg (s : State) (v : Word) : (s.setHostData v).cfg = s.cfg := rfl

@[simp] theorem State.takeAnswer_granted_frame (s : State) (f : PA) (rest : List AllocAnswer) :
    (s.takeAnswer (.frame f) rest).granted = f :: s.granted := rfl
@[simp] theorem State.takeAnswer_granted_exhausted (s : State) (rest : List AllocAnswer) :
    (s.takeAnswer .exhausted rest).granted = s.granted := rfl
@[simp] theorem State.latch_latchedWord (s : State) (i : Instr) : (s.latch i).latchedWord = encode i := rfl
@[simp] theorem State.latch_busy (s : State) (i : Instr) : (s.latch i).busy = true := rfl

/-! `busy` and the latched word. -/

@[simp] theorem State.raise_busy (s : State) (c : Word) (f : Cause) (info : Word) : (s.raise c f info).busy = false := rfl
@[simp] theorem State.raiseHere_busy (s : State) (f : Cause) (info : Word) : (s.raiseHere f info).busy = false := rfl
@[simp] theorem State.complete_busy (s : State) : s.complete.busy = false := rfl
@[simp] theorem State.suspend_busy (s : State) (t : Task) : (s.suspend t).busy = s.busy := by
  simp [State.busy]

theorem State.busy_eq_false {s : State} : s.busy = false ↔ s.seq = none := by
  simp [State.busy]

theorem State.busy_of_seq {s : State} {j : Job} (h : s.seq = some j) : s.busy = true := by
  simp [State.busy, h]

theorem State.latchedWord_of_seq {s : State} {j : Job} (h : s.seq = some j) : s.latchedWord = encode j.instr := by
  simp [State.latchedWord, h]

/-- A point the command stands at is replaced by a later one. -/
@[simp] theorem State.suspend_suspend (s : State) (t t' : Task) : (s.suspend t).suspend t' = s.suspend t' := by
  cases h : s.seq <;> simp [State.suspend, h]

@[simp] theorem State.suspend_complete (s : State) (t : Task) : (s.suspend t).complete = s.complete := rfl

@[simp] theorem State.suspend_latchedWord (s : State) (t : Task) : (s.suspend t).latchedWord = s.latchedWord := by
  cases h : s.seq <;> simp [State.suspend, State.latchedWord, h]

@[simp] theorem State.suspend_raiseHere (s : State) (t : Task) (f : Cause) (info : Word) :
    (s.suspend t).raiseHere f info = s.raiseHere f info := by
  simp [State.raiseHere, State.raise, State.suspend, State.latchedWord]
  cases s.seq <;> rfl

/-! A request left behind and a late answer touch the allocator's side alone (log entry 26). -/

/-- All that leaving a request behind can do. -/
theorem State.leaveRequest_eq (s : State) :
    s.leaveRequest = { s with
      granted := s.leaveRequest.granted, answers := s.leaveRequest.answers, orphan := s.leaveRequest.orphan } := by
  unfold State.leaveRequest
  split
  · split <;> rfl
  · rfl

@[simp] theorem State.leaveRequest_arg0 (s : State) : s.leaveRequest.arg0 = s.arg0 := by rw [State.leaveRequest_eq]
@[simp] theorem State.leaveRequest_arg1 (s : State) : s.leaveRequest.arg1 = s.arg1 := by rw [State.leaveRequest_eq]
@[simp] theorem State.leaveRequest_arg2 (s : State) : s.leaveRequest.arg2 = s.arg2 := by rw [State.leaveRequest_eq]
@[simp] theorem State.leaveRequest_arg3 (s : State) : s.leaveRequest.arg3 = s.arg3 := by rw [State.leaveRequest_eq]
@[simp] theorem State.leaveRequest_res0 (s : State) : s.leaveRequest.res0 = s.res0 := by rw [State.leaveRequest_eq]
@[simp] theorem State.leaveRequest_res1 (s : State) : s.leaveRequest.res1 = s.res1 := by rw [State.leaveRequest_eq]
@[simp] theorem State.leaveRequest_res2 (s : State) : s.leaveRequest.res2 = s.res2 := by rw [State.leaveRequest_eq]
@[simp] theorem State.leaveRequest_res3 (s : State) : s.leaveRequest.res3 = s.res3 := by rw [State.leaveRequest_eq]
@[simp] theorem State.leaveRequest_res4 (s : State) : s.leaveRequest.res4 = s.res4 := by rw [State.leaveRequest_eq]
@[simp] theorem State.leaveRequest_phase (s : State) : s.leaveRequest.phase = s.phase := by rw [State.leaveRequest_eq]
@[simp] theorem State.leaveRequest_faulted (s : State) : s.leaveRequest.faulted = s.faulted := by rw [State.leaveRequest_eq]
@[simp] theorem State.leaveRequest_fcode (s : State) : s.leaveRequest.fcode = s.fcode := by rw [State.leaveRequest_eq]
@[simp] theorem State.leaveRequest_fopc (s : State) : s.leaveRequest.fopc = s.fopc := by rw [State.leaveRequest_eq]
@[simp] theorem State.leaveRequest_finfo (s : State) : s.leaveRequest.finfo = s.finfo := by rw [State.leaveRequest_eq]
@[simp] theorem State.leaveRequest_allocs (s : State) : s.leaveRequest.allocs = s.allocs := by rw [State.leaveRequest_eq]
@[simp] theorem State.leaveRequest_cr3out (s : State) : s.leaveRequest.cr3out = s.cr3out := by rw [State.leaveRequest_eq]
@[simp] theorem State.leaveRequest_seq (s : State) : s.leaveRequest.seq = s.seq := by rw [State.leaveRequest_eq]
@[simp] theorem State.leaveRequest_mem (s : State) : s.leaveRequest.mem = s.mem := by rw [State.leaveRequest_eq]
@[simp] theorem State.leaveRequest_pagingReg (s : State) : s.leaveRequest.pagingReg = s.pagingReg := by rw [State.leaveRequest_eq]
@[simp] theorem State.leaveRequest_inputs (s : State) : s.leaveRequest.inputs = s.inputs := by rw [State.leaveRequest_eq]
@[simp] theorem State.leaveRequest_hostData (s : State) : s.leaveRequest.hostData = s.hostData := by rw [State.leaveRequest_eq]
@[simp] theorem State.leaveRequest_cfg (s : State) : s.leaveRequest.cfg = s.cfg := by rw [State.leaveRequest_eq]

@[simp] theorem answerOrphan_arg0 (s : State) (r : AllocAnswer) : (answerOrphan r s).arg0 = s.arg0 := rfl
@[simp] theorem answerOrphan_arg1 (s : State) (r : AllocAnswer) : (answerOrphan r s).arg1 = s.arg1 := rfl
@[simp] theorem answerOrphan_arg2 (s : State) (r : AllocAnswer) : (answerOrphan r s).arg2 = s.arg2 := rfl
@[simp] theorem answerOrphan_arg3 (s : State) (r : AllocAnswer) : (answerOrphan r s).arg3 = s.arg3 := rfl
@[simp] theorem answerOrphan_res0 (s : State) (r : AllocAnswer) : (answerOrphan r s).res0 = s.res0 := rfl
@[simp] theorem answerOrphan_res1 (s : State) (r : AllocAnswer) : (answerOrphan r s).res1 = s.res1 := rfl
@[simp] theorem answerOrphan_res2 (s : State) (r : AllocAnswer) : (answerOrphan r s).res2 = s.res2 := rfl
@[simp] theorem answerOrphan_res3 (s : State) (r : AllocAnswer) : (answerOrphan r s).res3 = s.res3 := rfl
@[simp] theorem answerOrphan_res4 (s : State) (r : AllocAnswer) : (answerOrphan r s).res4 = s.res4 := rfl
@[simp] theorem answerOrphan_phase (s : State) (r : AllocAnswer) : (answerOrphan r s).phase = s.phase := rfl
@[simp] theorem answerOrphan_faulted (s : State) (r : AllocAnswer) : (answerOrphan r s).faulted = s.faulted := rfl
@[simp] theorem answerOrphan_fcode (s : State) (r : AllocAnswer) : (answerOrphan r s).fcode = s.fcode := rfl
@[simp] theorem answerOrphan_fopc (s : State) (r : AllocAnswer) : (answerOrphan r s).fopc = s.fopc := rfl
@[simp] theorem answerOrphan_finfo (s : State) (r : AllocAnswer) : (answerOrphan r s).finfo = s.finfo := rfl
@[simp] theorem answerOrphan_allocs (s : State) (r : AllocAnswer) : (answerOrphan r s).allocs = s.allocs := rfl
@[simp] theorem answerOrphan_cr3out (s : State) (r : AllocAnswer) : (answerOrphan r s).cr3out = s.cr3out := rfl
@[simp] theorem answerOrphan_seq (s : State) (r : AllocAnswer) : (answerOrphan r s).seq = s.seq := rfl
@[simp] theorem answerOrphan_mem (s : State) (r : AllocAnswer) : (answerOrphan r s).mem = s.mem := rfl
@[simp] theorem answerOrphan_pagingReg (s : State) (r : AllocAnswer) : (answerOrphan r s).pagingReg = s.pagingReg := rfl
@[simp] theorem answerOrphan_inputs (s : State) (r : AllocAnswer) : (answerOrphan r s).inputs = s.inputs := rfl
@[simp] theorem answerOrphan_hostData (s : State) (r : AllocAnswer) : (answerOrphan r s).hostData = s.hostData := rfl
@[simp] theorem answerOrphan_cfg (s : State) (r : AllocAnswer) : (answerOrphan r s).cfg = s.cfg := rfl
@[simp] theorem answerOrphan_answers (s : State) (r : AllocAnswer) : (answerOrphan r s).answers = s.answers := rfl
@[simp] theorem answerOrphan_orphan (s : State) (r : AllocAnswer) : (answerOrphan r s).orphan = false := rfl

/-! The completion of the mapping commands and of `ROOTZ`. -/

theorem mapDone_eq (s : State) (m : MapJob) : mapDone s m = { s with seq := none, res0 := m.result.getD s.res0 } := by
  unfold mapDone
  cases m.result <;> rfl

theorem rootzDone_eq (s : State) : rootzDone s = { s with seq := none, phase := .populating } := rfl

/-! A host write to a register other than `CMD` leaves all but `ARG0`-`ARG3` alone (rule R23, rule R33). -/

@[simp] theorem writeReg_res0 (s : State) (r : HostReg) (v : Word) : (writeReg s r v).res0 = s.res0 := by cases r <;> rfl
@[simp] theorem writeReg_res1 (s : State) (r : HostReg) (v : Word) : (writeReg s r v).res1 = s.res1 := by cases r <;> rfl
@[simp] theorem writeReg_res2 (s : State) (r : HostReg) (v : Word) : (writeReg s r v).res2 = s.res2 := by cases r <;> rfl
@[simp] theorem writeReg_res3 (s : State) (r : HostReg) (v : Word) : (writeReg s r v).res3 = s.res3 := by cases r <;> rfl
@[simp] theorem writeReg_res4 (s : State) (r : HostReg) (v : Word) : (writeReg s r v).res4 = s.res4 := by cases r <;> rfl
@[simp] theorem writeReg_phase (s : State) (r : HostReg) (v : Word) : (writeReg s r v).phase = s.phase := by cases r <;> rfl
@[simp] theorem writeReg_faulted (s : State) (r : HostReg) (v : Word) : (writeReg s r v).faulted = s.faulted := by cases r <;> rfl
@[simp] theorem writeReg_fcode (s : State) (r : HostReg) (v : Word) : (writeReg s r v).fcode = s.fcode := by cases r <;> rfl
@[simp] theorem writeReg_fopc (s : State) (r : HostReg) (v : Word) : (writeReg s r v).fopc = s.fopc := by cases r <;> rfl
@[simp] theorem writeReg_finfo (s : State) (r : HostReg) (v : Word) : (writeReg s r v).finfo = s.finfo := by cases r <;> rfl
@[simp] theorem writeReg_allocs (s : State) (r : HostReg) (v : Word) : (writeReg s r v).allocs = s.allocs := by cases r <;> rfl
@[simp] theorem writeReg_cr3out (s : State) (r : HostReg) (v : Word) : (writeReg s r v).cr3out = s.cr3out := by cases r <;> rfl
@[simp] theorem writeReg_seq (s : State) (r : HostReg) (v : Word) : (writeReg s r v).seq = s.seq := by cases r <;> rfl
@[simp] theorem writeReg_mem (s : State) (r : HostReg) (v : Word) : (writeReg s r v).mem = s.mem := by cases r <;> rfl
@[simp] theorem writeReg_pagingReg (s : State) (r : HostReg) (v : Word) : (writeReg s r v).pagingReg = s.pagingReg := by cases r <;> rfl
@[simp] theorem writeReg_granted (s : State) (r : HostReg) (v : Word) : (writeReg s r v).granted = s.granted := by cases r <;> rfl
@[simp] theorem writeReg_answers (s : State) (r : HostReg) (v : Word) : (writeReg s r v).answers = s.answers := by cases r <;> rfl
@[simp] theorem writeReg_orphan (s : State) (r : HostReg) (v : Word) : (writeReg s r v).orphan = s.orphan := by cases r <;> rfl
@[simp] theorem writeReg_inputs (s : State) (r : HostReg) (v : Word) : (writeReg s r v).inputs = s.inputs := by cases r <;> rfl
@[simp] theorem writeReg_hostData (s : State) (r : HostReg) (v : Word) : (writeReg s r v).hostData = s.hostData := by cases r <;> rfl
@[simp] theorem writeReg_cfg (s : State) (r : HostReg) (v : Word) : (writeReg s r v).cfg = s.cfg := by cases r <;> rfl

end Sys2Proof.Machine
end

