-- ==== Sys2Proof/Laws/Ops.lean ====
section
/-! SUPPORT. One lemma for each shared operation that says what it can do: the memory port, the allocator port, issuing
a command, and the composition of parts of a command. -/

namespace Sys2Proof.Laws
open Sys2Proof.Machine

/-! The memory port. -/

theorem memRead_ok_iff {ω : Type} {s s' : State} {a : Nat} {v : Word} :
    memRead (ω := ω) s a = .ok s' v ↔ backed64 s.cfg a = true ∧ s' = s ∧ v = s.mem.read64 a := by
  unfold memRead
  split <;> rename_i h
  · exact ⟨fun e => by cases e; exact ⟨h, rfl, rfl⟩, fun ⟨_, e, e'⟩ => by rw [e, e']⟩
  · exact ⟨fun e => by (cases e), fun e => absurd e.1 h⟩

theorem memWrite_ok_iff {ω : Type} {s s' : State} {a : Nat} {v : Word} {u : Unit} :
    memWrite (ω := ω) s a v = .ok s' u ↔
      backed64 s.cfg a = true ∧ s' = s.setMem (s.mem.write64 a v) := by
  unfold memWrite
  split <;> rename_i h
  · exact ⟨fun e => by cases e; exact ⟨h, rfl⟩, fun ⟨_, e⟩ => by rw [e]⟩
  · exact ⟨fun e => by (cases e), fun e => absurd e.1 h⟩

theorem memRead_backed {ω : Type} {s : State} {a : Nat} (h : backed64 s.cfg a = true) :
    memRead (ω := ω) s a = .ok s (s.mem.read64 a) := by
  simp [memRead, h]

theorem memRead_unbacked {ω : Type} {s : State} {a : Nat} (h : backed64 s.cfg a = false) :
    memRead (ω := ω) s a = .stop (.outsidePhysMem a) := by
  simp [memRead, h]

theorem memWrite_backed {ω : Type} {s : State} {a : Nat} {v : Word} (h : backed64 s.cfg a = true) :
    memWrite (ω := ω) s a v = .ok (s.setMem (s.mem.write64 a v)) () := by
  simp [memWrite, h]

theorem memWrite_unbacked {ω : Type} {s : State} {a : Nat} {v : Word} (h : backed64 s.cfg a = false) :
    memWrite (ω := ω) s a v = .stop (.outsidePhysMem a) := by
  simp [memWrite, h]

theorem firstUnbacked_eq_none_iff {c : Config} {a n : Nat} :
    firstUnbacked c a n = none ↔ ∀ k < n, backed64 c (a + 8 * k) = true := by
  induction n generalizing a with
  | zero => simp [firstUnbacked]
  | succ n ih =>
    unfold firstUnbacked
    split
    · rename_i h
      rw [ih]
      constructor
      · intro hk k hlt
        cases k with
        | zero => simpa using h
        | succ k =>
          have e : a + 8 * (k + 1) = a + 8 + 8 * k := by omega
          rw [e]; exact hk k (by omega)
      · intro hk k hlt
        have e : a + 8 + 8 * k = a + 8 * (k + 1) := by omega
        rw [e]; exact hk (k + 1) (by omega)
    · rename_i h
      simp only [reduceCtorEq, false_iff, not_forall]
      exact ⟨0, by omega, by simpa using h⟩

theorem memZero_ok_iff {ω : Type} {s s' : State} {a n : Nat} {u : Unit} :
    memZero (ω := ω) s a n = .ok s' u ↔
      (∀ k < n, backed64 s.cfg (a + 8 * k) = true) ∧ s' = s.setMem (s.mem.zeroEntries a n) := by
  unfold memZero
  rw [← firstUnbacked_eq_none_iff]
  split <;> rename_i h
  · exact ⟨fun e => by cases e; exact ⟨h, rfl⟩, fun ⟨_, e⟩ => by rw [e]⟩
  · exact ⟨fun e => by (cases e), fun e => by rw [h] at e; cases e.1⟩

/-- An access whose page is in `PHYS_MEM` is too (rule R50). -/
theorem backed64_iff {c : Config} {a : Nat} : backed64 c a = true ↔ ∀ k < 8, backed c (a + k) = true := by
  simp [backed64, List.all_eq_true]

theorem backed_lt {c : Config} {a : Nat} (h : backed c a = true) : a < 2 ^ 52 := by
  simp only [backed, Bool.and_eq_true, decide_eq_true_eq] at h
  exact h.1

/-- The block's accesses stay below 2^52 (rule R50). -/
theorem backed64_lt {c : Config} {a : Nat} (h : backed64 c a = true) : a + 8 ≤ 2 ^ 52 := by
  have := backed_lt (backed64_iff.1 h 7 (by omega))
  omega

theorem backed_rootPage {c : Config} {a : Nat} (h : a / 4096 = c.rootFrame.toNat) : backed c a = true := by
  have := c.rootFrame.isLt
  simp only [backed, Bool.and_eq_true, decide_eq_true_eq, Bool.or_eq_true]
  exact ⟨by omega, .inl h⟩

theorem rootBase_toNat (c : Config) : (rootBase c).toNat = c.rootFrame.toNat * 4096 := by
  have := c.rootFrame.isLt
  simp only [rootBase, BitVec.toNat_shiftLeft, BitVec.toNat_setWidth, Nat.shiftLeft_eq]
  omega

/-! The allocator port. -/

theorem allocFrame_eq_some_iff {s s' : State} {r : AllocAnswer} :
    allocFrame s = some (r, s') ↔ ∃ rest, s.answers = r :: rest ∧ s' = s.takeAnswer r rest := by
  unfold allocFrame
  split <;> rename_i h
  · simp [h]
  · rw [h]
    constructor
    · intro e; cases e; exact ⟨_, rfl, rfl⟩
    · rintro ⟨rest, e, rfl⟩; cases e; rfl

theorem allocFrame_eq_none_iff {s : State} : allocFrame s = none ↔ s.answers = [] := by
  unfold allocFrame
  split <;> simp_all

/-! Parts of a command. -/

@[simp] theorem Run_bind_ok {ω ω' α β : Type} (s : State) (a : α) (hold : ω → ω') (k : State → α → Run ω' β) :
    (Run.ok s a).bind hold k = k s a := rfl
@[simp] theorem Run_bind_raise {ω ω' α β : Type} (s : State) (f : Cause) (info : Word) (hold : ω → ω')
    (k : State → α → Run ω' β) : (Run.raise s f info : Run ω α).bind hold k = .raise s f info := rfl
@[simp] theorem Run_bind_wait {ω ω' α β : Type} (s : State) (w : ω) (hold : ω → ω') (k : State → α → Run ω' β) :
    (Run.wait s w : Run ω α).bind hold k = .wait s (hold w) := rfl
@[simp] theorem Run_bind_stop {ω ω' α β : Type} (f : Fault) (hold : ω → ω') (k : State → α → Run ω' β) :
    (Run.stop f : Run ω α).bind hold k = .stop f := rfl

@[simp] theorem Run_finish_ok {ω α : Type} (s : State) (a : α) (hold : ω → Task) (k : State → α → Result) :
    (Run.ok s a).finish hold k = k s a := rfl
@[simp] theorem Run_finish_raise {ω α : Type} (s : State) (f : Cause) (info : Word) (hold : ω → Task)
    (k : State → α → Result) : (Run.raise s f info : Run ω α).finish hold k = .next (s.raiseHere f info) := rfl
@[simp] theorem Run_finish_wait {ω α : Type} (s : State) (w : ω) (hold : ω → Task) (k : State → α → Result) :
    (Run.wait s w : Run ω α).finish hold k = .next (s.suspend (hold w)) := rfl
@[simp] theorem Run_finish_stop {ω α : Type} (f : Fault) (hold : ω → Task) (k : State → α → Result) :
    (Run.stop f : Run ω α).finish hold k = .fault f := rfl

theorem Run_bind_assoc {ω ω' ω'' α β γ : Type} (r : Run ω α) (hold : ω → ω') (k : State → α → Run ω' β)
    (hold' : ω' → ω'') (k' : State → β → Run ω'' γ) :
    (r.bind hold k).bind hold' k' = r.bind (fun w => hold' (hold w)) fun s a => (k s a).bind hold' k' := by
  cases r <;> rfl

theorem Run_bind_ok_iff {ω ω' α β : Type} {r : Run ω α} {hold : ω → ω'} {k : State → α → Run ω' β} {s' : State} {b : β} :
    r.bind hold k = .ok s' b ↔ ∃ s a, r = .ok s a ∧ k s a = .ok s' b := by
  cases r <;> simp

/-! Issuing a command (rule R224). -/

/-- In a state where a command may be issued and the phase admits it, the command's own steps follow. -/
theorem issue_admitted {i : Instr} {body : Args → State → Result} {s : State} (hf : s.faulted = false)
    (hs : s.seq = none) (ha : admits i s.phase = true) :
    issue i body s = body s.latchArgs (s.latch i) := by
  simp [issue, hf, State.busy, hs, ha]

theorem issue_faulted {i : Instr} {body : Args → State → Result} {s : State} (hf : s.faulted = true) :
    issue i body s = .next s := by
  simp [issue, hf]

theorem issue_busy {i : Instr} {body : Args → State → Result} {s : State} (hf : s.faulted = false)
    (hb : s.busy = true) : issue i body s = .next (s.interrupt (encode i)) := by
  simp [issue, hf, hb]

theorem issue_refused_phase {i : Instr} {body : Args → State → Result} {s : State} (hf : s.faulted = false)
    (hs : s.seq = none) (ha : admits i s.phase = false) :
    issue i body s = .next (s.raise (encode i) .phaseViolation (s.phase.code.setWidth 64)) := by
  simp [issue, hf, State.busy, hs, ha]

/-- All that a write of `CMD` to a running command can do to the allocator's side (rule R223, log entry 26). -/
theorem interrupt_cases (s : State) (c : Word) :
    (awaitsAllocator s = false ∧ s.interrupt c = s.raise c .commandWhileBusy c) ∨
    (awaitsAllocator s = true ∧ s.answers = [] ∧
      s.interrupt c = ({ s with orphan := true } : State).raise c .commandWhileBusy c) ∨
    (awaitsAllocator s = true ∧ ∃ r rest, s.answers = r :: rest ∧
      s.interrupt c = (s.takeAnswer r rest).raise c .commandWhileBusy c) := by
  unfold State.interrupt State.leaveRequest
  by_cases h : awaitsAllocator s = true
  · cases ha : s.answers with
    | nil => exact .inr (.inl ⟨h, rfl, by simp [h]⟩)
    | cons r rest => exact .inr (.inr ⟨h, r, rest, rfl, by simp [h]⟩)
  · exact .inl ⟨Bool.eq_false_iff.2 h, by simp [h]⟩

/-- All that issuing a command can do. -/
theorem issue_cases (i : Instr) (body : Args → State → Result) (s : State) :
    (s.faulted = true ∧ issue i body s = .next s) ∨
    (s.faulted = false ∧ s.busy = true ∧
      issue i body s = .next (s.interrupt (encode i))) ∨
    (s.faulted = false ∧ s.seq = none ∧ admits i s.phase = false ∧
      issue i body s = .next (s.raise (encode i) .phaseViolation (s.phase.code.setWidth 64))) ∨
    (s.faulted = false ∧ s.seq = none ∧ admits i s.phase = true ∧
      issue i body s = body s.latchArgs (s.latch i)) := by
  by_cases hf : s.faulted = true
  · exact .inl ⟨hf, issue_faulted hf⟩
  · have hf := Bool.eq_false_iff.2 hf
    by_cases hb : s.busy = true
    · exact .inr (.inl ⟨hf, hb, issue_busy hf hb⟩)
    · have hs := State.busy_eq_false.1 (Bool.eq_false_iff.2 hb)
      by_cases ha : admits i s.phase = true
      · exact .inr (.inr (.inr ⟨hf, hs, ha, issue_admitted hf hs ha⟩))
      · have ha := Bool.eq_false_iff.2 ha
        exact .inr (.inr (.inl ⟨hf, hs, ha, issue_refused_phase hf hs ha⟩))

end Sys2Proof.Laws
end

