-- ==== Sys2Proof/Laws/Codec.lean ====
section
/-! SUPPORT. The small laws of the codec, of frames and of entry addresses. -/

namespace Sys2Proof.Laws
open Sys2Proof.Machine

/-! Frames: page-aligned addresses below 2^52. -/

theorem pageAligned_iff {a : Word} : pageAligned a = true ↔ a.toNat % 4096 = 0 := by
  have e : (a.extractLsb' 0 12).toNat = a.toNat % 4096 := by simp [BitVec.extractLsb'_toNat]
  simp only [pageAligned, beq_iff_eq, ← BitVec.toNat_inj, e]
  simp

theorem frameOk_iff {f : PA} : frameOk f = true ↔ f.toNat % 4096 = 0 ∧ f.toNat < 2 ^ 52 := by
  simp only [frameOk, belowLimit, Bool.and_eq_true, decide_eq_true_eq, pageAligned_iff]

theorem indexOk_iff {j : Word} : indexOk j = true ↔ j.toNat ≤ 511 := by
  simp [indexOk]

theorem frameAddr_toNat (e : Word) : (frameAddr e).toNat = e.toNat / 4096 % 2 ^ 40 * 4096 := by
  have h : e.toNat / 4096 % 2 ^ 40 < 2 ^ 40 := Nat.mod_lt _ (by decide)
  simp only [frameAddr, BitVec.toNat_shiftLeft, BitVec.toNat_setWidth, BitVec.extractLsb'_toNat, Nat.shiftLeft_eq,
    Nat.shiftRight_eq_div_pow]
  omega

theorem frameOk_frameAddr (e : Word) : frameOk (frameAddr e) = true := by
  have h : e.toNat / 4096 % 2 ^ 40 < 2 ^ 40 := Nat.mod_lt _ (by decide)
  rw [frameOk_iff, frameAddr_toNat]
  omega

theorem frameOk_rootBase (c : Config) : frameOk (rootBase c) = true := by
  have := c.rootFrame.isLt
  rw [frameOk_iff, rootBase_toNat]
  omega

/-- An initialize word as a number. -/
theorem initWord_toNat (pa : PA) : (initWord pa).toNat = pa.toNat / 4096 % 2 ^ 40 * 4096 + 3 := by
  have e : initWord pa = frameAddr pa ||| 3 := rfl
  have d : frameAddr pa &&& 3 = 0 := by
    apply BitVec.eq_of_toNat_eq
    rw [BitVec.toNat_and, frameAddr_toNat]
    have : (BitVec.toNat (3 : Word)) = 2 ^ 2 - 1 := rfl
    rw [this, Nat.and_two_pow_sub_one_eq_mod]
    simp; omega
  rw [e, ← BitVec.add_eq_or_of_and_eq_zero _ _ d, BitVec.toNat_add, frameAddr_toNat]
  have h : pa.toNat / 4096 % 2 ^ 40 < 2 ^ 40 := Nat.mod_lt _ (by decide)
  simp
  omega

/-- Following the entry that was written for a frame leads to the frame. -/
theorem frameAddr_initWord_of_frame {f : PA} (h : frameOk f = true) : frameAddr (initWord f) = f := by
  rw [frameOk_iff] at h
  apply BitVec.eq_of_toNat_eq
  rw [frameAddr_toNat, initWord_toNat]
  omega

theorem initWord_bit (pa : PA) (k : Nat) (h : k < 12) : (initWord pa).getLsbD k = decide (k < 2) := by
  simp only [BitVec.getLsbD, initWord_toNat, Nat.testBit_eq_decide_div_mod_eq]
  generalize pa.toNat / 4096 % 2 ^ 40 = x
  rw [decide_eq_decide]
  interval_cases k <;> omega

theorem isPresent_initWord (pa : PA) : isPresent (initWord pa) = true := by
  rw [isPresent, initWord_bit pa 0 (by decide)]
  rfl

theorem isPresent_zero : isPresent 0#64 = false := by decide

/-! Entry addresses (rule R55): aligned, and inside the table's page. -/

theorem entryAddr_toNat {t : PA} {j : Word} (ht : frameOk t = true) (hj : indexOk j = true) :
    (entryAddr t j).toNat = t.toNat + 8 * j.toNat := by
  rw [frameOk_iff] at ht
  rw [indexOk_iff] at hj
  simp only [entryAddr, BitVec.toNat_add, BitVec.toNat_mul]
  simp
  omega

theorem indexOk_setWidth (j : BitVec 9) : indexOk (j.setWidth 64) = true := by
  have := j.isLt
  rw [indexOk_iff]
  simp
  omega

theorem entryAt_eq {t : PA} (j : BitVec 9) (ht : frameOk t = true) : entryAt t j = t.toNat + 8 * j.toNat := by
  have := j.isLt
  rw [entryAt, entryAddr_toNat ht (indexOk_setWidth j)]
  simp
  omega

/-- Different entries of tables never overlap (rule R55). -/
theorem entryAt_apart {t t' : PA} {j j' : BitVec 9} (ht : frameOk t = true) (ht' : frameOk t' = true)
    (h : ¬ (t = t' ∧ j = j')) : entryAt t j + 8 ≤ entryAt t' j' ∨ entryAt t' j' + 8 ≤ entryAt t j := by
  rw [entryAt_eq j ht, entryAt_eq j' ht']
  rw [frameOk_iff] at ht ht'
  have := j.isLt
  have := j'.isLt
  by_cases e : t = t'
  · have hj : j.toNat ≠ j'.toNat := fun e' => h ⟨e, BitVec.eq_of_toNat_eq e'⟩
    rw [e]; omega
  · have : t.toNat ≠ t'.toNat := fun e' => e (BitVec.eq_of_toNat_eq e')
    omega

/-- An entry of another table lies outside a frame. -/
theorem entryAt_outside {t f : PA} {j : BitVec 9} (ht : frameOk t = true) (hf : frameOk f = true) (h : t ≠ f) :
    entryAt t j + 8 ≤ f.toNat ∨ f.toNat + 4096 ≤ entryAt t j := by
  rw [entryAt_eq j ht]
  rw [frameOk_iff] at ht hf
  have := j.isLt
  have : t.toNat ≠ f.toNat := fun e' => h (BitVec.eq_of_toNat_eq e')
  omega

/-- An entry of a table lies inside its page. -/
theorem entryAt_inside {t : PA} {j : BitVec 9} (ht : frameOk t = true) :
    t.toNat ≤ entryAt t j ∧ entryAt t j + 8 ≤ t.toNat + 4096 := by
  rw [entryAt_eq j ht]
  have := j.isLt
  omega

end Sys2Proof.Laws
end

