-- ==== Sys2Proof/Laws/Walker.lean ====
section
/-! SUPPORT. What the walker can do, said once: an answer of `resolveNext` is either the table a present entry points
at, with nothing changed, or a table newly installed (rule R151); and going on after one step of the walker's state
machine ends as going on before it (rule R153). -/

namespace Sys2Proof.Laws
open Sys2Proof.Machine

/-- The state after a table has been zeroed in the frame `f`, installed in the entry at `ea` and counted: the effect
of steps 3 to 5 of rule R151. -/
def installed (s : State) (ea : Nat) (f : PA) (rest : List AllocAnswer) : State :=
  ((s.takeAnswer (.frame f) rest).setMem ((s.mem.zeroEntries f.toNat 512).write64 ea (initWord f))).countTable

/-- Everything an answer of `resolveNext` can mean (rule R151). -/
theorem resolveNext_ok {s s' : State} {t b : PA} {j : Word} (h : resolveNext s t j = .ok s' b) :
    (isPresent (s.mem.read64 (entryAddr t j).toNat) = true ∧ s' = s ∧
        b = frameAddr (s.mem.read64 (entryAddr t j).toNat)) ∨
    (isPresent (s.mem.read64 (entryAddr t j).toNat) = false ∧ frameOk b = true ∧
        ∃ rest, s.answers = .frame b :: rest ∧ s' = installed s (entryAddr t j).toNat b rest) := by
  simp only [resolveNext, resolveFrom, Run_bind_ok_iff, memRead_ok_iff, WalkJob.ea] at h
  obtain ⟨s1, e, ⟨-, rfl, rfl⟩, h⟩ := h
  split at h
  · rename_i hp
    cases h
    exact .inl ⟨hp, rfl, rfl⟩
  · rename_i hp
    refine .inr ⟨Bool.eq_false_iff.2 hp, ?_⟩
    unfold walkAlloc at h
    split at h
    · cases h
    · rename_i r s2 ha
      obtain ⟨rest, hr, rfl⟩ := allocFrame_eq_some_iff.1 ha
      cases r with
      | exhausted => simp only [walkAnswer] at h; cases h
      | frame f =>
        simp only [walkAnswer] at h
        split at h
        · rename_i hf
          simp only [walkZero, walkInstall, Run_bind_ok_iff, memZero_ok_iff, memWrite_ok_iff] at h
          obtain ⟨_, _, ⟨-, rfl⟩, _, _, ⟨-, rfl⟩, h⟩ := h
          cases h
          exact ⟨hf, rest, hr, rfl⟩
        · cases h

/-- Everything a fault of `resolveNext` can mean: the entry is empty, and the allocator had no frame, or answered one that
is unaligned or not below 2^52; nothing has been written (rule R151 step 3). -/
theorem resolveNext_raise {s s' : State} {t : PA} {j : Word} {f : Cause} {info : Word}
    (h : resolveNext s t j = .raise s' f info) :
    isPresent (s.mem.read64 (entryAddr t j).toNat) = false ∧ ∃ r rest, s.answers = r :: rest ∧
      s' = s.takeAnswer r rest ∧ ((r = .exhausted ∧ f = .allocExhausted ∧ info = entryAddr t j) ∨
        (r = .frame info ∧ f = .allocatorContract ∧ frameOk info = false)) := by
  unfold resolveNext resolveFrom at h
  simp only [WalkJob.ea] at h
  by_cases hb : backed64 s.cfg (entryAddr t j).toNat = true
  · rw [memRead_backed hb, Run_bind_ok] at h
    split at h
    · cases h
    · rename_i hp
      refine ⟨Bool.eq_false_iff.2 hp, ?_⟩
      unfold walkAlloc at h
      split at h
      · cases h
      · rename_i r s2 ha
        obtain ⟨rest, hr, rfl⟩ := allocFrame_eq_some_iff.1 ha
        cases r with
        | exhausted => cases h; exact ⟨_, rest, hr, rfl, .inl ⟨rfl, rfl, rfl⟩⟩
        | frame g =>
          simp only [walkAnswer] at h
          split at h
          · unfold walkZero walkInstall memZero memWrite at h
            split at h
            · simp only [Run_bind_ok] at h
              split at h <;> cases h
            · cases h
          · rename_i hf
            cases h
            exact ⟨_, rest, hr, rfl, .inr ⟨rfl, rfl, Bool.eq_false_iff.2 hf⟩⟩
  · rw [memRead, if_neg hb] at h
    cases h

/-- `resolveNext` on a present entry (rule R151 step 2). -/
theorem resolveNext_present {s : State} {t : PA} {j : Word} (hb : backed64 s.cfg (entryAddr t j).toNat = true)
    (hp : isPresent (s.mem.read64 (entryAddr t j).toNat) = true) :
    resolveNext s t j = .ok s (frameAddr (s.mem.read64 (entryAddr t j).toNat)) := by
  simp [resolveNext, resolveFrom, WalkJob.ea, memRead_backed hb, hp]

/-- `resolveNext` on an empty entry, with a good frame answered (rule R151 steps 3 to 5). -/
theorem resolveNext_install {s : State} {t f : PA} {j : Word} {rest : List AllocAnswer}
    (hb : backed64 s.cfg (entryAddr t j).toNat = true)
    (hp : isPresent (s.mem.read64 (entryAddr t j).toNat) = false)
    (ha : s.answers = .frame f :: rest) (hf : frameOk f = true)
    (hz : ∀ k < 512, backed64 s.cfg (f.toNat + 8 * k) = true) :
    resolveNext s t j = .ok (installed s (entryAddr t j).toNat f rest) f := by
  have hal : allocFrame s = some (.frame f, s.takeAnswer (.frame f) rest) :=
    allocFrame_eq_some_iff.2 ⟨rest, ha, rfl⟩
  have hz' : memZero (ω := WalkJob) (s.takeAnswer (.frame f) rest) f.toNat 512 =
      .ok ((s.takeAnswer (.frame f) rest).setMem (s.mem.zeroEntries f.toNat 512)) () :=
    memZero_ok_iff.2 ⟨hz, rfl⟩
  have hw (v : Word) (m : Memory) : memWrite (ω := WalkJob) ((s.takeAnswer (.frame f) rest).setMem m)
      (entryAddr t j).toNat v = .ok (((s.takeAnswer (.frame f) rest).setMem m).setMem
        (m.write64 (entryAddr t j).toNat v)) () := memWrite_backed hb
  simp [resolveNext, resolveFrom, WalkJob.ea, memRead_backed hb, hp, walkAlloc, hal, walkAnswer, hf, walkZero, hz',
    walkInstall, hw]
  rfl

/-- Going on after one step of the walker is going on before it (rule R153). -/
theorem resolveFrom_walkTick (s : State) (w : WalkJob) :
    resolveFrom s w = (walkTick s w).bind id fun s n =>
      match n with
      | .more w => resolveFrom s w
      | .done t => .ok s t := by
  obtain ⟨t, j, p⟩ := w
  cases p with
  | readEntry =>
    simp only [resolveFrom, walkTick, Run_bind_assoc]
    cases memRead (ω := WalkJob) s (WalkJob.ea ⟨t, j, .readEntry⟩).toNat with
    | ok s e => simp only [Run_bind_ok]; split <;> rfl
    | raise => rfl
    | wait => rfl
    | stop => rfl
  | allocWait =>
    simp only [resolveFrom, walkTick, walkAlloc]
    cases allocFrame s with
    | none => rfl
    | some r =>
      obtain ⟨r, s'⟩ := r
      cases r with
      | exhausted => rfl
      | frame f => simp only [walkAnswer]; split <;> rfl
  | zero f k =>
    simp only [resolveFrom, walkTick]
    by_cases hk : k < 512
    · have e : 512 - k = (512 - (k + 1)) + 1 := by omega
      have ea : f.toNat + 8 * k + 8 = f.toNat + 8 * (k + 1) := by omega
      by_cases hk' : k + 1 < 512
      case neg =>
        have e : 512 - k = 1 := by omega
        rw [if_pos hk, zeroNext, if_neg hk', Run_bind_assoc, walkZero, e]
        rfl
      rw [if_pos hk, zeroNext, if_pos hk', Run_bind_assoc, walkZero, memZero, memZero, e, firstUnbacked, firstUnbacked, firstUnbacked]
      cases hb : backed64 s.cfg (f.toNat + 8 * k) with
      | false => simp
      | true =>
        simp only [if_true, Run_bind_ok, ea]
        show _ = walkZero _ _ f (k + 1)
        rw [walkZero, memZero]
        simp only [State.setMem_cfg, State.setMem_mem]
        cases firstUnbacked s.cfg (f.toNat + 8 * (k + 1)) (512 - (k + 1)) with
        | none =>
          simp only [Run_bind_ok]
          rw [zeroEntries_succ, ea]
          rfl
        | some b => rfl
    · have e : 512 - k = 0 := by omega
      rw [if_neg hk, walkZero, memZero, e]
      rfl
  | install f =>
    simp only [resolveFrom, walkTick, Run_bind_assoc]
    cases walkInstall s (WalkJob.ea ⟨t, j, .install f⟩) f <;> rfl

end Sys2Proof.Laws
end

