-- ==== Sys2Proof/Laws/Blind.lean ====
section
/-! SUPPORT. What the walker and the mapper do not look at: changing fields of the state other than memory, `ALLOCS`,
the configuration and the allocator's side commutes with them (rule R23, rule R35). -/

namespace Sys2Proof.Laws
open Sys2Proof.Machine

/-- A change of the state that leaves alone what the walker and the mapper read and write. -/
structure Unseen (φ : State → State) : Prop where
  mem     : ∀ s, (φ s).mem = s.mem
  cfg     : ∀ s, (φ s).cfg = s.cfg
  answers : ∀ s, (φ s).answers = s.answers
  setMem  : ∀ s m, (φ s).setMem m = φ (s.setMem m)
  count   : ∀ s, (φ s).countTable = φ s.countTable
  take    : ∀ s r rest, (φ s).takeAnswer r rest = φ (s.takeAnswer r rest)

/-- The same end of a part, with the change made to its state. -/
def changed {ω α : Type} (φ : State → State) : Run ω α → Run ω α
  | .ok s a => .ok (φ s) a
  | .raise s f info => .raise (φ s) f info
  | .wait s w => .wait (φ s) w
  | .stop f => .stop f

theorem unseen_suspend (t : Task) : Unseen (fun s => s.suspend t) := by
  constructor <;> intros <;> rfl

theorem unseen_args (v0 v1 v2 v3 : Word) :
    Unseen (fun s => { s with arg0 := v0, arg1 := v1, arg2 := v2, arg3 := v3 }) := by
  constructor <;> intros <;> rfl

theorem changed_bind {ω ω' α β : Type} {φ : State → State} {r : Run ω α} {hold : ω → ω'} {k : State → α → Run ω' β}
    (hk : ∀ s a, k (φ s) a = changed φ (k s a)) : (changed φ r).bind hold k = changed φ (r.bind hold k) := by
  cases r <;> first | rfl | exact hk _ _

variable {φ : State → State} (D : Unseen φ)
include D

theorem memRead_changed {ω : Type} (s : State) (a : Nat) :
    memRead (ω := ω) (φ s) a = changed φ (memRead s a) := by
  unfold memRead; rw [D.cfg, D.mem]; split <;> rfl

theorem memWrite_changed {ω : Type} (s : State) (a : Nat) (v : Word) :
    memWrite (ω := ω) (φ s) a v = changed φ (memWrite s a v) := by
  unfold memWrite; rw [D.cfg, D.mem, D.setMem]; split <;> rfl

theorem memZero_changed {ω : Type} (s : State) (a n : Nat) :
    memZero (ω := ω) (φ s) a n = changed φ (memZero s a n) := by
  unfold memZero; rw [D.cfg, D.mem, D.setMem]; split <;> rfl

theorem walkInstall_changed (s : State) (ea f : PA) : walkInstall (φ s) ea f = changed φ (walkInstall s ea f) := by
  unfold walkInstall
  rw [memWrite_changed D]
  exact changed_bind fun s _ => by rw [D.count]; rfl

theorem walkZero_changed (s : State) (ea f : PA) (k : Nat) :
    walkZero (φ s) ea f k = changed φ (walkZero s ea f k) := by
  unfold walkZero
  rw [memZero_changed D]
  exact changed_bind fun s _ => walkInstall_changed D ..

theorem walkAlloc_changed (s : State) (w : WalkJob) : walkAlloc (φ s) w = changed φ (walkAlloc s w) := by
  unfold walkAlloc allocFrame
  rw [D.answers]
  cases s.answers with
  | nil => rfl
  | cons r rest =>
    cases r with
    | exhausted => simp only [walkAnswer, D.take]; rfl
    | frame f => simp only [walkAnswer, D.take]; split <;> [exact walkZero_changed D ..; rfl]

theorem resolveFrom_changed (s : State) (w : WalkJob) : resolveFrom (φ s) w = changed φ (resolveFrom s w) := by
  unfold resolveFrom
  split
  · rw [memRead_changed D]
    exact changed_bind fun s e => by split <;> [rfl; exact walkAlloc_changed D ..]
  · exact walkAlloc_changed D ..
  · exact walkZero_changed D ..
  · exact walkInstall_changed D ..

theorem leafWrite_changed (s : State) (m : MapJob) (pt : PA) : leafWrite (φ s) m pt = changed φ (leafWrite s m pt) :=
  memWrite_changed D ..

theorem walkThen_changed (s : State) (m : MapJob) (l : WalkLevel) (w : WalkJob) {k : State → PA → Run MapJob Unit}
    (hk : ∀ s t, k (φ s) t = changed φ (k s t)) : walkThen (φ s) m l w k = changed φ (walkThen s m l w k) := by
  unfold walkThen
  rw [resolveFrom_changed D]
  exact changed_bind hk

theorem pageFinish_changed (s : State) (m : MapJob) : pageFinish (φ s) m = changed φ (pageFinish s m) := by
  have pd (s : State) (w : WalkJob) : pageFromPd (φ s) m w = changed φ (pageFromPd s m w) :=
    walkThen_changed D _ _ _ _ fun _ _ => leafWrite_changed D ..
  have pdpt (s : State) (w : WalkJob) : pageFromPdpt (φ s) m w = changed φ (pageFromPdpt s m w) :=
    walkThen_changed D _ _ _ _ fun _ _ => pd ..
  unfold pageFinish
  split
  · exact walkThen_changed D _ _ _ _ fun _ _ => pdpt ..
  · exact pdpt ..
  · exact pd ..
  · exact leafWrite_changed D ..

/-- The mapper works the same on a state whose unseen fields have been changed. -/
theorem mapPages_changed (n : Nat) (s : State) (m : MapJob) : mapPages n (φ s) m = changed φ (mapPages n s m) := by
  induction n generalizing s m with
  | zero => rfl
  | succ n ih =>
    simp only [mapPages]
    rw [pageFinish_changed D]
    exact changed_bind fun s _ => by rw [D.cfg]; exact ih ..

omit D

/-- A command that goes on from another point ends the same: what it held is dropped at its end (rule R35). -/
theorem finish_suspend {ω α : Type} (t : Task) (r : Run ω α) (hold : ω → Task) (k : State → α → Result)
    (hk : ∀ s a, k (s.suspend t) a = k s a) :
    (changed (fun s => s.suspend t) r).finish hold k = r.finish hold k := by
  cases r with
  | ok s a => exact hk s a
  | raise s f info => simp [changed]
  | wait s w => simp [changed]
  | stop => rfl

end Sys2Proof.Laws
end

