-- ==== Sys2Proof/Laws/Tables.lean ====
section
/-! SUPPORT. The laws of the table hierarchy: every table has one level and one path from the root; installing a fresh
table and writing a leaf entry keep the hierarchy a tree; and what each of the two does to the leaf entry that a path
leads to. -/

namespace Sys2Proof.Laws
open Sys2Proof.Machine

/-! Shorthand. -/

/-- `t` is a table of level `l` in the state `s`. -/
abbrev TableIn (s : State) (l : Level) (t : PA) : Prop := Reach s.mem (rootBase s.cfg) l t

theorem reach_frameOk {c : Config} {m : Memory} {l : Level} {t : PA} (h : Reach m (rootBase c) l t) :
    frameOk t = true := by
  cases h with
  | root => exact frameOk_rootBase c
  | child j _ _ _ => exact frameOk_frameAddr _

/-- A table of a level below the root's is pointed at by a present entry of the level above. -/
theorem reach_inv {m : Memory} {r : PA} {l : Level} {t : PA} (h : Reach m r l t) :
    (l = .pml4 ∧ t = r) ∨ ∃ l0 t0 j, Reach m r l0 t0 ∧ l0.below = some l ∧ isPresent (entryOf m t0 j) = true ∧
      t = frameAddr (entryOf m t0 j) := by
  cases h with
  | root => exact .inl ⟨rfl, rfl⟩
  | child j h hb hp => exact .inr ⟨_, _, j, h, hb, hp, rfl⟩

theorem below_inj {l l' k : Level} (h : l.below = some k) (h' : l'.below = some k) : l = l' := by
  cases l <;> cases l' <;> simp_all [Level.below] <;> subst h <;> simp_all

/-- In a tree every table has one level. -/
theorem reach_level_unique {s : State} (ok : TablesOk s) {l l' : Level} {t : PA} (h : TableIn s l t)
    (h' : TableIn s l' t) : l = l' := by
  induction h generalizing l' with
  | root =>
    rcases reach_inv h' with ⟨e, -⟩ | ⟨l0, t0, j, h0, hb, hp, e⟩
    · exact e.symm
    · exact absurd e.symm (ok.top l0 t0 j h0 (by simp [hb]) hp)
  | @child l1 l2 t1 j1 h1 hb1 hp1 ih =>
    rcases reach_inv h' with ⟨-, e⟩ | ⟨l0, t0, j, h0, hb, hp, e⟩
    · exact absurd e (ok.top l1 t1 j1 h1 (by simp [hb1]) hp1)
    · obtain ⟨rfl, -⟩ := ok.parent l1 l0 t1 t0 j1 j h1 h0 (by simp [hb1]) (by simp [hb]) hp1 hp e
      have := ih h0
      subst this
      rw [hb1] at hb
      exact Option.some.inj hb

/-! Paths: the table, and the leaf entry, that a list of indices leads to. -/

theorem below_some_of_depth {l : Level} {n : Nat} (h : l.depth = n + 1) :
    ∃ l', l.below = some l' ∧ l'.depth = n := by
  cases l <;> simp_all [Level.depth, Level.below]

theorem depth_of_below {l l' : Level} (h : l.below = some l') : l.depth = l'.depth + 1 := by
  cases l <;> simp_all [Level.below] <;> subst h <;> rfl

theorem pt_of_depth {l : Level} (h : l.depth = 0) : l = .pt := by
  cases l <;> simp_all [Level.depth]

/-- A path through a tree leads to a table of the level it says. -/
theorem reach_pathFrom {m : Memory} {r : PA} {l : Level} {t p : PA} {js : List (BitVec 9)} (h : Reach m r l t)
    (hp : pathFrom m t js = some p) (hl : js.length ≤ l.depth) :
    ∃ l', Reach m r l' p ∧ l'.depth + js.length = l.depth := by
  induction js generalizing l t with
  | nil => cases hp; exact ⟨l, h, by simp⟩
  | cons j js ih =>
    simp only [List.length_cons] at hl
    obtain ⟨l1, hb, hd⟩ := below_some_of_depth (l := l) (n := l.depth - 1) (by omega)
    simp only [pathFrom] at hp
    split at hp
    · rename_i hpr
      obtain ⟨l', h', e⟩ := ih (Reach.child j h hb hpr) hp (by omega)
      exact ⟨l', h', by simp only [List.length_cons]; omega⟩
    · cases hp

theorem pathFrom_append (m : Memory) (t : PA) (js : List (BitVec 9)) (j : BitVec 9) :
    pathFrom m t (js ++ [j]) = match pathFrom m t js with
      | some p => if isPresent (entryOf m p j) then some (frameAddr (entryOf m p j)) else none
      | none => none := by
  induction js generalizing t with
  | nil => simp [pathFrom]
  | cons k js ih =>
    simp only [List.cons_append, pathFrom]
    split
    · exact ih _
    · rfl

/-- In a tree, two paths of one length from the root to one table are one path. -/
theorem path_unique {s : State} (ok : TablesOk s) {js js' : List (BitVec 9)} {p : PA}
    (h : pathFrom s.mem (rootBase s.cfg) js = some p) (h' : pathFrom s.mem (rootBase s.cfg) js' = some p)
    (hl : js.length = js'.length) (h3 : js.length ≤ 3) : js = js' := by
  induction js using List.reverseRecOn generalizing js' p with
  | nil => exact (List.length_eq_zero_iff.1 hl.symm).symm
  | append_singleton js j ih =>
    rcases List.eq_nil_or_concat js' with rfl | ⟨ks, k, rfl⟩
    · simp at hl
    · simp only [List.concat_eq_append, List.length_append, List.length_singleton] at hl h3 h'
      rw [pathFrom_append] at h h'
      split at h
      · rename_i q hq
        split at h'
        · rename_i q' hq'
          split at h
          · rename_i hpr
            split at h'
            · rename_i hpr'
              obtain ⟨l, hr, hd⟩ := reach_pathFrom Reach.root hq (by simp [Level.depth]; omega)
              obtain ⟨l', hr', hd'⟩ := reach_pathFrom Reach.root hq' (by simp [Level.depth]; omega)
              have hb : l.below.isSome = true := by
                obtain ⟨x, hx, -⟩ := below_some_of_depth (l := l) (n := l.depth - 1) (by have : Level.pml4.depth = 3 := rfl; omega)
                simp [hx]
              have hb' : l'.below.isSome = true := by
                obtain ⟨x, hx, -⟩ := below_some_of_depth (l := l') (n := l'.depth - 1) (by have : Level.pml4.depth = 3 := rfl; omega)
                simp [hx]
              have e := (Option.some.inj h).trans (Option.some.inj h').symm
              obtain ⟨rfl, rfl⟩ := ok.parent l l' q q' j k hr hr' hb hb' hpr hpr' e
              have := ih hq hq' (by omega) (by omega)
              rw [this, List.concat_eq_append]
            · cases h'
          · cases h
        · cases h'
      · cases h

/-! Writing a leaf entry. -/

/-- A store to one entry of a table leaves the entries of all tables alone but that one. -/
theorem entryOf_write64 {m : Memory} {t t' : PA} {j j' : BitVec 9} {v : Word} (ht : frameOk t = true)
    (ht' : frameOk t' = true) :
    entryOf (m.write64 (entryAt t j) v) t' j' = if t' = t ∧ j' = j then v else entryOf m t' j' := by
  unfold entryOf
  split
  · rename_i h; obtain ⟨rfl, rfl⟩ := h; exact read64_write64_same m _ v
  · rename_i h
    exact read64_write64_other (entryAt_apart ht' ht h)

/-- A leaf write changes no table of any level. -/
theorem reach_leafWrite {s : State} (ok : TablesOk s) {p : PA} {i : BitVec 9} {v : Word} (hp : TableIn s .pt p)
    {l : Level} {t : PA} :
    Reach (s.mem.write64 (entryAt p i) v) (rootBase s.cfg) l t ↔ TableIn s l t := by
  have hpf := reach_frameOk hp
  have same {l0 : Level} {t0 : PA} {j : BitVec 9} (h0 : TableIn s l0 t0) (hb : l0.below.isSome = true) :
      entryOf (s.mem.write64 (entryAt p i) v) t0 j = entryOf s.mem t0 j := by
    rw [entryOf_write64 hpf (reach_frameOk h0), if_neg]
    rintro ⟨rfl, -⟩
    have := reach_level_unique ok h0 hp
    subst this
    simp [Level.below] at hb
  constructor
  · intro h
    induction h with
    | root => exact .root
    | child j _ hb hpr ih =>
      rw [same ih (by simp [hb])] at hpr ⊢
      exact .child j ih hb hpr
  · intro h
    induction h with
    | root => exact .root
    | child j h0 hb hpr ih =>
      have e := same (j := j) h0 (by simp [hb])
      rw [← e] at hpr ⊢
      exact .child j ih hb hpr

theorem entryOf_leafWrite {s : State} (ok : TablesOk s) {p : PA} {i : BitVec 9} {v : Word} (hp : TableIn s .pt p)
    {l : Level} {t : PA} {j : BitVec 9} (ht : TableIn s l t) (hb : l.below.isSome = true) :
    entryOf (s.mem.write64 (entryAt p i) v) t j = entryOf s.mem t j := by
  rw [entryOf_write64 (reach_frameOk hp) (reach_frameOk ht), if_neg]
  rintro ⟨rfl, -⟩
  have := reach_level_unique ok ht hp
  subst this
  simp [Level.below] at hb

/-- A leaf write keeps the hierarchy. -/
theorem tablesOk_leafWrite {s : State} (ok : TablesOk s) {p : PA} {i : BitVec 9} {v : Word} (hp : TableIn s .pt p) :
    TablesOk (s.setMem (s.mem.write64 (entryAt p i) v)) := by
  have R {l : Level} {t : PA} := reach_leafWrite (v := v) (i := i) ok hp (l := l) (t := t)
  have E {l : Level} {t : PA} {j : BitVec 9} (ht : TableIn s l t) (hb : l.below.isSome = true) :=
    entryOf_leafWrite (v := v) (i := i) ok hp (j := j) ht hb
  constructor <;> simp only [State.setMem_mem, State.setMem_cfg, State.setMem_granted]
  · intro l t h; exact ok.own l t (R.1 h)
  · intro l l' t t' j j' h h' hb hb' h1 h2 e
    rw [R] at h h'
    rw [E h hb] at h1 e
    rw [E h' hb'] at h2 e
    exact ok.parent l l' t t' j j' h h' hb hb' h1 h2 e
  · intro l t j h hb h1
    rw [R] at h
    rw [E h hb] at h1 ⊢
    exact ok.top l t j h hb h1
  · intro l t j h hb h1
    rw [R] at h
    rw [E h hb] at h1 ⊢
    exact ok.small l t j h hb h1
  · intro l t h; exact ok.inMem l t (R.1 h)

/-- A leaf write changes no path. -/
theorem pathFrom_leafWrite {s : State} (ok : TablesOk s) {p : PA} {i : BitVec 9} {v : Word} (hp : TableIn s .pt p)
    {l : Level} {t : PA} (ht : TableIn s l t) {js : List (BitVec 9)} (hl : js.length ≤ l.depth) :
    pathFrom (s.mem.write64 (entryAt p i) v) t js = pathFrom s.mem t js := by
  induction js generalizing l t with
  | nil => rfl
  | cons j js ih =>
    simp only [List.length_cons] at hl
    obtain ⟨l1, hb, hd⟩ := below_some_of_depth (l := l) (n := l.depth - 1) (by omega)
    simp only [pathFrom, entryOf_leafWrite ok hp ht (show l.below.isSome = true by simp [hb])]
    split
    · rename_i hpr; exact ih (Reach.child j ht hb hpr) (by omega)
    · rfl

/-- After a leaf write the path to the slot leads to the entry written, and every other path to the leaf entry it led
to before. -/
theorem leafFrom_leafWrite {s : State} (ok : TablesOk s) {p : PA} {i : BitVec 9} {v : Word}
    {js : List (BitVec 9)} (hl : js.length = 3) (hj : pathFrom s.mem (rootBase s.cfg) js = some p)
    (hv : isPresent v = true) {js' : List (BitVec 9)} {i' : BitVec 9} (hl' : js'.length = 3) :
    leafFrom (s.mem.write64 (entryAt p i) v) (rootBase s.cfg) js' i' =
      if js' = js ∧ i' = i then some v else leafFrom s.mem (rootBase s.cfg) js' i' := by
  obtain ⟨l, hp, hd⟩ := reach_pathFrom Reach.root hj (by simp [Level.depth, hl])
  have := pt_of_depth (l := l) (by have : Level.pml4.depth = 3 := rfl; omega)
  subst this
  unfold leafFrom
  rw [pathFrom_leafWrite ok hp Reach.root (by simp [Level.depth, hl'])]
  split
  · rename_i q hq
    obtain ⟨l, hqr, hd⟩ := reach_pathFrom Reach.root hq (by simp [Level.depth, hl'])
    rw [entryOf_write64 (reach_frameOk hp) (reach_frameOk hqr)]
    by_cases hc : q = p ∧ i' = i
    · obtain ⟨rfl, rfl⟩ := hc
      have := path_unique ok hj hq (by omega) (by omega)
      subst this
      simp [hv]
    · have hne : ¬ (js' = js ∧ i' = i) := by
        rintro ⟨rfl, rfl⟩
        exact hc ⟨Option.some.inj (hq.symm.trans hj), rfl⟩
      simp only [hc, hne, if_false]
  · rename_i hn
    rw [if_neg]
    rintro ⟨rfl, -⟩
    rw [hj] at hn
    cases hn

/-! Installing a table. -/

/-- What the walker installs in: a missing entry of a table, with a frame that is fresh. -/
structure CanInstall (s : State) (l l' : Level) (t : PA) (j : BitVec 9) (f : PA) : Prop where
  ok    : TablesOk s
  table : TableIn s l t
  next  : l.below = some l'
  empty : isPresent (entryOf s.mem t j) = false
  fresh : freshFrame s f

theorem freshFrame_not_table {s : State} (ok : TablesOk s) {f : PA} (hf : freshFrame s f) {l : Level} {t : PA}
    (ht : TableIn s l t) : t ≠ f := by
  rintro rfl
  rcases ok.own l t ht with e | e
  · exact hf.2.2.1 e
  · exact hf.2.2.2 e

section
variable {s : State} {l l' : Level} {t : PA} {j : BitVec 9} {f : PA} {rest : List AllocAnswer}

theorem entryOf_installed_old (h : CanInstall s l l' t j f) {k : Level} {x : PA} {i : BitVec 9} (hx : TableIn s k x) :
    entryOf (installed s (entryAt t j) f rest).mem x i = if x = t ∧ i = j then initWord f else entryOf s.mem x i := by
  have hxf := reach_frameOk hx
  have e : (installed s (entryAt t j) f rest).mem = (s.mem.zeroEntries f.toNat 512).write64 (entryAt t j) (initWord f) :=
    rfl
  rw [e, entryOf_write64 (reach_frameOk h.table) hxf]
  split
  · rfl
  · have := entryAt_outside (j := i) hxf h.fresh.1 (freshFrame_not_table h.ok h.fresh hx)
    exact read64_zeroEntries_other (by omega)

theorem entryOf_installed_new (h : CanInstall s l l' t j f) {i : BitVec 9} :
    entryOf (installed s (entryAt t j) f rest).mem f i = 0#64 := by
  have e : (installed s (entryAt t j) f rest).mem = (s.mem.zeroEntries f.toNat 512).write64 (entryAt t j) (initWord f) :=
    rfl
  rw [e, entryOf_write64 (reach_frameOk h.table) h.fresh.1, if_neg]
  · have := entryAt_inside (j := i) h.fresh.1
    exact read64_zeroEntries_same (by omega)
  · rintro ⟨e, -⟩
    exact freshFrame_not_table h.ok h.fresh h.table e.symm

theorem present_installed_old (h : CanInstall s l l' t j f) {k : Level} {x : PA} {i : BitVec 9} (hx : TableIn s k x)
    (hp : isPresent (entryOf s.mem x i) = true) :
    entryOf (installed s (entryAt t j) f rest).mem x i = entryOf s.mem x i := by
  rw [entryOf_installed_old h hx, if_neg]
  rintro ⟨rfl, rfl⟩
  rw [h.empty] at hp
  cases hp

/-- The tables after an install are the tables before and the new one. -/
theorem reach_installed (h : CanInstall s l l' t j f) {k : Level} {x : PA} :
    TableIn (installed s (entryAt t j) f rest) k x ↔ TableIn s k x ∨ (k = l' ∧ x = f) := by
  have ec : (installed s (entryAt t j) f rest).cfg = s.cfg := rfl
  have keep {k : Level} {x : PA} (hx : TableIn s k x) : TableIn (installed s (entryAt t j) f rest) k x := by
    unfold TableIn at *
    rw [ec]
    induction hx with
    | root => exact .root
    | child i h0 hb hp ih =>
      have e := present_installed_old (rest := rest) h h0 hp
      rw [← e] at hp ⊢
      exact .child i ih hb hp
  constructor
  · intro hx
    unfold TableIn at hx
    rw [ec] at hx
    induction hx with
    | root => exact .inl .root
    | @child k1 k2 x1 i _ hb hp ih =>
      rcases ih with h0 | ⟨rfl, rfl⟩
      · rw [entryOf_installed_old h h0] at hp ⊢
        split at hp
        · rename_i hc
          obtain ⟨rfl, rfl⟩ := hc
          right
          have := reach_level_unique h.ok h0 h.table
          subst this
          rw [h.next] at hb
          rw [if_pos ⟨rfl, rfl⟩]
          exact ⟨(Option.some.inj hb).symm, frameAddr_initWord_of_frame h.fresh.1⟩
        · rename_i hc
          rw [if_neg hc]
          exact .inl (.child i h0 hb hp)
      · rw [entryOf_installed_new h] at hp
        rw [isPresent_zero] at hp
        cases hp
  · rintro (hx | ⟨rfl, rfl⟩)
    · exact keep hx
    · have e : entryOf (installed s (entryAt t j) x rest).mem t j = initWord x := by
        rw [entryOf_installed_old h h.table, if_pos ⟨rfl, rfl⟩]
      have := Reach.child j (keep h.table) h.next (by rw [e]; exact isPresent_initWord x)
      rw [e, frameAddr_initWord_of_frame h.fresh.1] at this
      exact this

/-- An install keeps the hierarchy. -/
theorem tablesOk_installed (h : CanInstall s l l' t j f) : TablesOk (installed s (entryAt t j) f rest) := by
  have R {k : Level} {x : PA} := reach_installed (rest := rest) h (k := k) (x := x)
  have ec : (installed s (entryAt t j) f rest).cfg = s.cfg := rfl
  have eg : (installed s (entryAt t j) f rest).granted = f :: s.granted := rfl
  -- a present entry of a table above the leaf level is an old one, or the new edge
  have edge {k : Level} {x : PA} {i : BitVec 9} (hx : TableIn (installed s (entryAt t j) f rest) k x)
      (hp : isPresent (entryOf (installed s (entryAt t j) f rest).mem x i) = true) :
      TableIn s k x ∧ ((x = t ∧ i = j ∧ entryOf (installed s (entryAt t j) f rest).mem x i = initWord f) ∨
        (isPresent (entryOf s.mem x i) = true ∧
          entryOf (installed s (entryAt t j) f rest).mem x i = entryOf s.mem x i)) := by
    rcases R.1 hx with h0 | ⟨rfl, rfl⟩
    · refine ⟨h0, ?_⟩
      have e := entryOf_installed_old (rest := rest) h h0 (i := i)
      split at e
      · rename_i hc; exact .inl ⟨hc.1, hc.2, e⟩
      · rw [e] at hp; exact .inr ⟨hp, e⟩
    · rw [entryOf_installed_new h, isPresent_zero] at hp; cases hp
  have old {k : Level} {x : PA} {i : BitVec 9} (hx : TableIn s k x) (hb : k.below.isSome = true)
      (hp : isPresent (entryOf s.mem x i) = true) : frameAddr (entryOf s.mem x i) ≠ f := by
    obtain ⟨k', hk⟩ := Option.isSome_iff_exists.1 hb
    exact freshFrame_not_table h.ok h.fresh (Reach.child i hx hk hp)
  constructor
  · intro k x hx
    rw [ec, eg]
    rcases R.1 hx with h0 | ⟨-, rfl⟩
    · rcases h.ok.own k x h0 with e | e
      · exact .inl e
      · exact .inr (List.mem_cons_of_mem _ e)
    · exact .inr (List.mem_cons_self ..)
  · intro k k' x x' i i' hx hx' hb hb' hp hp' e
    obtain ⟨h0, c⟩ := edge hx hp
    obtain ⟨h0', c'⟩ := edge hx' hp'
    rcases c with ⟨rfl, rfl, e1⟩ | ⟨p1, e1⟩ <;> rcases c' with ⟨rfl, rfl, e2⟩ | ⟨p2, e2⟩
    · exact ⟨rfl, rfl⟩
    · rw [e1, e2, frameAddr_initWord_of_frame h.fresh.1] at e
      exact absurd e.symm (old h0' hb' p2)
    · rw [e1, e2, frameAddr_initWord_of_frame h.fresh.1] at e
      exact absurd e (old h0 hb p1)
    · rw [e1, e2] at e
      exact h.ok.parent k k' x x' i i' h0 h0' hb hb' p1 p2 e
  · intro k x i hx hb hp
    obtain ⟨h0, c⟩ := edge hx hp
    rcases c with ⟨rfl, rfl, e1⟩ | ⟨p1, e1⟩
    · rw [e1, frameAddr_initWord_of_frame h.fresh.1]; exact h.fresh.2.2.1
    · rw [e1]; exact h.ok.top k x i h0 hb p1
  · intro k x i hx hb hp
    obtain ⟨h0, c⟩ := edge hx hp
    rcases c with ⟨rfl, rfl, e1⟩ | ⟨p1, e1⟩
    · rw [e1, initWord_bit f 7 (by decide)]; rfl
    · rw [e1]; exact h.ok.small k x i h0 hb p1
  · intro k x hx
    rw [ec]
    rcases R.1 hx with h0 | ⟨-, rfl⟩
    · exact h.ok.inMem k x h0
    · exact h.fresh.2.1

/-- An install changes no leaf entry: the new table is empty. -/
theorem leafFrom_installed (h : CanInstall s l l' t j f) {k : Level} {x : PA} (hx : TableIn s k x)
    {js : List (BitVec 9)} {i : BitVec 9} (hl : js.length = k.depth) :
    leafFrom (installed s (entryAt t j) f rest).mem x js i = leafFrom s.mem x js i := by
  induction js generalizing k x with
  | nil =>
    simp only [leafFrom, pathFrom]
    have hk := pt_of_depth hl.symm
    subst hk
    have hne : ¬ (x = t ∧ i = j) := by
      rintro ⟨rfl, -⟩
      have := reach_level_unique h.ok hx h.table
      subst this
      have := h.next
      simp [Level.below] at this
    simp only [entryOf_installed_old h hx, hne, if_false]
  | cons i0 js ih =>
    simp only [List.length_cons] at hl
    obtain ⟨k1, hb, hd⟩ := below_some_of_depth hl.symm
    by_cases hc : x = t ∧ i0 = j
    · obtain ⟨rfl, rfl⟩ := hc
      have e : entryOf (installed s (entryAt x i0) f rest).mem x i0 = initWord f := by
        rw [entryOf_installed_old h hx, if_pos ⟨rfl, rfl⟩]
      simp only [leafFrom, pathFrom, e, isPresent_initWord, h.empty, frameAddr_initWord_of_frame h.fresh.1, if_true,
        Bool.false_eq_true, if_false]
      cases js with
      | nil => simp [pathFrom, entryOf_installed_new h, isPresent_zero]
      | cons => simp [pathFrom, entryOf_installed_new h, isPresent_zero]
    · have e := entryOf_installed_old (rest := rest) h hx (i := i0)
      rw [if_neg hc] at e
      simp only [leafFrom, pathFrom, e]
      split
      · rename_i hp
        split at hp
        · rename_i hpr
          have := ih (Reach.child i0 hx hb hpr) hd.symm
          simp only [leafFrom] at this
          rw [hp] at this
          simp only [hpr, if_true]
          exact this
        · cases hp
      · rename_i hp
        split at hp
        · rename_i hpr
          have := ih (Reach.child i0 hx hb hpr) hd.symm
          simp only [leafFrom] at this
          rw [hp] at this
          simp only [hpr, if_true]
          exact this
        · rename_i hpr; simp [hpr]

end

/-- Taking a good frame leaves the allocator's promise for the rest. -/
theorem allocatorFresh_rest {s : State} {f : PA} {rest : List AllocAnswer} (h : AllocatorFresh s)
    (ha : s.answers = .frame f :: rest) (hf : frameOk f = true) (ea : Nat) :
    AllocatorFresh (installed s ea f rest) ∧ freshFrame s f := by
  have hp := h.2
  rw [ha, List.pairwise_cons] at hp
  refine ⟨⟨fun g (hg : _ ∈ rest) ho => ?_, hp.2⟩, h.1 f (by simp [ha]) hf⟩
  obtain ⟨h1, h2, h3, h4⟩ := h.1 g (by simp [ha, hg]) ho
  refine ⟨h1, h2, h3, ?_⟩
  have eg : (installed s ea f rest).granted = f :: s.granted := rfl
  rw [eg, List.mem_cons]
  rintro (rfl | hm)
  · rw [hp.1 _ hg _ rfl rfl] at ho; cases ho
  · exact h4 hm

/-- The allocator that keeps its promise for every frame is the one that answers no other. -/
theorem allocatorOk_iff {s : State} :
    AllocatorOk s ↔ AllocatorFresh s ∧ ∀ f, AllocAnswer.frame f ∈ s.answers → frameOk f = true := by
  constructor
  · refine fun h => ⟨⟨fun f hf _ => h.1 f hf, h.2.imp ?_⟩, fun f hf => (h.1 f hf).1⟩
    rintro _ _ hr f rfl rfl
    cases hr rfl
  · rintro ⟨h, ho⟩
    refine ⟨fun f hf => h.1 f hf (ho f hf), h.2.imp_of_mem ?_⟩
    rintro r _ hr - hn rfl
    cases r with
    | exhausted => rfl
    | frame f => have := hn f rfl rfl; rw [ho f hr] at this; cases this

end Sys2Proof.Laws
end

