-- ==== Sys2Proof/Laws/Mapper.lean ====
section
/-! SUPPORT. What the mapper does to a sound hierarchy: a walker call only adds tables, and a page adds tables and
writes its own leaf entry (rule R170, rule R172, rule R173). -/

namespace Sys2Proof.Laws
open Sys2Proof.Machine

theorem onlyTables_refl (s : State) : onlyTables s s := rfl

theorem onlyTables_trans {s s' s'' : State} (h : onlyTables s s') (h' : onlyTables s' s'') : onlyTables s s'' := by
  unfold onlyTables at *
  rw [h']
  rw [h]

theorem onlyTables_installed (s : State) (ea : Nat) (f : PA) (rest : List AllocAnswer) :
    onlyTables s (installed s ea f rest) := rfl

theorem onlyTables_setMem (s : State) (m : Memory) : onlyTables s (s.setMem m) := rfl

theorem onlyTables_cfg {s s' : State} (h : onlyTables s s') : s'.cfg = s.cfg := by rw [h]

/-! What has been taken from the allocator, and which bytes can have changed. -/

theorem drew_refl (s : State) : Drew s s [] := ⟨rfl, rfl, by simp⟩

theorem drew_setMem (s : State) (m : Memory) : Drew s (s.setMem m) [] := ⟨rfl, rfl, by simp⟩

theorem drew_trans {s s' s'' : State} {fs gs : List PA} (h : Drew s s' fs) (h' : Drew s' s'' gs) :
    Drew s s'' (gs ++ fs) where
  granted := by rw [h'.granted, h.granted, List.append_assoc]
  answers := by rw [h.answers, h'.answers]; simp
  allocs := by rw [h'.allocs, h.allocs]; simp [BitVec.ofNat_add, BitVec.add_assoc, BitVec.add_comm]

theorem drew_installed {s : State} {f : PA} {rest : List AllocAnswer} (ea : Nat) (h : s.answers = .frame f :: rest) :
    Drew s (installed s ea f rest) [f] := ⟨rfl, h, rfl⟩

theorem drew_mem {s s' : State} {fs : List PA} (h : Drew s s' fs) {r : AllocAnswer} (hr : r ∈ s'.answers) :
    r ∈ s.answers := by rw [h.answers]; exact List.mem_append_right _ hr

/-- A byte of the root's page or of a frame taken. -/
def ownByte (s : State) (a : Nat) : Prop :=
  a / 4096 = s.cfg.rootFrame.toNat ∨ ∃ f ∈ s.granted, f.toNat ≤ a ∧ a < f.toNat + 4096

/-- Every byte outside the root's page and the frames taken is as before. -/
def Untouched (s s' : State) : Prop := ∀ a, ¬ ownByte s' a → s'.mem.byte a = s.mem.byte a

theorem untouched_refl (s : State) : Untouched s s := fun _ _ => rfl

theorem ownByte_drew {s s' : State} {fs : List PA} (h : Drew s s' fs) (hc : s'.cfg = s.cfg) {a : Nat}
    (ha : ownByte s a) : ownByte s' a := by
  unfold ownByte at *
  rw [hc, h.granted]
  exact ha.imp id fun ⟨f, hf, h⟩ => ⟨f, List.mem_append_right _ hf, h⟩

theorem untouched_trans {s s' s'' : State} {fs : List PA} (h : Untouched s s') (h' : Untouched s' s'')
    (d : Drew s' s'' fs) (hc : s''.cfg = s'.cfg) : Untouched s s'' := fun a ha => by
  rw [h' a ha, h a fun ho => ha (ownByte_drew d hc ho)]

/-- The bytes of an entry of a table of a sound hierarchy are the block's own. -/
theorem ownByte_entry {s : State} (ok : TablesOk s) {l : Level} {t : PA} (ht : TableIn s l t) (j : BitVec 9) {a : Nat}
    (h : entryAt t j ≤ a) (h' : a < entryAt t j + 8) : ownByte s a := by
  have hi := entryAt_inside (j := j) (reach_frameOk ht)
  rcases ok.own l t ht with rfl | hg
  · left
    have := rootBase_toNat s.cfg
    omega
  · exact .inr ⟨t, hg, by omega, by omega⟩

/-- A sound hierarchy has only grown: its tables, its present entries and what every path leads to are as before, and the
frames taken, latest first, are its new tables. -/
structure Grown (s s' : State) : Prop where
  only   : onlyTables s s'
  ok     : TablesOk s'
  alloc  : AllocatorFresh s'
  tables : ∀ l x, TableIn s l x → TableIn s' l x
  keeps  : ∀ l x i, TableIn s l x → isPresent (entryOf s.mem x i) = true → entryOf s'.mem x i = entryOf s.mem x i
  leaves : ∀ js i, js.length = 3 → leafFrom s'.mem (rootBase s'.cfg) js i = leafFrom s.mem (rootBase s.cfg) js i
  drew   : ∃ fs, Drew s s' fs
  bytes  : Untouched s s'

theorem grown_refl {s : State} (ok : TablesOk s) (al : AllocatorFresh s) : Grown s s :=
  ⟨rfl, ok, al, fun _ _ h => h, fun _ _ _ _ _ => rfl, fun _ _ _ => rfl, ⟨[], drew_refl s⟩,
    untouched_refl s⟩

theorem grown_trans {s s' s'' : State} (h : Grown s s') (h' : Grown s' s'') : Grown s s'' where
  only := onlyTables_trans h.only h'.only
  ok := h'.ok
  alloc := h'.alloc
  tables l x hx := h'.tables l x (h.tables l x hx)
  keeps l x i hx hp := by
    have e := h.keeps l x i hx hp
    rw [h'.keeps l x i (h.tables l x hx) (by rw [e]; exact hp), e]
  leaves js i hl := by rw [h'.leaves js i hl, h.leaves js i hl]
  drew := h.drew.elim fun _ d => h'.drew.imp' _ fun _ d' => drew_trans d d'
  bytes := h'.drew.elim fun _ d => untouched_trans h.bytes h'.bytes d (onlyTables_cfg h'.only)

/-- A walker call on a table of a sound hierarchy: the hierarchy has grown, and the entry leads to the answer. -/
theorem resolveNext_grown {s s' : State} {l l' : Level} {t b : PA} {j : BitVec 9} (ok : TablesOk s)
    (al : AllocatorFresh s) (ht : TableIn s l t) (hb : l.below = some l') (h : resolveNext s t (j.setWidth 64) = .ok s' b) :
    Grown s s' ∧ TableIn s' l' b ∧ isPresent (entryOf s'.mem t j) = true ∧ frameAddr (entryOf s'.mem t j) = b := by
  rcases resolveNext_ok h with ⟨hp, rfl, rfl⟩ | ⟨hp, hf, rest, ha, rfl⟩
  · exact ⟨grown_refl ok al, Reach.child j ht hb hp, hp, rfl⟩
  · obtain ⟨al', fr⟩ := allocatorFresh_rest al ha hf (entryAt t j)
    have c : CanInstall s l l' t j b := ⟨ok, ht, hb, hp, fr⟩
    have e : entryOf (installed s (entryAt t j) b rest).mem t j = initWord b := by
      rw [entryOf_installed_old c ht, if_pos ⟨rfl, rfl⟩]
    refine ⟨⟨rfl, tablesOk_installed c, al', fun l x hx => (reach_installed c).2 (.inl hx),
      fun l x i hx hpr => present_installed_old c hx hpr, fun js i hl => ?_, ⟨[b], drew_installed _ ha⟩, fun a hn => ?_⟩,
      (reach_installed c).2 (.inr ⟨rfl, rfl⟩), ?_, ?_⟩
    · exact leafFrom_installed c (k := .pml4) Reach.root (by rw [hl]; rfl)
    · have hn1 : ¬ (entryAt t j ≤ a ∧ a < entryAt t j + 8) := fun hc =>
        hn (ownByte_drew (drew_installed _ ha) rfl (ownByte_entry ok ht j hc.1 hc.2))
      have hn2 : ¬ (b.toNat ≤ a ∧ a < b.toNat + 4096) := fun hc => hn (.inr ⟨b, List.mem_cons_self .., hc⟩)
      exact (byte_write64_other (a := entryAt t j) (by omega)).trans (byte_zeroEntries_other (by omega))
    · exact (congrArg isPresent e).trans (isPresent_initWord b)
    · exact (congrArg frameAddr e).trans (frameAddr_initWord_of_frame fr.1)

theorem pathOf_length (va : VA) : (pathOf va).length = 3 := rfl

/-- What one page of the mapper leaves of a sound hierarchy: a sound hierarchy, in which the page's slot holds the
initialize word of its physical address, every other slot leads to what it led to, and every present entry but the
slot's is as before. -/
structure PageMapped (s s' : State) (va : VA) (pa : PA) : Prop where
  only   : onlyTables s s'
  ok     : TablesOk s'
  alloc  : AllocatorFresh s'
  drew   : ∃ fs, Drew s s' fs
  bytes  : Untouched s s'
  tables : ∀ l x, TableIn s l x → TableIn s' l x
  leaves : ∀ js i, js.length = 3 → leafFrom s'.mem (rootBase s'.cfg) js i =
    if js = pathOf va ∧ i = (splitVA va).i1 then some (initWord pa) else leafFrom s.mem (rootBase s.cfg) js i
  keeps  : ∃ p, pathFrom s'.mem (rootBase s'.cfg) (pathOf va) = some p ∧
    ∀ l x i, TableIn s l x → isPresent (entryOf s.mem x i) = true → ¬ (x = p ∧ i = (splitVA va).i1) →
      entryOf s'.mem x i = entryOf s.mem x i

/-- One page of the mapper (rule R170). -/
theorem pageFinish_mapped {s s' : State} {m : MapJob} {u : Unit} (ok : TablesOk s) (al : AllocatorFresh s)
    (hm : m.point = .walking .pml4 ⟨rootBase s.cfg, levelIndex m.va .pml4, .readEntry⟩)
    (h : pageFinish s m = .ok s' u) : PageMapped s s' m.va m.pa := by
  simp only [pageFinish, hm, pageFromPml4, pageFromPdpt, pageFromPd, walkThen, Run_bind_ok_iff] at h
  obtain ⟨s1, b1, h1, s2, b2, h2, s3, b3, h3, h4⟩ := h
  obtain ⟨g1, t1, p1, f1⟩ := resolveNext_grown (l := .pml4) ok al Reach.root rfl h1
  obtain ⟨g2, t2, p2, f2⟩ := resolveNext_grown g1.ok g1.alloc t1 rfl h2
  obtain ⟨g3, t3, p3, f3⟩ := resolveNext_grown g2.ok g2.alloc t2 rfl h3
  have g := grown_trans (grown_trans g1 g2) g3
  have ec3 := onlyTables_cfg g.only
  have ec1 := onlyTables_cfg g1.only
  have ec2 := onlyTables_cfg (onlyTables_trans g1.only g2.only)
  -- the path of the page in the state before the leaf write
  have e1 : entryOf s3.mem (rootBase s.cfg) (splitVA m.va).i4 = entryOf s1.mem (rootBase s.cfg) (splitVA m.va).i4 := by
    have r1 : TableIn s1 .pml4 (rootBase s.cfg) := by rw [← ec1]; exact Reach.root
    have e := g2.keeps _ _ _ r1 p1
    rw [g3.keeps _ _ _ (g2.tables _ _ r1) (by rw [e]; exact p1), e]
  have e2 : entryOf s3.mem b1 (splitVA m.va).i3 = entryOf s2.mem b1 (splitVA m.va).i3 :=
    g3.keeps _ _ _ (g2.tables _ _ t1) p2
  have path : pathFrom s3.mem (rootBase s3.cfg) (pathOf m.va) = some b3 := by
    simp only [pathOf, pathFrom, ec3, e1, p1, if_true, f1, e2, p2, f2, p3, f3]
  simp only [leafWrite, memWrite_ok_iff] at h4
  obtain ⟨-, rfl⟩ := h4
  have tp := tablesOk_leafWrite (v := initWord m.pa) (i := (splitVA m.va).i1) g.ok t3
  have R {l : Level} {x : PA} := reach_leafWrite (v := initWord m.pa) (i := (splitVA m.va).i1) g.ok t3 (l := l) (t := x)
  have by3 : Untouched s3 (s3.setMem (s3.mem.write64 (entryAt b3 (splitVA m.va).i1) (initWord m.pa))) := fun a hn => by
    have : ¬ (entryAt b3 (splitVA m.va).i1 ≤ a ∧ a < entryAt b3 (splitVA m.va).i1 + 8) := fun hc =>
      hn (ownByte_entry g.ok t3 _ hc.1 hc.2)
    exact byte_write64_other (by omega)
  obtain ⟨fs, d⟩ := g.drew
  refine ⟨onlyTables_trans g.only rfl, tp, g.alloc, ⟨_, drew_trans d (drew_setMem s3 _)⟩, untouched_trans g.bytes by3 (drew_setMem s3 _) rfl,
    fun l x hx => R.2 (g.tables l x hx), ?_, b3, ?_, ?_⟩
  · intro js i hl
    have e := leafFrom_leafWrite g.ok (pathOf_length m.va) path (isPresent_initWord m.pa) hl (i := (splitVA m.va).i1) (i' := i)
    have g' := g.leaves js i hl
    rw [g'] at e
    exact e
  · have e := pathFrom_leafWrite (v := initWord m.pa) (i := (splitVA m.va).i1) g.ok t3 (l := .pml4) Reach.root
      (js := pathOf m.va) (by rw [pathOf_length]; decide)
    exact e.trans path
  · intro l x i hx hp hne
    have e := entryOf_write64 (m := s3.mem) (v := initWord m.pa) (j := (splitVA m.va).i1) (j' := i) (reach_frameOk t3)
      (reach_frameOk hx)
    rw [if_neg hne, g.keeps l x i hx hp] at e
    exact e

end Sys2Proof.Laws
end

