-- ==== Sys2Proof/Laws/Frame.lean ====
section
/-! SUPPORT. The frame of the walker and the mapper: however a part of them ends, only memory, `ALLOCS` and the
allocator's side have changed (rule R151, rule R170). -/

namespace Sys2Proof.Laws
open Sys2Proof.Machine

/-- `P` holds of the state a part of a command ends in, whether it goes on, faults or waits. -/
def Ends {ω α : Type} (P : State → Prop) : Run ω α → Prop
  | .ok s _ => P s
  | .raise s _ _ => P s
  | .wait s _ => P s
  | .stop _ => True

theorem ends_bind {ω ω' α β : Type} {P : State → Prop} {r : Run ω α} {hold : ω → ω'} {k : State → α → Run ω' β}
    (h : Ends P r) (hk : ∀ s a, P s → Ends P (k s a)) : Ends P (r.bind hold k) := by
  cases r with
  | ok s a => exact hk s a h
  | raise s f info => exact h
  | wait s w => exact h
  | stop f => exact trivial

theorem ends_mono {ω α : Type} {P Q : State → Prop} {r : Run ω α} (h : Ends P r) (hq : ∀ s, P s → Q s) : Ends Q r := by
  cases r with
  | stop => exact trivial
  | _ => exact hq _ h

theorem memRead_only {ω : Type} {s0 s : State} (a : Nat) (h : onlyTables s0 s) :
    Ends (onlyTables s0) (memRead (ω := ω) s a) := by
  unfold memRead
  split
  · exact h
  · exact trivial

theorem memWrite_only {ω : Type} {s0 s : State} (a : Nat) (v : Word) (h : onlyTables s0 s) :
    Ends (onlyTables s0) (memWrite (ω := ω) s a v) := by
  unfold memWrite
  split
  · exact onlyTables_trans h rfl
  · exact trivial

theorem memZero_only {ω : Type} {s0 s : State} (a n : Nat) (h : onlyTables s0 s) :
    Ends (onlyTables s0) (memZero (ω := ω) s a n) := by
  unfold memZero
  split
  · exact onlyTables_trans h rfl
  · exact trivial

theorem walkInstall_only {s0 s : State} (ea f : PA) (h : onlyTables s0 s) :
    Ends (onlyTables s0) (walkInstall s ea f) :=
  ends_bind (memWrite_only _ _ h) fun _ _ h' => onlyTables_trans h' rfl

theorem walkZero_only {s0 s : State} (ea f : PA) (k : Nat) (h : onlyTables s0 s) :
    Ends (onlyTables s0) (walkZero s ea f k) :=
  ends_bind (memZero_only _ _ h) fun _ _ h' => walkInstall_only _ _ h'

theorem walkAlloc_only {s0 s : State} (w : WalkJob) (h : onlyTables s0 s) :
    Ends (onlyTables s0) (walkAlloc s w) := by
  unfold walkAlloc
  split
  · exact h
  · rename_i r s' ha
    obtain ⟨rest, -, rfl⟩ := allocFrame_eq_some_iff.1 ha
    have h' : onlyTables s0 (s.takeAnswer r rest) := onlyTables_trans h rfl
    cases r with
    | exhausted => exact h'
    | frame f =>
      unfold walkAnswer
      simp only
      split
      · exact walkZero_only _ _ _ h'
      · exact h'

/-- A walker call changes only memory, `ALLOCS` and the allocator's side, from whatever point it goes on. -/
theorem resolveFrom_only {s0 s : State} (w : WalkJob) (h : onlyTables s0 s) :
    Ends (onlyTables s0) (resolveFrom s w) := by
  unfold resolveFrom
  split
  · refine ends_bind (memRead_only _ h) fun s' e h' => ?_
    split
    · exact h'
    · exact walkAlloc_only _ h'
  · exact walkAlloc_only _ h
  · exact walkZero_only _ _ _ h
  · exact walkInstall_only _ _ h

/-- So does one step of the walker. -/
theorem walkTick_only {s0 s : State} (w : WalkJob) (h : onlyTables s0 s) : Ends (onlyTables s0) (walkTick s w) := by
  unfold walkTick
  split
  · refine ends_bind (memRead_only _ h) fun s' e h' => ?_
    split <;> exact h'
  · split
    · exact h
    · rename_i r s' ha
      obtain ⟨rest, -, rfl⟩ := allocFrame_eq_some_iff.1 ha
      have h' : onlyTables s0 (s.takeAnswer r rest) := onlyTables_trans h rfl
      cases r with
      | exhausted => exact h'
      | frame f =>
        unfold walkAnswer
        simp only
        split <;> exact h'
  · split
    · exact ends_bind (memZero_only _ _ h) fun s' _ h' => h'
    · exact h
  · exact ends_bind (walkInstall_only _ _ h) fun s' _ h' => h'

theorem leafWrite_only {s0 s : State} (m : MapJob) (pt : PA) (h : onlyTables s0 s) :
    Ends (onlyTables s0) (leafWrite s m pt) := memWrite_only _ _ h

theorem walkThen_only {s0 s : State} (m : MapJob) (l : WalkLevel) (w : WalkJob) {k : State → PA → Run MapJob Unit}
    (h : onlyTables s0 s) (hk : ∀ s t, onlyTables s0 s → Ends (onlyTables s0) (k s t)) :
    Ends (onlyTables s0) (walkThen s m l w k) :=
  ends_bind (resolveFrom_only w h) hk

/-- A page changes only memory, `ALLOCS` and the allocator's side, from whatever point it goes on. -/
theorem pageFinish_only {s0 s : State} (m : MapJob) (h : onlyTables s0 s) : Ends (onlyTables s0) (pageFinish s m) := by
  have pd {s : State} (w : WalkJob) (h : onlyTables s0 s) : Ends (onlyTables s0) (pageFromPd s m w) :=
    walkThen_only _ _ _ h fun _ _ h' => leafWrite_only _ _ h'
  have pdpt {s : State} (w : WalkJob) (h : onlyTables s0 s) : Ends (onlyTables s0) (pageFromPdpt s m w) :=
    walkThen_only _ _ _ h fun _ _ h' => pd _ h'
  unfold pageFinish
  split
  · exact walkThen_only _ _ _ h fun _ _ h' => pdpt _ h'
  · exact pdpt _ h
  · exact pd _ h
  · exact leafWrite_only _ _ h

/-- So does the rest of a region. -/
theorem mapPages_only {s0 : State} (n : Nat) {s : State} (m : MapJob) (h : onlyTables s0 s) :
    Ends (onlyTables s0) (mapPages n s m) := by
  induction n generalizing s m with
  | zero => exact h
  | succ n ih => exact ends_bind (pageFinish_only m h) fun _ _ h' => ih _ h'

end Sys2Proof.Laws
end

