-- ==== Sys2Proof/Laws/PerInstr.lean ====
section
/-! SUPPORT. Statements made of every command, one lemma per constructor. `CommandWord`: the command's word is well-formed
(rule R85), its low byte is the command's `OPC` with bits 63:8 zero (rule R86), and the decoder reads the command from
it. -/

namespace Sys2Proof.Laws.CommandWord

/-- What is said of each command. -/
def Statement (i : Instr) : Prop :=
  commandWordWf (encode i) = true ∧ (encode i).extractLsb' 0 8 = opcode i ∧ (encode i).extractLsb' 8 56 = 0 ∧
    decode (encode i) = .ok i ∧ i.operandCount ≤ 4

theorem adec : Statement .adec := by unfold Statement; decide
theorem pinit : Statement .pinit := by unfold Statement; decide
theorem pframe : Statement .pframe := by unfold Statement; decide
theorem ppres : Statement .ppres := by unfold Statement; decide
theorem pget : Statement .pget := by unfold Statement; decide
theorem pset : Statement .pset := by unfold Statement; decide
theorem einit : Statement .einit := by unfold Statement; decide
theorem walk : Statement .walk := by unfold Statement; decide
theorem map : Statement .map := by unfold Statement; decide
theorem mapdesc : Statement .mapdesc := by unfold Statement; decide
theorem mapfb : Statement .mapfb := by unfold Statement; decide
theorem rootz : Statement .rootz := by unfold Statement; decide
theorem enable : Statement .enable := by unfold Statement; decide

end Sys2Proof.Laws.CommandWord
end

