-- ==== Sys2Proof/Laws/Translate.lean ====
section
/-! SUPPORT. `Translate` in a sound hierarchy answers what the leaf entry on the path says (rule R61), and which
addresses share a page (rule R59). -/

namespace Sys2Proof.Laws
open Sys2Proof.Machine

/-- In a sound hierarchy a mapped address is one whose path leads to a present leaf entry. -/
theorem translate_mapped_iff {s : State} (ok : TablesOk s) {va : VA} {x : PA} :
    translateVA s.mem (rootBase s.cfg) va = .mapped x ↔
      ∃ e, leafFrom s.mem (rootBase s.cfg) (pathOf va) (splitVA va).i1 = some e ∧
        x = frameAddr e ||| (splitVA va).off.setWidth 64 := by
  have small {l : Level} {t : PA} {j : BitVec 9} (h : TableIn s l t) (hb : l.below.isSome = true)
      (hp : isPresent (entryOf s.mem t j) = true) := ok.small l t j h hb hp
  have r1 : TableIn s .pml4 (rootBase s.cfg) := Reach.root
  have fold (t : PA) (j : BitVec 9) : s.mem.read64 (entryAt t j) = entryOf s.mem t j := rfl
  simp only [translateVA, upperLevels, translateFrom, pathOf, leafFrom, pathFrom, fold]
  by_cases h1 : isPresent (entryOf s.mem (rootBase s.cfg) (splitVA va).i4) = true
  · have r2 := Reach.child _ r1 rfl h1
    simp only [h1, if_true, ne_eq, not_true_eq_false, false_and, if_false]
    generalize frameAddr (entryOf s.mem (rootBase s.cfg) (splitVA va).i4) = t2 at *
    by_cases h2 : isPresent (entryOf s.mem t2 (splitVA va).i3) = true
    · have r3 := Reach.child _ r2 rfl h2
      simp only [h2, if_true, small r2 rfl h2, Bool.false_eq_true, and_false, if_false]
      generalize frameAddr (entryOf s.mem t2 (splitVA va).i3) = t3 at *
      by_cases h3 : isPresent (entryOf s.mem t3 (splitVA va).i2) = true
      · simp only [h3, if_true, small r3 rfl h3, Bool.false_eq_true, and_false, if_false]
        generalize frameAddr (entryOf s.mem t3 (splitVA va).i2) = t4 at *
        by_cases h4 : isPresent (entryOf s.mem t4 (splitVA va).i1) = true
        · simp only [h4, if_true, Translation.mapped.injEq, Option.some.injEq, exists_eq_left']
          exact eq_comm
        · simp [h4]
      · simp [h3]
    · simp [h2]
  · simp [h1]

/-- Two addresses share a page exactly when they give the same four indices (rule R59, rule R83). -/
theorem samePage_iff {va va' : VA} :
    samePage va va' ↔ pathOf va = pathOf va' ∧ (splitVA va).i1 = (splitVA va').i1 := by
  have fields (v : VA) : v.bits.extractLsb' 12 36 =
      ((splitVA v).i4 ++ (splitVA v).i3 ++ (splitVA v).i2 ++ (splitVA v).i1 : BitVec 36) := by
    ext i hi
    rw [BitVec.getElem_append]
    simp only [splitVA, BitVec.getElem_append, BitVec.getElem_extractLsb']
    repeat' split
    all_goals first | rfl | (congr 1; omega)
  constructor
  · intro h
    have e (k w : Nat) (hk : k + w ≤ 36) : va.bits.extractLsb' (12 + k) w = va'.bits.extractLsb' (12 + k) w := by
      have hb (v : VA) : v.bits.extractLsb' (12 + k) w = (v.bits.extractLsb' 12 36).extractLsb' k w := by
        ext i hi
        simp only [BitVec.getElem_extractLsb', BitVec.getLsbD_extractLsb']
        have : k + i < 36 := by omega
        simp only [this, decide_true, Bool.true_and]
        congr 1; omega
      rw [hb va, hb va', h]
    simp only [pathOf, splitVA, List.cons.injEq, and_true]
    exact ⟨⟨e 27 9 (by decide), e 18 9 (by decide), e 9 9 (by decide)⟩, e 0 9 (by decide)⟩
  · rintro ⟨h, h1⟩
    simp only [pathOf, List.cons.injEq, and_true] at h
    unfold samePage
    rw [fields va, fields va', h.1, h.2.1, h.2.2, h1]

end Sys2Proof.Laws
end

