-- ==== Sys2Proof/Laws/Region.lean ====
section
/-! SUPPORT. What the mapper's loop can do: when it runs through, what a completed region means for the leaf entries of
a sound hierarchy (rule R170, rule R172, rule R173), and when it does run through. -/

namespace Sys2Proof.Laws
open Sys2Proof.Machine

theorem onlyTables_seq {s s' : State} (h : onlyTables s s') : s'.seq = s.seq := by rw [h]
theorem onlyTables_faulted {s s' : State} (h : onlyTables s s') : s'.faulted = s.faulted := by rw [h]

/-- Soundness of the hierarchy depends on memory, the configuration and the frames granted alone. -/
theorem tablesOk_congr {s s' : State} (hm : s'.mem = s.mem) (hc : s'.cfg = s.cfg) (hg : s'.granted = s.granted)
    (h : TablesOk s) : TablesOk s' where
  own := by rw [hm, hc, hg]; exact h.own
  parent := by rw [hm, hc]; exact h.parent
  top := by rw [hm, hc]; exact h.top
  small := by rw [hm, hc]; exact h.small
  inMem := by rw [hm, hc]; exact h.inMem

theorem allocatorOk_congr {s s' : State} (hm : s'.answers = s.answers) (hc : s'.cfg = s.cfg)
    (hg : s'.granted = s.granted) (h : AllocatorOk s) : AllocatorOk s' := by
  unfold AllocatorOk freshFrame at *
  rw [hm, hc, hg]
  exact h

theorem allocatorFresh_congr {s s' : State} (hm : s'.answers = s.answers) (hc : s'.cfg = s.cfg)
    (hg : s'.granted = s.granted) (h : AllocatorFresh s) : AllocatorFresh s' := by
  unfold AllocatorFresh freshFrame at *
  rw [hm, hc, hg]
  exact h

/-- A good allocator is still one after it has given some of its answers. -/
theorem allocatorOk_drew {s s' : State} {fs : List PA} (h : AllocatorOk s) (d : Drew s s' fs) (f : AllocatorFresh s') :
    AllocatorOk s' :=
  allocatorOk_iff.2 ⟨f, fun g hg => (h.1 g (drew_mem d hg)).1⟩

/-- The bytes the block may have written are those of the root's page and of the frames taken. -/
theorem onlyFrameBytes_of_untouched {s s' : State} {fs : List PA} (h : Untouched s s') (d : Drew s s' fs)
    (hc : s'.cfg = s.cfg) : onlyFrameBytes s s' (fs ++ s.granted) := fun a hr hf => by
  refine h a fun ho => ?_
  unfold ownByte at ho
  rw [hc, d.granted] at ho
  rcases ho with ho | ⟨f, hm, h1, h2⟩
  · exact hr ho
  · rcases hf f hm with h | h <;> omega

/-- The bytes the block may have written are those of table memory, when no request is outstanding. -/
theorem onlyTableBytes_of_untouched {s s' : State} (h : Untouched s s') : onlyTableBytes s s' := fun a ha => by
  refine h a fun ho => ?_
  simp only [tableByte, Bool.or_eq_false_iff, decide_eq_false_iff_not, List.any_eq_false, Bool.and_eq_true,
    decide_eq_true_eq, not_and] at ha
  rcases ho with ho | ⟨f, hf, h1, h2⟩
  · exact ha.1 ho
  · refine ha.2 f ?_ h1 h2
    unfold handedFrames
    split
    · exact List.mem_cons_of_mem _ hf
    · exact hf
    · exact hf

/-- A root none of whose entries is present is a sound hierarchy. -/
theorem tablesOk_emptyRoot {s : State} (h : ∀ j, isPresent (entryOf s.mem (rootBase s.cfg) j) = false) :
    TablesOk s := by
  have only {l : Level} {t : PA} (ht : Reach s.mem (rootBase s.cfg) l t) : l = .pml4 ∧ t = rootBase s.cfg := by
    induction ht with
    | root => exact ⟨rfl, rfl⟩
    | child j _ _ hp ih => rw [ih.2, h j] at hp; cases hp
  have absent {l : Level} {t : PA} {j : BitVec 9} (ht : Reach s.mem (rootBase s.cfg) l t)
      (hp : isPresent (entryOf s.mem t j) = true) : False := by
    rw [(only ht).2, h j] at hp
    cases hp
  refine ⟨fun l t ht => .inl (only ht).2, fun _ _ _ _ _ _ ht _ _ _ hp => (absent ht hp).elim,
    fun _ _ _ ht _ hp => (absent ht hp).elim, fun _ _ _ ht _ hp => (absent ht hp).elim, fun l t ht k hk => ?_⟩
  rw [(only ht).2]
  apply backed_rootPage
  rw [rootBase_toNat]
  omega

/-- A region that completes with no fault and no wait: its bases are aligned, and its loop has run through. -/
theorem mapRegion_ready {s t : State} {v : VA} {p : PA} {n : Nat} {res : Option Word} (hb : s.seq.isSome = true)
    (h : mapRegion s v p n res = .next t) (ht : t.Ready) :
    pageAligned v.bits = true ∧ pageAligned p = true ∧
      ∃ s', mapPages n s (MapJob.atPage ⟨v, p, n, 0, .leaf 0, res⟩ s.cfg 0) = .ok s' () ∧
        t = mapDone s' ⟨v, p, n, 0, .leaf 0, res⟩ := by
  unfold mapRegion mapChecked at h
  split at h
  · rename_i h1
    split at h
    · rename_i h2
      refine ⟨h1, h2, ?_⟩
      change (mapPages n s (MapJob.atPage ⟨v, p, n, 0, .leaf 0, res⟩ s.cfg 0)).finish _ _ = _ at h
      have ho := mapPages_only n (MapJob.atPage ⟨v, p, n, 0, .leaf 0, res⟩ s.cfg 0) (onlyTables_refl s)
      generalize mapPages n s (MapJob.atPage ⟨v, p, n, 0, .leaf 0, res⟩ s.cfg 0) = r at h ho
      cases r with
      | ok s' u => cases h; exact ⟨s', rfl, rfl⟩
      | raise s' f info => cases h; cases ht.1
      | wait s' w =>
        cases h
        have := ht.2
        rw [State.suspend_seq, onlyTables_seq ho] at this
        cases hs : s.seq <;> simp_all
      | stop => cases h
    · cases h; cases ht.1
  · cases h; cases ht.1

/-- What the pages `i0` to `i0 + n - 1` of a region leave of a sound hierarchy: a leaf slot of some page leads to the last
such page's initialize word, every other slot to what it led to (rule R172, rule R173). -/
structure PagesMapped (s s' : State) (vbase : VA) (pbase : PA) (i0 n : Nat) : Prop where
  only   : onlyTables s s'
  ok     : TablesOk s'
  alloc  : AllocatorFresh s'
  drew   : ∃ fs, Drew s s' fs
  bytes  : Untouched s s'
  leaves : ∀ va,
    (∀ i, i0 ≤ i → i < i0 + n → samePage va (regionPage vbase i) →
      (∀ i', i < i' → i' < i0 + n → ¬ samePage va (regionPage vbase i')) →
      leafFrom s'.mem (rootBase s'.cfg) (pathOf va) (splitVA va).i1 = some (initWord (regionFrame pbase i))) ∧
    ((∀ i, i0 ≤ i → i < i0 + n → ¬ samePage va (regionPage vbase i)) →
      leafFrom s'.mem (rootBase s'.cfg) (pathOf va) (splitVA va).i1 =
        leafFrom s.mem (rootBase s.cfg) (pathOf va) (splitVA va).i1)

/-- The loop of the mapper on a sound hierarchy. -/
theorem mapPages_mapped {c : Config} {m : MapJob} (n : Nat) : ∀ {s s' : State} {i0 : Nat}, TablesOk s →
    AllocatorFresh s → s.cfg = c → mapPages n s (m.atPage c i0) = .ok s' () →
    PagesMapped s s' m.vbase m.pbase i0 n := by
  induction n with
  | zero =>
    intro s s' i0 ok al hc h
    cases h
    exact ⟨rfl, ok, al, ⟨[], drew_refl s⟩, untouched_refl s, fun va => ⟨fun i h1 h2 => by omega, fun _ => rfl⟩⟩
  | succ n ih =>
    intro s s' i0 ok al hc h
    simp only [mapPages, Run_bind_ok_iff] at h
    obtain ⟨s1, u, h1, h2⟩ := h
    have pm := pageFinish_mapped ok al (by rw [hc]; rfl) h1
    have c1 := onlyTables_cfg pm.only
    have e : (m.atPage c i0).atPage s1.cfg ((m.atPage c i0).i + 1) = m.atPage c (i0 + 1) := by
      rw [c1, hc]; rfl
    rw [e] at h2
    have H := ih pm.ok pm.alloc (c1.trans hc) h2
    obtain ⟨fs, d⟩ := pm.drew
    obtain ⟨gs, d'⟩ := H.drew
    refine ⟨onlyTables_trans pm.only H.only, H.ok, H.alloc, ⟨_, drew_trans d d'⟩,
      untouched_trans pm.bytes H.bytes d' (onlyTables_cfg H.only), fun va => ⟨?_, ?_⟩⟩
    · intro i hi hi' hs hl
      by_cases hi0 : i = i0
      · subst hi0
        rw [(H.leaves va).2 (fun i' h1 h2 => hl i' (by omega) (by omega)), pm.leaves _ _ (pathOf_length va)]
        exact if_pos (samePage_iff.1 hs)
      · exact (H.leaves va).1 i (by omega) (by omega) hs (fun i' h1 h2 => hl i' h1 (by omega))
    · intro hn
      rw [(H.leaves va).2 (fun i h1 h2 => hn i (by omega) (by omega)), pm.leaves _ _ (pathOf_length va), if_neg]
      intro hc
      exact hn i0 (by omega) (by omega) (samePage_iff.2 hc)

/-! When the loop faults. -/

/-- A loop that faults has mapped some pages and faulted in the next one (rule R174). -/
theorem mapPages_raise {c : Config} {m : MapJob} (n : Nat) : ∀ {s s' : State} {i0 : Nat} {f : Cause} {info : Word},
    s.cfg = c → mapPages n s (m.atPage c i0) = .raise s' f info → ∃ k < n, ∃ s1,
      mapPages k s (m.atPage c i0) = .ok s1 () ∧ s1.cfg = c ∧
      pageFinish s1 (m.atPage c (i0 + k)) = .raise s' f info := by
  induction n with
  | zero => intro s s' i0 f info _ h; cases h
  | succ n ih =>
    intro s s' i0 f info hc h
    simp only [mapPages] at h
    have o := pageFinish_only (m.atPage c i0) (onlyTables_refl s)
    cases hr : pageFinish s (m.atPage c i0) with
    | ok s1 u =>
      rw [hr] at h o
      have c1 : s1.cfg = c := (onlyTables_cfg o).trans hc
      have e : (m.atPage c i0).atPage s1.cfg ((m.atPage c i0).i + 1) = m.atPage c (i0 + 1) := by rw [c1]; rfl
      simp only [Run_bind_ok, e] at h
      obtain ⟨k, hk, s2, h1, h2, h3⟩ := ih c1 h
      refine ⟨k + 1, by omega, s2, ?_, h2, ?_⟩
      · simp only [mapPages, hr, Run_bind_ok, e, h1]
      · rw [show i0 + (k + 1) = i0 + 1 + k by omega]; exact h3
    | raise s1 g i =>
      rw [hr] at h
      cases h
      exact ⟨0, by omega, s, rfl, hc, hr⟩
    | wait s1 w => rw [hr] at h; cases h
    | stop x => rw [hr] at h; cases h

/-- A page that faults on a sound hierarchy: the hierarchy has grown, and a walker call on the first entry of the page's
path that is missing has faulted. -/
theorem pageFinish_raise {s s' : State} {m : MapJob} {f : Cause} {info : Word} (ok : TablesOk s) (al : AllocatorFresh s)
    (hm : m.point = .walking .pml4 ⟨rootBase s.cfg, levelIndex m.va .pml4, .readEntry⟩)
    (h : pageFinish s m = .raise s' f info) : ∃ s1 l t j, Grown s s1 ∧ l ≠ .pt ∧
      resolveNext s1 t (j.setWidth 64) = .raise s' f info ∧
      translateVA s1.mem (rootBase s1.cfg) m.va = .notMapped l ∧
      (touchedEntries s1.mem (rootBase s1.cfg) m.va).getLast? = some (entryAt t j) := by
  have stop {s1 : State} {t : PA} {j : BitVec 9} (h : resolveNext s1 t (j.setWidth 64) = .raise s' f info) :
      isPresent (s1.mem.read64 (entryAt t j)) = false := (resolveNext_raise h).1
  have leaf (s3 : State) (b3 : PA) : leafWrite s3 m b3 ≠ .raise s' f info := by
    unfold leafWrite memWrite; split <;> exact fun h => by cases h
  simp only [pageFinish, hm, pageFromPml4, pageFromPdpt, pageFromPd, walkThen] at h
  cases h1 : resolveNext s (rootBase s.cfg) (levelIndex m.va .pml4) with
  | raise s1 g i =>
    rw [show resolveFrom s ⟨rootBase s.cfg, levelIndex m.va .pml4, .readEntry⟩ = _ from h1] at h
    cases h
    refine ⟨s, .pml4, rootBase s.cfg, (splitVA m.va).i4, grown_refl ok al, by simp, h1, ?_, ?_⟩
    · simp [translateVA, upperLevels, translateFrom, stop h1]
    · simp [touchedEntries, walkPath, stop h1]
  | wait s1 w => rw [show resolveFrom s ⟨rootBase s.cfg, levelIndex m.va .pml4, .readEntry⟩ = _ from h1] at h; cases h
  | stop x => rw [show resolveFrom s ⟨rootBase s.cfg, levelIndex m.va .pml4, .readEntry⟩ = _ from h1] at h; cases h
  | ok s1 b1 =>
    rw [show resolveFrom s ⟨rootBase s.cfg, levelIndex m.va .pml4, .readEntry⟩ = _ from h1] at h
    obtain ⟨g1, t1, p1, f1⟩ := resolveNext_grown (l := .pml4) (j := (splitVA m.va).i4) ok al Reach.root rfl h1
    have ec1 := onlyTables_cfg g1.only
    have r1 : TableIn s1 .pml4 (rootBase s.cfg) := by rw [← ec1]; exact Reach.root
    simp only [Run_bind_ok] at h
    cases h2 : resolveNext s1 b1 (levelIndex m.va .pdpt) with
    | raise s2 g i =>
      rw [show resolveFrom s1 ⟨b1, levelIndex m.va .pdpt, .readEntry⟩ = _ from h2] at h
      cases h
      refine ⟨s1, .pdpt, b1, (splitVA m.va).i3, g1, by simp, h2, ?_, ?_⟩
      all_goals rw [ec1]; simp only [entryOf] at p1 f1
      · simp [translateVA, upperLevels, translateFrom, stop h2, p1, f1]
      · simp [touchedEntries, walkPath, stop h2, p1, f1]
    | wait s2 w => rw [show resolveFrom s1 ⟨b1, levelIndex m.va .pdpt, .readEntry⟩ = _ from h2] at h; cases h
    | stop x => rw [show resolveFrom s1 ⟨b1, levelIndex m.va .pdpt, .readEntry⟩ = _ from h2] at h; cases h
    | ok s2 b2 =>
      rw [show resolveFrom s1 ⟨b1, levelIndex m.va .pdpt, .readEntry⟩ = _ from h2] at h
      obtain ⟨g2, t2, p2, f2⟩ := resolveNext_grown (j := (splitVA m.va).i3) g1.ok g1.alloc t1 rfl h2
      have ec2 : s2.cfg = s.cfg := (onlyTables_cfg g2.only).trans ec1
      have e1 := g2.keeps _ _ _ r1 p1
      have p1' := p1
      rw [← e1] at p1 f1
      simp only [Run_bind_ok] at h
      cases h3 : resolveNext s2 b2 (levelIndex m.va .pd) with
      | raise s3 g i =>
        rw [show resolveFrom s2 ⟨b2, levelIndex m.va .pd, .readEntry⟩ = _ from h3] at h
        cases h
        have sm := g2.ok.small _ _ (splitVA m.va).i3 (g2.tables _ _ t1) rfl p2
        refine ⟨s2, .pd, b2, (splitVA m.va).i2, grown_trans g1 g2, by simp, h3, ?_, ?_⟩
        all_goals rw [ec2]; simp only [entryOf] at p1 f1 p2 f2 sm
        · simp only [translateVA, upperLevels, translateFrom, p1, f1, p2, f2, sm, stop h3, ne_eq, not_true_eq_false,
            false_and, and_false, Bool.false_eq_true, if_true, if_false]
        · simp [touchedEntries, walkPath, stop h3, p1, f1, p2, f2]
      | wait s3 w => rw [show resolveFrom s2 ⟨b2, levelIndex m.va .pd, .readEntry⟩ = _ from h3] at h; cases h
      | stop x => rw [show resolveFrom s2 ⟨b2, levelIndex m.va .pd, .readEntry⟩ = _ from h3] at h; cases h
      | ok s3 b3 =>
        rw [show resolveFrom s2 ⟨b2, levelIndex m.va .pd, .readEntry⟩ = _ from h3] at h
        exact absurd h (leaf s3 b3)

/-! When the loop runs through: the allocator has a good frame ready for every request, and every access is in `PHYS_MEM`,
because every address below 2^52 is, or because the hierarchy is sound and the allocator keeps its promise. -/

theorem framesReady_mono {s : State} {n k : Nat} (h : framesReady s n) (hk : k ≤ n) : framesReady s k :=
  ⟨by have := h.1; omega, fun r hr => h.2 r (List.take_subset_take_left _ hk hr)⟩

theorem framesReady_installed {s : State} {n : Nat} {ea : Nat} {f : PA} {rest : List AllocAnswer}
    (h : framesReady s (n + 1)) (ha : s.answers = .frame f :: rest) : framesReady (installed s ea f rest) n := by
  refine ⟨?_, fun r hr => h.2 r ?_⟩
  · have := h.1; rw [ha] at this; simp [installed] at *; omega
  · rw [ha]; simp [installed] at hr ⊢; exact .inr hr

theorem framesReady_cons {s : State} {n : Nat} (h : framesReady s (n + 1)) :
    ∃ f rest, s.answers = .frame f :: rest ∧ frameOk f = true := by
  cases ha : s.answers with
  | nil => have := h.1; rw [ha] at this; simp at this
  | cons r rest =>
    obtain ⟨f, rfl, fo⟩ := h.2 r (by rw [ha]; simp)
    exact ⟨f, rest, rfl, fo⟩

theorem backed64_of_all {c : Config} (h : ∀ a < 2 ^ 52, backed c a = true) {a : Nat} (ha : a + 8 ≤ 2 ^ 52) :
    backed64 c a = true :=
  backed64_iff.2 fun k hk => h _ (by omega)

theorem entryAddr_below {t : PA} {j : Word} (ht : frameOk t = true) (hj : indexOk j = true) :
    (entryAddr t j).toNat + 8 ≤ 2 ^ 52 := by
  rw [entryAddr_toNat ht hj]
  rw [frameOk_iff] at ht
  rw [indexOk_iff] at hj
  omega

theorem indexOk_levelIndex (va : VA) (l : WalkLevel) : indexOk (levelIndex va l) = true := by
  cases l <;> exact indexOk_setWidth _

theorem resolveNext_total {s : State} (n : Nat) {t : PA} {j : Word} (hb : ∀ a < 2 ^ 52, backed s.cfg a = true)
    (ht : frameOk t = true) (hj : indexOk j = true) (hf : framesReady s (n + 1)) :
    ∃ s' b, resolveNext s t j = .ok s' b ∧ frameOk b = true ∧ framesReady s' n ∧ s'.cfg = s.cfg := by
  have hb1 := backed64_of_all hb (entryAddr_below ht hj)
  by_cases hp : isPresent (s.mem.read64 (entryAddr t j).toNat) = true
  · exact ⟨s, _, resolveNext_present hb1 hp, frameOk_frameAddr _, framesReady_mono hf (by omega), rfl⟩
  · obtain ⟨f, rest, ha, fo⟩ := framesReady_cons hf
    have hz : ∀ k < 512, backed64 s.cfg (f.toNat + 8 * k) = true := fun k hk =>
      backed64_of_all hb (by have := frameOk_iff.1 fo; omega)
    exact ⟨_, f, resolveNext_install hb1 (Bool.eq_false_iff.2 hp) ha fo hz, fo, framesReady_installed hf ha, rfl⟩

theorem pageFinish_total {s : State} (n : Nat) {m : MapJob} (hb : ∀ a < 2 ^ 52, backed s.cfg a = true)
    (hm : m.point = .walking .pml4 ⟨rootBase s.cfg, levelIndex m.va .pml4, .readEntry⟩) (hf : framesReady s (n + 3)) :
    ∃ s', pageFinish s m = .ok s' () ∧ framesReady s' n ∧ s'.cfg = s.cfg := by
  obtain ⟨s1, b1, h1, f1, r1, c1⟩ :=
    resolveNext_total (n + 2) hb (frameOk_rootBase s.cfg) (indexOk_levelIndex m.va .pml4) hf
  obtain ⟨s2, b2, h2, f2, r2, c2⟩ :=
    resolveNext_total (n + 1) (by rw [c1]; exact hb) f1 (indexOk_levelIndex m.va .pdpt) r1
  obtain ⟨s3, b3, h3, f3, r3, c3⟩ :=
    resolveNext_total n (by rw [c2, c1]; exact hb) f2 (indexOk_levelIndex m.va .pd) r2
  have e (s : State) (t : PA) (j : Word) : resolveFrom s ⟨t, j, .readEntry⟩ = resolveNext s t j := rfl
  have hw : memWrite (ω := MapJob) s3 (entryAddr b3 ((splitVA m.va).i1.setWidth 64)).toNat (initWord m.pa) = _ :=
    memWrite_backed (backed64_of_all (by rw [c3, c2, c1]; exact hb) (entryAddr_below f3 (indexOk_setWidth _)))
  refine ⟨s3.setMem (s3.mem.write64 (entryAddr b3 ((splitVA m.va).i1.setWidth 64)).toNat (initWord m.pa)), ?_, r3,
    by rw [State.setMem_cfg, c3, c2, c1]⟩
  simp only [pageFinish, hm, pageFromPml4, pageFromPdpt, pageFromPd, walkThen, e, leafWrite]
  rw [h1, Run_bind_ok, h2, Run_bind_ok, h3, Run_bind_ok, hw]

theorem mapPages_total {c : Config} (n k : Nat) {m : MapJob} : ∀ {s : State} {i0 : Nat},
    (∀ a < 2 ^ 52, backed s.cfg a = true) → s.cfg = c → framesReady s (k + 3 * n) →
    ∃ s', mapPages n s (m.atPage c i0) = .ok s' () ∧ framesReady s' k := by
  induction n with
  | zero => intro s i0 _ _ hf; exact ⟨s, rfl, hf⟩
  | succ n ih =>
    intro s i0 hb hc hf
    obtain ⟨s1, h1, r1, c1⟩ := pageFinish_total (k + 3 * n) (m := m.atPage c i0) hb (by rw [hc]; rfl)
      (by rw [show k + 3 * n + 3 = k + 3 * (n + 1) by omega]; exact hf)
    have e : (m.atPage c i0).atPage s1.cfg ((m.atPage c i0).i + 1) = m.atPage c (i0 + 1) := by
      rw [c1, hc]; rfl
    obtain ⟨s', h, hk⟩ := ih (s := s1) (i0 := i0 + 1) (by rw [c1]; exact hb) (c1.trans hc) r1
    exact ⟨s', by simp only [mapPages, h1, Run_bind_ok, e, h], hk⟩

theorem backed64_page {c : Config} {t : PA} (h : pageBacked c t) {k : Nat} (hk : k < 512) :
    backed64 c (t.toNat + 8 * k) = true :=
  backed64_iff.2 fun i hi => by rw [Nat.add_assoc]; exact h _ (by omega)

theorem backed64_entry {s : State} (ok : TablesOk s) {l : Level} {t : PA} (ht : TableIn s l t) (j : BitVec 9) :
    backed64 s.cfg (entryAt t j) = true := by
  rw [entryAt_eq j (reach_frameOk ht)]
  exact backed64_page (ok.inMem l t ht) j.isLt

/-- A walker call on a table of a sound hierarchy runs through. -/
theorem resolveNext_runs {s : State} (n : Nat) {l : Level} {t : PA} {j : BitVec 9} (ok : TablesOk s)
    (al : AllocatorFresh s) (ht : TableIn s l t) (hf : framesReady s (n + 1)) :
    ∃ s' b, resolveNext s t (j.setWidth 64) = .ok s' b ∧ framesReady s' n := by
  have hb1 := backed64_entry ok ht j
  by_cases hp : isPresent (s.mem.read64 (entryAt t j)) = true
  · exact ⟨s, _, resolveNext_present hb1 hp, framesReady_mono hf (by omega)⟩
  · obtain ⟨f, rest, ha, fo⟩ := framesReady_cons hf
    exact ⟨_, f, resolveNext_install hb1 (Bool.eq_false_iff.2 hp) ha fo fun k hk =>
      backed64_page (al.1 f (by simp [ha]) fo).2.1 hk, framesReady_installed hf ha⟩

theorem pageFinish_runs {s : State} (n : Nat) {m : MapJob} (ok : TablesOk s) (al : AllocatorFresh s)
    (hm : m.point = .walking .pml4 ⟨rootBase s.cfg, levelIndex m.va .pml4, .readEntry⟩) (hf : framesReady s (n + 3)) :
    ∃ s', pageFinish s m = .ok s' () ∧ framesReady s' n := by
  obtain ⟨s1, b1, h1, r1⟩ := resolveNext_runs (n + 2) (l := .pml4) (j := (splitVA m.va).i4) ok al Reach.root hf
  obtain ⟨g1, t1, -⟩ := resolveNext_grown (l := .pml4) ok al Reach.root rfl h1
  obtain ⟨s2, b2, h2, r2⟩ := resolveNext_runs (n + 1) (j := (splitVA m.va).i3) g1.ok g1.alloc t1 r1
  obtain ⟨g2, t2, -⟩ := resolveNext_grown g1.ok g1.alloc t1 rfl h2
  obtain ⟨s3, b3, h3, r3⟩ := resolveNext_runs n (j := (splitVA m.va).i2) g2.ok g2.alloc t2 r2
  obtain ⟨g3, t3, -⟩ := resolveNext_grown g2.ok g2.alloc t2 rfl h3
  have e (s : State) (t : PA) (j : Word) : resolveFrom s ⟨t, j, .readEntry⟩ = resolveNext s t j := rfl
  have hw : memWrite (ω := MapJob) s3 (entryAddr b3 ((splitVA m.va).i1.setWidth 64)).toNat (initWord m.pa) = _ :=
    memWrite_backed (backed64_entry g3.ok t3 _)
  refine ⟨s3.setMem (s3.mem.write64 (entryAddr b3 ((splitVA m.va).i1.setWidth 64)).toNat (initWord m.pa)), ?_, r3⟩
  simp only [pageFinish, hm, pageFromPml4, pageFromPdpt, pageFromPd, walkThen, e, leafWrite, levelIndex]
  rw [h1, Run_bind_ok, h2, Run_bind_ok, h3, Run_bind_ok, hw]

/-- The loop of the mapper on a sound hierarchy runs through. -/
theorem mapPages_runs {c : Config} (n k : Nat) {m : MapJob} : ∀ {s : State} {i0 : Nat}, TablesOk s → AllocatorFresh s →
    s.cfg = c → framesReady s (k + 3 * n) → ∃ s', mapPages n s (m.atPage c i0) = .ok s' () ∧ framesReady s' k := by
  induction n with
  | zero => intro s i0 _ _ _ hf; exact ⟨s, rfl, hf⟩
  | succ n ih =>
    intro s i0 ok al hc hf
    obtain ⟨s1, h1, r1⟩ := pageFinish_runs (k + 3 * n) (m := m.atPage c i0) ok al (by rw [hc]; rfl)
      (by rw [show k + 3 * n + 3 = k + 3 * (n + 1) by omega]; exact hf)
    have pm := pageFinish_mapped ok al (by rw [hc]; rfl) h1
    have c1 := (onlyTables_cfg pm.only).trans hc
    have e : (m.atPage c i0).atPage s1.cfg ((m.atPage c i0).i + 1) = m.atPage c (i0 + 1) := by rw [c1]; rfl
    obtain ⟨s', h, hk⟩ := ih (s := s1) (i0 := i0 + 1) pm.ok pm.alloc c1 r1
    exact ⟨s', by simp only [mapPages, h1, Run_bind_ok, e, h], hk⟩

end Sys2Proof.Laws
end

