-- ==== Sys2Proof/Tests/Slice0.lean ====
section
/-! SUPPORT. Tests on small states, with the expected values of spec/95_test_vectors.md and of the corner cases and
examples of the command rules, computed outside this model; and, for every statement that has hypotheses, a state and
operands that meet them. -/

namespace Sys2Proof.Tests
open Sys2Proof.Machine Sys2Proof.Laws

/-! States the tests start from. -/

/-- The common configuration of 95_test_vectors.md: `ROOT_BASE` = 0x8_0000; every address below 2^52 is memory, and
descriptor type 1 stands for the mapped types. -/
def board : Config := ⟨0x80, [⟨0, 2 ^ 52⟩], [⟨1, 0, 0⟩], 52⟩

/-- A board on which only the first page and the root's page are memory. -/
def tinyBoard : Config := ⟨0x80, [⟨0, 0x1000⟩], [], 52⟩

def idle : State := { State.reset with cfg := board }

def pop : State := { idle with phase := .populating }

def active : State := { idle with phase := .active, cr3out := 0x80000, pagingReg := 0x80000 }

/-- A state with some entries of memory written. -/
def withEntries (s : State) (es : List (Nat × Word)) : State :=
  { s with mem := es.foldl (fun m e => m.write64 e.1 e.2) [] }

/-- The path of virtual page 0 down to the page table at 0x50_2000 (vector RM1's tables). -/
def lowPath : List (Nat × Word) := [(0x80000, 0x500003), (0x500000, 0x501003), (0x501000, 0x502003)]

def withArgs (s : State) (a0 a1 a2 a3 : Word) : State := { s with arg0 := a0, arg1 := a1, arg2 := a2, arg3 := a3 }

/-- The next state, looked at through `f`. -/
def seen {α : Type} (r : Result) (f : State → α) : Option α :=
  match r with
  | .next t => some (f t)
  | .fault _ => none
  | .refused _ => none

def stopped (r : Result) : Option (Fault ⊕ Refusal) :=
  match r with
  | .next _ => none
  | .fault f => some (.inl f)
  | .refused r => some (.inr r)

/-- What a fault recorded in the block looks like to the host. -/
def faultOf (t : State) : Word × Word := (t.statusWord, t.finfo)

/-! Decoding: the words of rule R86, and of rule R88 (IC1 to IC3). -/

theorem test_decode_codec : decode 0x0000000000000001 = .ok .adec ∧ decode 0x0000000000000002 = .ok .pinit ∧
    decode 0x0000000000000003 = .ok .pframe ∧ decode 0x0000000000000004 = .ok .ppres ∧
    decode 0x0000000000000005 = .ok .pget ∧ decode 0x0000000000000006 = .ok .pset := by decide

theorem test_decode_tables : decode 0x0000000000000007 = .ok .einit ∧ decode 0x0000000000000008 = .ok .walk ∧
    decode 0x0000000000000009 = .ok .map ∧ decode 0x000000000000000A = .ok .mapdesc ∧
    decode 0x000000000000000B = .ok .mapfb ∧ decode 0x000000000000000C = .ok .rootz ∧
    decode 0x000000000000000D = .ok .enable := by decide

theorem test_decode_rejects : decode 0x0 = .error .illegalOpcode ∧ decode 0x0E = .error .illegalOpcode ∧
    decode 0xFF = .error .illegalOpcode ∧ decode 0x101 = .error .reservedBits ∧
    decode 0x8000000000000001 = .error .reservedBits := by decide

theorem test_decodeTableWord : decodeTableWord 64 9 = some .map ∧ decodeTableWord 64 0 = none ∧
    decodeTableWord 64 0x109 = none := by decide

/-! Well-formedness: one ill-formed term for each check. -/

theorem test_wf_access_width : HostAccess.wf ⟨0x08, 4, .read⟩ = false := by decide
theorem test_wf_access_aligned : HostAccess.wf ⟨0x0C, 8, .read⟩ = false := by decide
theorem test_wf_access_range : HostAccess.wf ⟨0x100, 8, .read⟩ = false := by decide
theorem test_wf_access_good : HostAccess.wf ⟨0xF8, 8, .read⟩ = true := by decide
theorem test_wf_word_reserved : commandWordWf 0x101 = false := by decide
theorem test_wf_word_low : commandWordWf 0x00 = false := by decide
theorem test_wf_word_high : commandWordWf 0x0E = false := by decide
theorem test_wf_written_count : Written.wf ⟨.map, [0x1000, 0x1000]⟩ = false := by decide

/-! The host's syntax (rule R89's example, rule R90). -/

theorem test_written_map : (Written.mk .map [0x100000, 0x100000, 16]).accesses =
    [⟨0x08, 8, .write 0x100000⟩, ⟨0x10, 8, .write 0x100000⟩, ⟨0x18, 8, .write 16⟩, ⟨0x00, 8, .write 0x09⟩] := by decide

/-! The register window. -/

theorem test_reset_status : readReg idle .status = 0 ∧ readReg idle .root = 0x80000 ∧ readReg idle .cr3out = 0 := by
  decide

theorem test_unaligned_access : stopped (step { idle with inputs := [.host ⟨0x54, 4, .read⟩] }) =
    some (.inr (.hostAccess 0x54 4)) := by decide

/-! `ADEC`: AD2, AD12, AD15. -/

def fields (t : State) : List Word := [t.res0, t.res1, t.res2, t.res3, t.res4]

theorem test_adec : seen (exec .adec { idle with arg0 := 0xFFFFFFFFFFFFFFFF }) fields = some [511, 511, 511, 511, 0xFFF] ∧
    seen (exec .adec { idle with arg0 := 0x123456789ABCDEF0 }) fields = some [0xAC, 0x1E2, 0xD5, 0x1CD, 0xEF0] ∧
    seen (exec .adec { active with arg0 := 0xFFFF800000201ABC }) fields = some [256, 0, 1, 1, 0xABC] := by decide

theorem test_compose : composeVA (splitVA ⟨0x123456789ABCDEF0⟩) = ⟨0x56789ABCDEF0⟩ ∧
    composeVA (splitVA ⟨0x0001000000000000⟩) = ⟨0⟩ := by decide

/-! The codec: PC3 to PC23. -/

theorem test_pinit : seen (exec .pinit { idle with arg0 := 0x1234 }) (·.res0) = some 0x1003 ∧
    seen (exec .pinit { idle with arg0 := 0x0010000000000000 }) (·.res0) = some 0x3 ∧
    seen (exec .pinit { idle with arg0 := 0xFFFFFFFFFFFFFFFF }) (·.res0) = some 0x000FFFFFFFFFF003 := by decide

theorem test_pframe : seen (exec .pframe { idle with arg0 := 0x8000000000123067 }) (·.res0) = some 0x123000 ∧
    seen (exec .pframe { idle with arg0 := 0xFFFFFFFFFFFFFFFF }) (·.res0) = some 0x000FFFFFFFFFF000 ∧
    seen (exec .pframe { idle with arg0 := 0x500002 }) (·.res0) = some 0x500000 := by decide

theorem test_ppres : seen (exec .ppres { idle with arg0 := 0x1 }) (·.res0) = some 1 ∧
    seen (exec .ppres { idle with arg0 := 0xFFFFFFFFFFFFFFFE }) (·.res0) = some 0 := by decide

theorem test_pget : ((List.range 14).map fun f =>
      seen (exec .pget (withArgs idle 0x8000000000123067 (BitVec.ofNat 64 f) 0 0)) (·.res0)) =
    [1, 1, 1, 0, 0, 1, 1, 0, 0, 0, 0x123, 0, 0, 1].map some ∧
    ((List.range 14).map fun f =>
      seen (exec .pget (withArgs idle 0xFFFFFFFFFFFFFFFF (BitVec.ofNat 64 f) 0 0)) (·.res0)) =
    [1, 1, 1, 1, 1, 1, 1, 1, 1, 0x7, 0xFFFFFFFFFF, 0x7F, 0xF, 1].map some := by decide +kernel

theorem test_pget_fault : seen (exec .pget (withArgs idle 0x3 14 0 0)) faultOf = some (0x00050708, 14) := by decide

theorem test_pset : seen (exec .pset (withArgs idle 0x3 2 1 0)) (·.res0) = some 0x7 ∧
    seen (exec .pset (withArgs idle 0x0 10 0xFFFFFFFFFF 0)) (·.res0) = some 0x000FFFFFFFFFF000 ∧
    seen (exec .pset (withArgs idle 0xFFFFFFFFFFFFFFFF 0 0 0)) (·.res0) = some 0xFFFFFFFFFFFFFFFE ∧
    seen (exec .pset (withArgs idle 0x80000000ABCDE003 12 5 0)) (·.res0) = some 0xA8000000ABCDE003 := by decide +kernel

theorem test_pset_fault : seen (exec .pset (withArgs idle 0 12 16 0)) (·.finfo) = some 16 ∧
    seen (exec .pset (withArgs idle 0 14 0 0)) (·.finfo) = some 14 := by decide

/-- PC24: the bytes, lowest address first. -/
theorem test_einit : seen (exec .einit (withArgs pop 0x800000 0x100000 0 0))
    (fun t => (List.range 8).map fun k => t.mem.byte? (0x800000 + k)) =
    some ([0x03, 0x00, 0x10, 0, 0, 0, 0, 0].map some) := by decide +kernel

/-- PC25, PC26. -/
theorem test_einit_fault :
    seen (exec .einit (withArgs pop 0x800004 0x100000 0 0)) (fun t => (t.finfo, t.mem)) = some (0x800004, []) ∧
    seen (exec .einit (withArgs idle 0x800000 0x100000 0 0)) (fun t => (t.fcode, t.finfo, t.mem)) =
      some (4, 0, []) := by decide

/-! The walker: TW1, TW6, TW7, TW8. -/

theorem test_walk_installs :
    seen (exec .walk { withArgs (withEntries pop [(0x80000, 0)]) 0x80000 0 0 0 with answers := [.frame 0x500000] })
      (fun t => (t.res0, t.allocs, t.mem.read64 0x80000, t.mem.read64 0x500000, t.busy)) =
    some (0x500000, 1, 0x500003, 0, false) := by decide +kernel

theorem test_walk_faults :
    seen (exec .walk { withArgs (withEntries pop [(0x80000, 0)]) 0x80000 0 0 0 with answers := [.frame 0x500001] })
      faultOf = some (0x00080609, 0x500001) ∧
    seen (exec .walk { withArgs (withEntries pop [(0x80008, 0)]) 0x80000 1 0 0 with answers := [.exhausted] })
      (fun t => (t.fcode, t.finfo, t.allocs)) = some (1, 0x80008, 0) ∧
    seen (exec .walk (withArgs pop 0x80008 512 0 0)) (·.finfo) = some 0x80008 ∧
    seen (exec .walk (withArgs (withEntries pop [(0x80000, 0x8000000000123067)]) 0x80000 0 0 0)) (·.res0) =
      some 0x123000 := by decide +kernel

/-! The mapper, over tables that exist: RM6, RM8 to RM10; its checks RM4, RM5; P3's fault. -/

theorem test_map_wraps :
    seen (exec .map (withArgs (withEntries pop ([(0x80FF8, 0x506003), (0x506FF8, 0x507003), (0x507FF8, 0x508003)] ++ lowPath))
      0xFFFFFFFFFFFFF000 0x1000 2 0)) (fun t => (t.mem.read64 0x508FF8, t.mem.read64 0x502000, t.allocs)) =
    some (0x1003, 0x2003, 0) := by decide +kernel

theorem test_map_checks :
    seen (exec .map (withArgs pop 0x100800 0x100010 1 0)) (fun t => (t.fcode, t.finfo)) = some (2, 0x100800) ∧
    seen (exec .map (withArgs pop 0x100000 0x100010 0 0)) (fun t => (t.fcode, t.finfo)) = some (2, 0x100010) ∧
    seen (exec .map { withArgs (withEntries pop (lowPath.take 2 ++ [(0x501000, 0)])) 0x1000 0x1000 2 0 with
      answers := [.exhausted] }) faultOf = some (0x00090109, 0x501000) ∧
    seen (exec .map (withArgs (withEntries pop lowPath) 0x0001000000001000 0x0010000000007000 1 0))
      (fun t => t.mem.read64 0x502008) = some 0x7003 := by decide +kernel

/-! The firmware's commands: MD1 (shortened), MD3, MD4; MF1, MF2, MF4's page count. -/

theorem test_mapdesc :
    seen (exec .mapdesc (withArgs (withEntries pop lowPath) 1 0x100000 2 0))
      (fun t => (t.res0, t.mem.read64 0x502800, t.mem.read64 0x502808)) = some (1, 0x100003, 0x101003) ∧
    seen (exec .mapdesc (withArgs pop 7 0x200800 1 0)) (fun t => (t.res0, t.faulted)) = some (0, false) ∧
    seen (exec .mapdesc (withArgs pop 1 0x200800 1 0)) (fun t => (t.fcode, t.finfo)) = some (2, 0x200800) := by
  decide +kernel

theorem test_mapfb :
    seen (exec .mapfb (withArgs (withEntries pop lowPath) 0x3000 4096 0 0))
      (fun t => (t.res0, t.mem.read64 0x502018, t.mem.read64 0x502020)) = some (2, 0x3003, 0x4003) ∧
    framebufferPages 0x300000 = 769 ∧ framebufferPages 0 = 1 ∧ framebufferPages 0xFFFFFFFFFFFFFFFF = 2 ^ 52 + 1 := by
  decide +kernel

/-! The root and activation: RZ1, RZ2, EN1 to EN3. -/

theorem test_rootz : seen (exec .rootz idle) (fun t => (t.statusWord, t.mem.read64 0x80000)) = some (1, 0) ∧
    seen (exec .rootz pop) faultOf = some (0x000C0409, 1) := by decide +kernel

theorem test_enable : seen (exec .enable pop) (fun t => (t.statusWord, t.cr3out, t.pagingReg)) =
      some (2, 0x80000, 0x80000) ∧
    seen (exec .enable idle) (fun t => (t.statusWord, t.cr3out)) = some (0x000D0408, 0) ∧
    seen (exec .map (withArgs active 0x1000 0x1000 1 0)) faultOf = some (0x0009040A, 2) := by decide

/-! Issue checks: IC1 to IC6. -/

theorem test_illegal : seen (step { idle with inputs := [cmdWrite 0x00] }) faultOf = some (0x308, 0) ∧
    seen (step { idle with inputs := [cmdWrite 0x101] }) (fun t => (t.fopc, t.finfo)) = some (0x01, 0x101) := by decide

/-- A `MAP` that waits for the allocator (IC5). -/
def waiting : State :=
  { withArgs (withEntries pop [(0x80000, 0)]) 0x1000 0x1000 1 0 with
    seq := some ⟨.map, ⟨0x1000, 0x1000, 1, 0⟩,
      .map ⟨⟨0x1000⟩, 0x1000, 1, 0, .walking .pml4 ⟨0x80000, 0, .allocWait⟩, none⟩⟩ }

theorem test_map_waits :
    seen (exec .map (withArgs (withEntries pop [(0x80000, 0)]) 0x1000 0x1000 1 0)) (fun t => (t.seq, t.statusWord)) =
      some (waiting.seq, 0x5) := by
  decide +kernel

theorem test_busy : seen (step { waiting with inputs := [cmdWrite 0x01] }) (fun t => (t.fcode, t.fopc, t.finfo, t.busy)) =
    some (5, 1, 1, false) := by decide

theorem test_halted : seen (step { idle with faulted := true, fcode := 3, inputs := [cmdWrite 0x0C] })
    (fun t => (t.statusWord, t.mem)) = some (0x308, []) := by decide

/-- The step runs the command placed (log entry 7). -/
theorem test_withFetchWord : seen (step (State.reset.withFetchWord 64 0x01)) (·.faulted) = some false ∧
    seen (step (State.reset.withFetchWord 64 0x0D)) faultOf = some (0x000D0408, 0) := by decide

theorem test_reset : seen (step { waiting with faulted := true, fcode := 1, allocs := 5, inputs := [.reset] })
    (fun t => (t.statusWord, t.finfo, t.allocs, t.mem)) = some (0, 0, 0, waiting.mem) := by decide +kernel

/-! Translation on P1's shape of tables (rule R61). -/

theorem test_translate :
    translateVA (withEntries pop (lowPath ++ [(0x502800, 0x100003), (0x502808, 0)])).mem 0x80000 ⟨0x100FFF⟩ = .mapped 0x100FFF ∧
    translateVA (withEntries pop (lowPath ++ [(0x502800, 0x100003), (0x502808, 0)])).mem 0x80000 ⟨0x101000⟩ =
      .notMapped .pt ∧
    translateVA (withEntries pop [(0x80000, 0x500003), (0x500000, 0x83)]).mem 0x80000 ⟨0⟩ = .unmodelled .pdpt := by
  decide +kernel

/-! Witnesses: for each statement with hypotheses, and for each of its clauses, a state and operands that meet them. -/

/-- The block's command has completed: a next state in which a command may be issued. -/
def completes (r : Result) : Bool :=
  match r with
  | .next t => !t.faulted && t.seq.isNone
  | .fault _ => false
  | .refused _ => false

theorem completes_next {r : Result} (h : completes r = true) : ∃ t, r = .next t ∧ t.Ready := by
  cases r with
  | next t =>
    simp only [completes, Bool.and_eq_true, Bool.not_eq_true', Option.isNone_iff_eq_none] at h
    exact ⟨t, rfl, h⟩
  | fault f => cases h
  | refused r => cases h

def isNext (r : Result) : Bool :=
  match r with
  | .next _ => true
  | .fault _ => false
  | .refused _ => false

theorem next_of {r : Result} (h : isNext r = true) : ∃ t, r = .next t := by
  cases r with
  | next t => exact ⟨t, rfl⟩
  | fault f => cases h
  | refused r => cases h

theorem backed_board : ∀ a < 2 ^ 52, backed board a = true := by
  intro a h
  have h' : a < 4503599627370496 := h
  simp [backed, board, h']

theorem idle_ready : idle.Ready := ⟨rfl, rfl⟩
theorem pop_populating : pop.Populating := ⟨⟨rfl, rfl⟩, rfl⟩

theorem idle_inv : Inv idle where
  memory := by decide
  clean := fun _ => by decide
  recorded := fun h => by cases h
  cr3 := rfl
  paging := fun h => by cases h
  job := fun j h => by cases h
  orphan := fun h => by cases h

theorem wit_StepRunsTheCommandWritten : decode 0x0D = .ok .enable ∧
    ({ idle with inputs := [cmdWrite 0x0D] } : State).inputs = cmdWrite 0x0D :: [] ∧
    ({ idle with inputs := [.issue 0x0D] } : State).inputs = .issue 0x0D :: [] := by decide

theorem wit_StepMovesTheSequencer : ({ waiting with inputs := [.tick] } : State).inputs = .tick :: [] ∧
    ({ waiting with inputs := [.run] } : State).inputs = .run :: [] ∧ waiting.inputs = [] := by decide

theorem wit_IllegalWordIsRecorded :
    ({ idle with inputs := [cmdWrite 0x101] } : State).Ready ∧ BitVec.extractLsb' 8 56 (0x101 : Word) ≠ 0 ∧
    BitVec.extractLsb' 0 8 (0x00 : Word) = 0 ∧ 0x0E ≤ (BitVec.extractLsb' 0 8 (0x0E : Word)).toNat :=
  ⟨⟨rfl, rfl⟩, by decide, by decide, by decide⟩

theorem wit_HaltedBlockIgnoresCommands (c v : Word) :
    (∃ s : State, s.faulted = true ∧ s.inputs = cmdWrite c :: []) ∧
    (∃ s : State, s.faulted = true ∧ s.inputs = .issue c :: []) ∧
    (∃ s : State, s.faulted = true ∧ s.inputs = .host ⟨0x08, 8, .write v⟩ :: []) ∧
    (∃ s : State, s.faulted = true ∧ s.inputs = .host ⟨0x10, 8, .write v⟩ :: []) ∧
    (∃ s : State, s.faulted = true ∧ s.inputs = .host ⟨0x18, 8, .write v⟩ :: []) ∧
    (∃ s : State, s.faulted = true ∧ s.inputs = .host ⟨0x20, 8, .write v⟩ :: []) ∧
    ∃ s : State, s.faulted = true ∧ s.inputs = .host ⟨8 * 31, 8, .read⟩ :: [] := by
  refine ⟨⟨{ idle with faulted := true, inputs := _ }, rfl, rfl⟩, ⟨{ idle with faulted := true, inputs := _ }, rfl, rfl⟩,
    ⟨{ idle with faulted := true, inputs := _ }, rfl, rfl⟩, ⟨{ idle with faulted := true, inputs := _ }, rfl, rfl⟩,
    ⟨{ idle with faulted := true, inputs := _ }, rfl, rfl⟩, ⟨{ idle with faulted := true, inputs := _ }, rfl, rfl⟩,
    ⟨{ idle with faulted := true, inputs := _ }, rfl, rfl⟩⟩

/-- A block that has recorded a fault (IC1's state). -/
def halted : State := { idle with faulted := true, fcode := 3, inputs := [cmdWrite 0x0C] }

theorem halted_inv : Inv halted where
  memory := by decide
  clean := fun h => by cases h
  recorded := fun _ => ⟨rfl, .illegalCommand, rfl⟩
  cr3 := rfl
  paging := fun h => by cases h
  job := fun j h => by cases h
  orphan := fun h => by cases h

theorem wit_FaultRecordIsSticky :
    ∃ t, Inv halted ∧ halted.faulted = true ∧ halted.inputs.head? ≠ some .reset ∧ step halted = .next t :=
  (next_of (r := step halted) (by decide)).imp fun _ h => ⟨halted_inv, rfl, by decide, h⟩

/-- The walker has been answered a frame and has not taken it yet. -/
def answered : State := { waiting with answers := [.frame 0x500000] }

/-- A command that has been accepted and has asked the allocator for nothing. -/
def accepted : State := { pop with seq := some ⟨.pinit, ⟨0, 0, 0, 0⟩, .start⟩ }

theorem wit_WriteWhileBusyFaults : waiting.faulted = false ∧ waiting.seq.isSome = true ∧
    ({ waiting with inputs := [cmdWrite 0x0E] } : State).inputs = cmdWrite 0x0E :: [] ∧
    ({ waiting with inputs := [.issue 0x01] } : State).inputs = .issue 0x01 :: [] ∧
    (accepted.faulted = false ∧ accepted.seq.isSome = true ∧ awaitsAllocator accepted = false) ∧
    (awaitsAllocator waiting = true ∧ waiting.answers = []) ∧
    (awaitsAllocator { waiting with answers := [.exhausted] } = true ∧ waiting.faulted = false) ∧
    (awaitsAllocator answered = true ∧ answered.answers = .frame 0x500000 :: [] ∧ answered.seq.isSome = true) := by decide

theorem wit_PhaseViolationIsRecorded :
    (idle.Ready ∧ neededPhase .einit = some .populating ∧ idle.phase ≠ .populating) ∧
    (pop.Ready ∧ neededPhase .rootz = some .uninit ∧ pop.phase ≠ .uninit) ∧
    (active.Ready ∧ neededPhase .enable = some .populating ∧ active.phase ≠ .populating) :=
  ⟨⟨⟨rfl, rfl⟩, by decide, by decide⟩, ⟨⟨rfl, rfl⟩, by decide, by decide⟩, ⟨⟨rfl, rfl⟩, by decide, by decide⟩⟩

theorem wit_AdecSplitsTheAddress : idle.Ready ∧ pop.Ready ∧ active.Ready := ⟨⟨rfl, rfl⟩, ⟨rfl, rfl⟩, ⟨rfl, rfl⟩⟩

theorem wit_CodecCommandsComputeAWord : idle.Ready ∧ active.Ready := ⟨⟨rfl, rfl⟩, ⟨rfl, rfl⟩⟩

theorem wit_PgetReadsAField :
    ((withArgs idle 0 0 0 0).Ready ∧ fieldTable[(withArgs idle 0 0 0 0).arg1.toNat]? = some (0, 1)) ∧
    ((withArgs idle 0 13 0 0).Ready ∧ fieldTable[(withArgs idle 0 13 0 0).arg1.toNat]? = some (63, 1)) ∧
    ((withArgs idle 0 14 0 0).Ready ∧ 13 < (withArgs idle 0 14 0 0).arg1.toNat) :=
  ⟨⟨⟨rfl, rfl⟩, by decide⟩, ⟨⟨rfl, rfl⟩, by decide⟩, ⟨⟨rfl, rfl⟩, by decide⟩⟩

theorem wit_PsetWritesAField :
    ((withArgs idle 0 12 15 0).Ready ∧ fieldTable[(withArgs idle 0 12 15 0).arg1.toNat]? = some (59, 4) ∧
      (withArgs idle 0 12 15 0).arg2.toNat < 2 ^ 4) ∧
    ((withArgs idle 0 14 0 0).Ready ∧ 13 < (withArgs idle 0 14 0 0).arg1.toNat) ∧
    ((withArgs idle 0 12 16 0).Ready ∧ fieldTable[(withArgs idle 0 12 16 0).arg1.toNat]? = some (59, 4) ∧
      2 ^ 4 ≤ (withArgs idle 0 12 16 0).arg2.toNat) :=
  ⟨⟨⟨rfl, rfl⟩, by decide⟩, ⟨⟨rfl, rfl⟩, by decide⟩, ⟨⟨rfl, rfl⟩, by decide⟩⟩

theorem wit_EinitWritesOneEntry :
    ((withArgs pop 0xFFFFFFFFFFFF8 0 0 0).Populating ∧ (withArgs pop 0xFFFFFFFFFFFF8 0 0 0).arg0.toNat % 8 = 0 ∧
      (withArgs pop 0xFFFFFFFFFFFF8 0 0 0).arg0.toNat < 2 ^ 52 ∧
      ∀ k < 8, backed board ((withArgs pop 0xFFFFFFFFFFFF8 0 0 0).arg0.toNat + k) = true) ∧
    ((withArgs pop 1 0 0 0).Populating ∧ (withArgs pop 1 0 0 0).arg0.toNat % 8 ≠ 0) ∧
    ((withArgs pop 0x10000000000000 0 0 0).Populating ∧ 2 ^ 52 ≤ (withArgs pop 0x10000000000000 0 0 0).arg0.toNat) ∧
    (({ withArgs pop 0x1000 0 0 0 with cfg := tinyBoard } : State).Populating ∧
      ({ withArgs pop 0x1000 0 0 0 with cfg := tinyBoard } : State).arg0.toNat % 8 = 0 ∧
      ({ withArgs pop 0x1000 0 0 0 with cfg := tinyBoard } : State).arg0.toNat < 2 ^ 52 ∧
      ∃ k < 8, backed tinyBoard (({ withArgs pop 0x1000 0 0 0 with cfg := tinyBoard } : State).arg0.toNat + k) = false) :=
  ⟨⟨⟨⟨rfl, rfl⟩, rfl⟩, by decide, by decide, by decide⟩, ⟨⟨⟨rfl, rfl⟩, rfl⟩, by decide⟩,
    ⟨⟨⟨rfl, rfl⟩, rfl⟩, by decide⟩, ⟨⟨⟨rfl, rfl⟩, rfl⟩, by decide, by decide, 0, by decide, by decide⟩⟩

theorem wit_FrameOfInitializeWord : (0xFFFFFFFFFFFFF : Word).toNat < 2 ^ 52 ∧
    (0xFFFFFFFFFF000 : Word).toNat < 2 ^ 52 ∧ (0xFFFFFFFFFF000 : Word).toNat % 4096 = 0 := by decide

theorem wit_InitializeWordFlags : EntryField.u ≠ .p ∧ EntryField.u ≠ .w ∧ EntryField.u ≠ .pfn := by decide

theorem wit_FieldReadAfterWrite : (0xFFFFFFFFFF : Word).toNat < 2 ^ fieldWidth .pfn := by decide

/-- A table at 0x8_0000 whose last entry holds a word (`WALK`'s operands name it). -/
def lastEntry (e : Word) : State := withArgs (withEntries pop [(0x80FF8, e)]) 0x80000 511 0 0

theorem lastEntry_populating (e : Word) : (lastEntry e).Populating := ⟨⟨rfl, rfl⟩, rfl⟩

theorem wit_WalkFollowsAPresentEntry :
    (lastEntry 0x8000000000123067).Populating ∧ (lastEntry 0x8000000000123067).arg0.toNat % 4096 = 0 ∧
    (lastEntry 0x8000000000123067).arg0.toNat < 2 ^ 52 ∧ (lastEntry 0x8000000000123067).arg1.toNat ≤ 511 ∧
    (∀ k < 8, backed board (0x80000 + 8 * 511 + k) = true) ∧
    ((lastEntry 0x8000000000123067).mem.read64 (0x80000 + 8 * 511)).getLsbD 0 = true :=
  ⟨⟨⟨rfl, rfl⟩, rfl⟩, by decide, by decide, by decide, by decide, by decide +kernel⟩

theorem wit_WalkInstallsATable :
    ({ lastEntry 0 with answers := [.frame 0x500000] } : State).Populating ∧ (lastEntry 0).arg0.toNat % 4096 = 0 ∧
    (lastEntry 0).arg0.toNat < 2 ^ 52 ∧ (lastEntry 0).arg1.toNat ≤ 511 ∧ (0x500000 : Word).toNat % 4096 = 0 ∧
    (0x500000 : Word).toNat < 2 ^ 52 ∧ (∀ k < 8, backed board (0x80000 + 8 * 511 + k) = true) ∧
    (∀ k < 4096, backed board ((0x500000 : Word).toNat + k) = true) ∧
    ((lastEntry 0).mem.read64 (0x80000 + 8 * 511)).getLsbD 0 = false :=
  ⟨⟨⟨rfl, rfl⟩, rfl⟩, by decide, by decide, by decide, by decide, by decide, by decide,
    fun k hk => backed_board _ (by have : (0x500000 : Word).toNat = 0x500000 := rfl; omega), by decide +kernel⟩

theorem wit_WalkFaults :
    (lastEntry 0).Populating ∧ (0x80008 : Word).toNat % 4096 ≠ 0 ∧ 2 ^ 52 ≤ (0x10000000000000 : Word).toNat ∧
    511 < (512 : Word).toNat ∧ ((lastEntry 0).mem.read64 (0x80000 + 8 * 511)).getLsbD 0 = false ∧
    ({ lastEntry 0 with answers := [.exhausted] } : State).answers = .exhausted :: [] ∧
    ({ lastEntry 0 with answers := [.frame 0x500001] } : State).answers = .frame 0x500001 :: [] ∧
    (0x500001 : Word).toNat % 4096 ≠ 0 :=
  ⟨⟨⟨rfl, rfl⟩, rfl⟩, by decide, by decide, by decide, by decide +kernel, rfl, rfl, by decide⟩

theorem wit_WalkWaitsForTheAllocator :
    (lastEntry 0).Populating ∧ (lastEntry 0).arg0.toNat % 4096 = 0 ∧ (lastEntry 0).arg0.toNat < 2 ^ 52 ∧
    (lastEntry 0).arg1.toNat ≤ 511 ∧ (∀ k < 8, backed board (0x80000 + 8 * 511 + k) = true) ∧
    ((lastEntry 0).mem.read64 (0x80000 + 8 * 511)).getLsbD 0 = false ∧ (lastEntry 0).answers = [] ∧
    (lastEntry 0).orphan = false :=
  ⟨⟨⟨rfl, rfl⟩, rfl⟩, by decide, by decide, by decide, by decide, by decide +kernel, rfl, rfl⟩

/-- A running `WALK` of the last entry of the table at 0x8_0000, at one of the walker's states. -/
def walkAt (e : Word) (p : WalkPoint) : State :=
  { lastEntry e with seq := some ⟨.walk, ⟨0x80000, 511, 0, 0⟩, .walk ⟨0x80000, 511, p⟩⟩ }

theorem wit_WalkerStateMachine (p : WalkPoint) (e : Word) :
    (walkAt e p).seq = some ⟨.walk, ⟨0x80000, 511, 0, 0⟩, .walk ⟨0x80000, 511, p⟩⟩ ∧
    (∀ b < 8, backed board ((0x80000 + 8 * 511 : Word).toNat + b) = true) ∧
    ((walkAt 0x500003 .readEntry).mem.read64 (0x80000 + 8 * 511 : Word).toNat).getLsbD 0 = true ∧
    ((walkAt 0 .readEntry).mem.read64 (0x80000 + 8 * 511 : Word).toNat).getLsbD 0 = false ∧
    (walkAt 0 .allocWait).answers = [] ∧
    ({ walkAt 0 .allocWait with answers := [.exhausted] } : State).answers = .exhausted :: [] ∧
    ((0xFFFFFFFFFF000 : Word).toNat % 4096 = 0 ∧ (0xFFFFFFFFFF000 : Word).toNat < 2 ^ 52) ∧
    ((0x500001 : Word).toNat % 4096 ≠ 0 ∧ 2 ^ 52 ≤ (0x10000000000000 : Word).toNat) ∧
    (∀ b < 8, backed board ((0x500000 : Word).toNat + 8 * 511 + b) = true) ∧
    ∀ b < 8, backed board ((0x500000 : Word).toNat + 8 * 0 + b) = true :=
  ⟨rfl, by decide, by decide +kernel, by decide +kernel, rfl, rfl, by decide, by decide, by decide, by decide⟩

/-- Rule R153: one write for each value of the counter, and `INSTALL` after the one at 511. -/
theorem test_zero_counter :
    seen (tick (walkAt 0 (.zero 0x500000 510))) (·.seq) = some (walkAt 0 (.zero 0x500000 511)).seq ∧
    seen (tick (walkAt 0 (.zero 0x500000 511))) (·.seq) = some (walkAt 0 (.install 0x500000)).seq := by decide

theorem wit_MisalignedRegionIsRecorded :
    (withArgs pop 0x1001 0x1001 0 0).Populating ∧ (withArgs pop 0x1001 0x1001 0 0).arg0.toNat % 4096 ≠ 0 ∧
    (withArgs pop 0x1000 0x1FFF 0 0).arg0.toNat % 4096 = 0 ∧ (withArgs pop 0x1000 0x1FFF 0 0).arg1.toNat % 4096 ≠ 0 ∧
    mappedType board (withArgs pop 1 0x1001 0 0).arg0 (withArgs pop 1 0x1001 0 0).arg3 = true ∧
    (withArgs pop 1 0x1001 0 0).arg1.toNat % 4096 ≠ 0 :=
  ⟨⟨⟨rfl, rfl⟩, rfl⟩, by decide, by decide, by decide, by decide, by decide⟩

theorem wit_OtherDescriptorsAreSkipped : (withArgs pop 7 0x1001 1 0).Populating ∧
    mappedType (withArgs pop 7 0x1001 1 0).cfg (withArgs pop 7 0x1001 1 0).arg0 (withArgs pop 7 0x1001 1 0).arg3 = false :=
  ⟨⟨⟨rfl, rfl⟩, rfl⟩, by decide⟩

/-- The allocator's frames of the common configuration. -/
def six : List AllocAnswer :=
  [.frame 0x500000, .frame 0x501000, .frame 0x502000, .frame 0x503000, .frame 0x504000, .frame 0x505000]

theorem framesReady_six {s : State} (h : s.answers = six) : framesReady s (3 + 3 * 1) := by
  refine ⟨by rw [h]; decide, ?_⟩
  rw [h]
  simp only [six, List.take, List.mem_cons, List.not_mem_nil, or_false]
  rintro r (rfl | rfl | rfl | rfl | rfl | rfl) <;> exact ⟨_, rfl, by decide⟩

theorem allocatorOk_of {s : State} (hb : ∀ a < 0x506000, backed s.cfg a = true) (hr : rootBase s.cfg = 0x80000)
    (hg : s.granted = []) (ha : s.answers = six) : AllocatorOk s := by
  unfold AllocatorOk freshFrame
  rw [hr, hg, ha]
  refine ⟨?_, by decide⟩
  intro f hf
  simp only [six, List.mem_cons, AllocAnswer.frame.injEq, List.not_mem_nil, or_false] at hf
  rcases hf with rfl | rfl | rfl | rfl | rfl | rfl <;>
    exact ⟨by decide, fun k hk => hb _ (by simp; omega), by decide, by simp⟩

theorem allocatorOk_six {s : State} (hc : s.cfg = board) (hg : s.granted = []) (ha : s.answers = six) : AllocatorOk s :=
  allocatorOk_of (by rw [hc]; exact fun a h => backed_board a (by omega)) (by rw [hc]; decide) hg ha

theorem wit_MappingCommandsComplete :
    (∀ a < 2 ^ 52, backed board a = true) ∧
    (({ withArgs pop 0x1000 0x2000 1 0 with answers := six } : State).Populating ∧ (0x1000 : Word).toNat % 4096 = 0 ∧
      (0x2000 : Word).toNat % 4096 = 0 ∧
      framesReady { withArgs pop 0x1000 0x2000 1 0 with answers := six } (3 * (1 : Word).toNat)) ∧
    (({ withArgs pop 1 0x1000 1 0 with answers := six } : State).Populating ∧ mappedType board 1 0 = true ∧
      framesReady { withArgs pop 1 0x1000 1 0 with answers := six } (3 * (1 : Word).toNat)) ∧
    (({ withArgs pop 0x1000 1 0 0 with answers := six } : State).Populating ∧
      framesReady { withArgs pop 0x1000 1 0 0 with answers := six } (3 * (((1 : Word).toNat + 4095) / 4096 + 1))) :=
  ⟨backed_board, ⟨⟨⟨rfl, rfl⟩, rfl⟩, by decide, by decide, framesReady_mono (framesReady_six rfl) (by decide)⟩,
    ⟨⟨⟨rfl, rfl⟩, rfl⟩, by decide, framesReady_mono (framesReady_six rfl) (by decide)⟩,
    ⟨⟨⟨rfl, rfl⟩, rfl⟩, framesReady_mono (framesReady_six rfl) (by decide)⟩⟩

theorem wit_MapOverExistingTables :
    (withArgs (withEntries pop lowPath) 0x3000 0x9000 1 0).Populating ∧ (0x3000 : Word).toNat % 4096 = 0 ∧
    (0x9000 : Word).toNat % 4096 = 0 ∧
    (∀ k < 8, backed board (entryAt 0x500000 (BitVec.extractLsb' 30 9 (0x3000 : Word)) + k) = true ∧
      backed board (entryAt 0x501000 (BitVec.extractLsb' 21 9 (0x3000 : Word)) + k) = true ∧
      backed board (entryAt 0x502000 (BitVec.extractLsb' 12 9 (0x3000 : Word)) + k) = true) ∧
    (entryOf (withEntries pop lowPath).mem (rootBase board) (BitVec.extractLsb' 39 9 (0x3000 : Word))).getLsbD 0 = true ∧
    entryOf (withEntries pop lowPath).mem (rootBase board) (BitVec.extractLsb' 39 9 (0x3000 : Word)) &&&
      0x000FFFFFFFFFF000 = 0x500000 ∧
    (entryOf (withEntries pop lowPath).mem 0x500000 (BitVec.extractLsb' 30 9 (0x3000 : Word))).getLsbD 0 = true ∧
    entryOf (withEntries pop lowPath).mem 0x500000 (BitVec.extractLsb' 30 9 (0x3000 : Word)) &&&
      0x000FFFFFFFFFF000 = 0x501000 ∧
    (entryOf (withEntries pop lowPath).mem 0x501000 (BitVec.extractLsb' 21 9 (0x3000 : Word))).getLsbD 0 = true ∧
    entryOf (withEntries pop lowPath).mem 0x501000 (BitVec.extractLsb' 21 9 (0x3000 : Word)) &&&
      0x000FFFFFFFFFF000 = 0x502000 :=
  ⟨⟨⟨rfl, rfl⟩, rfl⟩, by decide, by decide, by decide, by decide +kernel, by decide +kernel, by decide +kernel, by decide +kernel,
    by decide +kernel, by decide +kernel⟩

theorem wit_MapBuildsThreeTables :
    ({ withArgs (withEntries pop [(0x80000, 0)]) 0x100000 0x100000 1 0 with answers := six } : State).Populating ∧
    AllocatorOk { withArgs (withEntries pop [(0x80000, 0)]) 0x100000 0x100000 1 0 with answers := six } ∧
    six = .frame 0x500000 :: .frame 0x501000 :: .frame 0x502000 :: six.drop 3 ∧ (0x100000 : Word).toNat % 4096 = 0 ∧
    (entryOf (withEntries pop [(0x80000, 0)]).mem (rootBase board) (BitVec.extractLsb' 39 9 (0x100000 : Word))).getLsbD 0 =
      false :=
  ⟨⟨⟨rfl, rfl⟩, rfl⟩, allocatorOk_six rfl rfl rfl, rfl, by decide, by decide +kernel⟩

/-! States with a sound hierarchy: an empty root, and page 0x10_0000 mapped to itself under it (vector RM1). -/

/-- POPULATING with the root zeroed, and the allocator's six frames. -/
def rooted : State := { pop with mem := Memory.zeroEntries [] (rootBase board).toNat 512, answers := six }

theorem rooted_empty (j : BitVec 9) : isPresent (entryOf rooted.mem (rootBase board) j) = false := by
  have h := entryAt_inside (j := j) (frameOk_rootBase board)
  have z : (Memory.zeroEntries [] (rootBase board).toNat 512).read64 (entryAt (rootBase board) j) = 0 :=
    read64_zeroEntries_same (by omega)
  exact (congrArg isPresent z).trans isPresent_zero

theorem rooted_tables (a0 a1 a2 a3 : Word) : TablesOk (withArgs rooted a0 a1 a2 a3) :=
  tablesOk_congr (s := rooted) rfl rfl rfl (tablesOk_emptyRoot rooted_empty)

theorem rooted_allocator (a0 a1 a2 a3 : Word) : AllocatorOk (withArgs rooted a0 a1 a2 a3) := allocatorOk_six rfl rfl rfl

/-- A mapping command's region on a sound hierarchy, with frames ready for it: it completes, soundly, and its last page's
leaf entry is present. -/
theorem region_runs {s : State} {v : VA} {p : PA} {n k : Nat} {res : Option Word} (hf : s.faulted = false)
    (hv : v.bits.toNat % 4096 = 0) (hp : p.toNat % 4096 = 0) (hc : s.cfg = board) (ok : TablesOk s) (al : AllocatorOk s)
    (hr : framesReady s (k + 3 * (n + 1))) :
    ∃ t, mapRegion s v p (n + 1) res = .next t ∧ t.Ready ∧ TablesOk t ∧ AllocatorOk t ∧ t.phase = s.phase ∧
      t.cfg = board ∧ framesReady t k ∧
      leafFrom t.mem (rootBase t.cfg) (pathOf (regionPage v n)) (splitVA (regionPage v n)).i1 =
        some (initWord (regionFrame p n)) := by
  have fr := (allocatorOk_iff.1 al).1
  obtain ⟨s', h, hk⟩ := mapPages_runs (n + 1) k (c := s.cfg) (m := ⟨v, p, n + 1, 0, .leaf 0, res⟩) (i0 := 0) ok fr rfl hr
  have P := mapPages_mapped (n + 1) ok fr rfl h
  obtain ⟨fs, d⟩ := P.drew
  have e : mapRegion s v p (n + 1) res = .next (mapDone s' ⟨v, p, n + 1, 0, .leaf 0, res⟩) := by
    unfold mapRegion mapChecked
    rw [if_pos (pageAligned_iff.2 hv), if_pos (pageAligned_iff.2 hp)]
    change (mapPages (n + 1) s (MapJob.atPage ⟨v, p, n + 1, 0, .leaf 0, res⟩ s.cfg 0)).finish _ _ = _
    rw [h]
    rfl
  refine ⟨_, e, ?_⟩
  rw [mapDone_eq]
  refine ⟨⟨by show s'.faulted = false; rw [onlyTables_faulted P.only, hf], rfl⟩,
    tablesOk_congr (s := s') rfl rfl rfl P.ok,
    allocatorOk_congr (s := s') rfl rfl rfl (allocatorOk_drew al d P.alloc), by rw [P.only],
    by rw [← hc, ← onlyTables_cfg P.only], hk, ?_⟩
  exact (P.leaves (regionPage v n)).1 n (by omega) (by omega) rfl (fun i' h1 h2 => by omega)

theorem exec_map {s : State} (h : s.Populating) :
    exec .map s = mapRegion (s.latch .map) ⟨s.arg0⟩ s.arg1 s.arg2.toNat none :=
  issue_admitted (body := bodyMap) h.1.1 h.1.2 (by rw [h.2]; rfl)

theorem exec_mapfb {s : State} (h : s.Populating) :
    exec .mapfb s = mapRegion (s.latch .mapfb) (identityVA s.arg0) s.arg0 (framebufferPages s.arg1)
      (some (BitVec.ofNat 64 (framebufferPages s.arg1))) :=
  issue_admitted (body := bodyMapfb) h.1.1 h.1.2 (by rw [h.2]; rfl)

/-- A framebuffer of no bytes takes one page (rule R191). -/
theorem exec_mapfb_page {s : State} (h : s.Populating) (h1 : s.arg1 = 0) :
    exec .mapfb s = mapRegion (s.latch .mapfb) (identityVA s.arg0) s.arg0 (0 + 1) (some 1) := by
  have n : framebufferPages 0 = 0 + 1 := by decide
  rw [exec_mapfb h, h1, n]
  exact congrArg (fun r => mapRegion (s.latch .mapfb) (identityVA s.arg0) s.arg0 (0 + 1) (some r)) (by decide)

theorem exec_mapdesc {s : State} (h : s.Populating) (hm : mappedType s.cfg s.arg0 s.arg3 = true) :
    exec .mapdesc s = mapRegion (s.latch .mapdesc) (identityVA s.arg1) s.arg1 s.arg2.toNat (some 1) := by
  refine (issue_admitted (body := bodyMapdesc) h.1.1 h.1.2 (by rw [h.2]; rfl)).trans ?_
  exact if_pos hm

theorem enable_runs {s : State} (h : s.Populating) : ∃ t, exec .enable s = .next t ∧ t.phase = .active :=
  ⟨_, issue_admitted (body := bodyEnable) h.1.1 h.1.2 (by rw [h.2]; rfl), rfl⟩

/-- `MAP` of one page on a sound hierarchy. -/
theorem map_runs {s : State} {k : Nat} (h : s.Populating) (hv : s.arg0.toNat % 4096 = 0) (hp : s.arg1.toNat % 4096 = 0)
    (hn : s.arg2 = 1) (hc : s.cfg = board) (ok : TablesOk s) (al : AllocatorOk s) (hr : framesReady s (k + 3 * 1)) :
    ∃ t, exec .map s = .next t ∧ t.Ready ∧ TablesOk t ∧ AllocatorOk t ∧ t.phase = .populating ∧ t.cfg = board ∧
      framesReady t k ∧ leafFrom t.mem (rootBase t.cfg) (pathOf ⟨s.arg0⟩) (splitVA ⟨s.arg0⟩).i1 = some (initWord s.arg1) := by
  obtain ⟨t, e, r, ok', al', ph, hc', hk, hl⟩ := region_runs (s := s.latch .map) (v := ⟨s.arg0⟩) (p := s.arg1) (n := 0)
    (res := none) h.1.1 hv hp hc (tablesOk_congr (s := s) rfl rfl rfl ok) (allocatorOk_congr (s := s) rfl rfl rfl al) hr
  have z (w : VA) : regionPage w 0 = w := by simp [regionPage]
  have z' (w : PA) : regionFrame w 0 = w := by simp [regionFrame]
  rw [z, z'] at hl
  exact ⟨t, by rw [exec_map h, hn]; exact e, r, ok', al', ph.trans h.2, hc', hk, hl⟩

/-- Vector RM1's command on an empty root. -/
theorem rm1_runs : ∃ t, exec .map (withArgs rooted 0x100000 0x100000 1 0) = .next t ∧ t.Ready ∧ TablesOk t ∧
    AllocatorOk t ∧ t.phase = .populating ∧ t.cfg = board ∧ framesReady t 3 ∧
    leafFrom t.mem (rootBase t.cfg) (pathOf ⟨0x100000⟩) (splitVA ⟨0x100000⟩).i1 = some (initWord 0x100000) :=
  map_runs (s := withArgs rooted 0x100000 0x100000 1 0) ⟨⟨rfl, rfl⟩, rfl⟩ (by decide) (by decide) rfl rfl
    (rooted_tables ..) (rooted_allocator ..) (framesReady_six rfl)

/-- On a board with six megabytes of memory the other alternative of `MappingCommandsComplete`'s premise holds. -/
theorem wit_MappingCommandsComplete_small :
    ∃ s : State, s.Populating ∧ backed s.cfg 0x600000 = false ∧ TablesOk s ∧ AllocatorOk s ∧ s.arg0.toNat % 4096 = 0 ∧
      s.arg1.toNat % 4096 = 0 ∧ framesReady s (3 * s.arg2.toNat) := by
  refine ⟨{ withArgs rooted 0x100000 0x100000 1 0 with cfg := ⟨0x80, [⟨0, 0x600000⟩], [], 52⟩ }, ⟨⟨rfl, rfl⟩, rfl⟩,
    by decide, tablesOk_emptyRoot rooted_empty, allocatorOk_of (fun a h => ?_) (by decide) rfl rfl, by decide, by decide,
    framesReady_mono (framesReady_six rfl) (by decide)⟩
  have h' : a < 6291456 := by omega
  simp [backed, h']
  omega

theorem wit_MapSetsExactlyItsPages : ∃ s t : State, s.Populating ∧ TablesOk s ∧ AllocatorOk s ∧ s.arg2 = 1 ∧
    exec .map s = .next t ∧ t.Ready := by
  obtain ⟨t, e, r, -⟩ := rm1_runs
  exact ⟨_, t, ⟨⟨rfl, rfl⟩, rfl⟩, rooted_tables .., rooted_allocator .., rfl, e, r⟩

theorem wit_FirmwareRegionsMapIdentity :
    (∃ s t : State, s.Populating ∧ TablesOk s ∧ AllocatorOk s ∧ t.Ready ∧ exec .mapdesc s = .next t ∧
      mappedType s.cfg s.arg0 s.arg3 = true ∧ s.arg2 = 1) ∧
    ∃ s t : State, s.Populating ∧ TablesOk s ∧ AllocatorOk s ∧ t.Ready ∧ exec .mapfb s = .next t := by
  constructor
  · obtain ⟨t, e, r, -⟩ := region_runs (s := (withArgs rooted 1 0x100000 1 0).latch .mapdesc) (v := identityVA 0x100000)
      (p := 0x100000) (n := 0) (k := 3) (res := some 1) rfl (by decide) (by decide) rfl
      (tablesOk_emptyRoot rooted_empty) (allocatorOk_six rfl rfl rfl) (framesReady_six rfl)
    refine ⟨withArgs rooted 1 0x100000 1 0, t, ⟨⟨rfl, rfl⟩, rfl⟩, rooted_tables .., rooted_allocator .., r, ?_,
      by decide, rfl⟩
    rw [exec_mapdesc ⟨⟨rfl, rfl⟩, rfl⟩ (by decide)]
    exact e
  · obtain ⟨t, e, r, -⟩ := region_runs (s := (withArgs rooted 0x100000 0 0 0).latch .mapfb) (v := identityVA 0x100000)
      (p := 0x100000) (n := 0) (k := 3) (res := some 1) rfl (by decide) (by decide) rfl
      (tablesOk_emptyRoot rooted_empty) (allocatorOk_six rfl rfl rfl) (framesReady_six rfl)
    refine ⟨withArgs rooted 0x100000 0 0 0, t, ⟨⟨rfl, rfl⟩, rfl⟩, rooted_tables .., rooted_allocator .., r, ?_⟩
    rw [exec_mapfb ⟨⟨rfl, rfl⟩, rfl⟩]
    exact e

theorem wit_IdentityRegionTranslatesToItself : ∃ (s t u : State) (o : Word), s.Populating ∧ TablesOk s ∧ AllocatorOk s ∧
    s.arg1 = s.arg0 ∧ exec .map s = .next t ∧ t.Ready ∧ exec .enable t = .next u ∧ u.phase = .active ∧
    0 < s.arg2.toNat ∧ (regionFrame s.arg0 0).toNat < 2 ^ 52 ∧
    (∀ i', 0 < i' → i' < s.arg2.toNat →
      ¬ samePage (regionPage (identityVA s.arg0) 0) (regionPage (identityVA s.arg0) i')) ∧ o.toNat < 4096 := by
  obtain ⟨t, e, r, -, -, ph, -⟩ := rm1_runs
  obtain ⟨u, eu, pu⟩ := enable_runs (s := t) ⟨r, ph⟩
  refine ⟨_, t, u, 0xFFF, ⟨⟨rfl, rfl⟩, rfl⟩, rooted_tables .., rooted_allocator .., rfl, e, r, eu, pu, by decide,
    by decide, fun i' h h' => ?_, by decide⟩
  have : i' < 1 := h'
  omega

/-- Page 0x10_0000 is mapped, and a `MAP`, a `MAPDESC` or a `MAPFB` of page 0x10_1000 follows. -/
theorem wit_MapLeavesOtherPathsAlone (i : Instr) (hi : i = .map ∨ i = .mapdesc ∨ i = .mapfb) : ∃ (s t : State) (x : PA),
    s.Populating ∧ TablesOk s ∧ AllocatorOk s ∧ t.Ready ∧ exec i s = .next t ∧
    translateVA s.mem (rootBase s.cfg) ⟨0x100000⟩ = .mapped x ∧
    (i = .map → ¬ covered ⟨s.arg0⟩ s.arg2.toNat ⟨0x100000⟩) ∧
    (i = .mapdesc → mappedType s.cfg s.arg0 s.arg3 = true ∧ ¬ covered (identityVA s.arg1) s.arg2.toNat ⟨0x100000⟩) ∧
    (i = .mapfb → ¬ covered (identityVA s.arg0) ((s.arg1.toNat + 4095) / 4096 + 1) ⟨0x100000⟩) := by
  obtain ⟨s, -, r, ok, al, ph, hc, hf, hl⟩ := rm1_runs
  have tr (a0 a1 a2 : Word) : translateVA (withArgs s a0 a1 a2 0).mem (rootBase s.cfg) ⟨0x100000⟩ = .mapped _ :=
    (translate_mapped_iff ok).2 ⟨_, hl, rfl⟩
  have out : ¬ covered ⟨0x101000⟩ 1 ⟨0x100000⟩ := by
    rintro ⟨i, hi, hs⟩
    have : i = 0 := by omega
    subst this
    exact absurd hs (by unfold samePage; decide)
  have run (a0 a1 a2 : Word) (i : Instr) (res : Option Word) := region_runs (s := (withArgs s a0 a1 a2 0).latch i)
    (v := ⟨0x101000⟩) (p := 0x101000) (n := 0) (k := 0) (res := res) r.1 (by decide) (by decide) hc
    (tablesOk_congr (s := s) rfl rfl rfl ok) (allocatorOk_congr (s := s) rfl rfl rfl al) hf
  have st (a0 a1 a2 : Word) : (withArgs s a0 a1 a2 0).Populating := ⟨r, ph⟩
  have ok' (a0 a1 a2 : Word) : TablesOk (withArgs s a0 a1 a2 0) := tablesOk_congr (s := s) rfl rfl rfl ok
  have al' (a0 a1 a2 : Word) : AllocatorOk (withArgs s a0 a1 a2 0) := allocatorOk_congr (s := s) rfl rfl rfl al
  rcases hi with rfl | rfl | rfl
  · obtain ⟨t, e, r', -⟩ := run 0x101000 0x101000 1 .map none
    exact ⟨_, t, _, st .., ok' .., al' .., r', (exec_map (st 0x101000 0x101000 1)).trans e, tr .., fun _ => out,
      fun h => (by cases h), fun h => (by cases h)⟩
  · have hm : mappedType (withArgs s 1 0x101000 1 0).cfg 1 0 = true := by
      rw [show (withArgs s 1 0x101000 1 0).cfg = board from hc]; decide
    obtain ⟨t, e, r', -⟩ := run 1 0x101000 1 .mapdesc (some 1)
    exact ⟨_, t, _, st .., ok' .., al' .., r', (exec_mapdesc (st 1 0x101000 1) hm).trans e, tr .., fun h => (by cases h),
      fun _ => ⟨hm, out⟩, fun h => (by cases h)⟩
  · obtain ⟨t, e, r', -⟩ := run 0x101000 0 0 .mapfb (some 1)
    exact ⟨_, t, _, st .., ok' .., al' .., r', (exec_mapfb_page (st 0x101000 0 0) rfl).trans e, tr .., fun h => (by cases h),
      fun h => (by cases h), fun _ h => out (by
        have n : ((0 : Word).toNat + 4095) / 4096 + 1 = 1 := by decide
        change covered ⟨0x101000⟩ (((0 : Word).toNat + 4095) / 4096 + 1) ⟨0x100000⟩ at h
        rwa [n] at h)⟩

theorem wit_SharedPathInstallsNothing : ∃ (s t : State) (b q : Word), s.Populating ∧ TablesOk s ∧ AllocatorOk s ∧
    s.arg2 = 1 ∧ exec .map s = .next t ∧ t.Ready ∧ b.toNat % 4096 = 0 ∧ q.toNat % 4096 = 0 ∧
    b.extractLsb' 21 27 = s.arg0.extractLsb' 21 27 := by
  obtain ⟨t, e, r, -⟩ := rm1_runs
  exact ⟨_, t, 0x101000, 0x9000, ⟨⟨rfl, rfl⟩, rfl⟩, rooted_tables .., rooted_allocator .., rfl, e, r, by decide, by decide,
    by decide⟩

/-- A region on an empty root whose first request the allocator turns down, or answers with a frame that breaks its
contract: the command faults. -/
theorem region_faults {s : State} {v : VA} {p : PA} {n : Nat} {res : Option Word} {r : AllocAnswer}
    (hv : v.bits.toNat % 4096 = 0) (hp : p.toNat % 4096 = 0) (hc : s.cfg = board)
    (hz : ∀ j, isPresent (entryOf s.mem (rootBase s.cfg) j) = false) (ha : s.answers = [r])
    (hr : ∀ f, r = .frame f → frameOk f = false) :
    ∃ t, mapRegion s v p (n + 1) res = .next t ∧ t.faulted = true ∧ t.fcode = if r = .exhausted then 1 else 6 := by
  obtain ⟨m, hm⟩ : ∃ m : MapJob, m = MapJob.atPage ⟨v, p, n + 1, 0, .leaf 0, res⟩ s.cfg 0 := ⟨_, rfl⟩
  have hb : backed64 s.cfg (entryAddr (rootBase s.cfg) (levelIndex m.va .pml4)).toNat = true := by
    rw [hc]
    exact backed64_of_all backed_board (entryAddr_below (frameOk_rootBase board) (indexOk_levelIndex _ _))
  have hz : isPresent (s.mem.read64 (entryAddr (rootBase s.cfg) (levelIndex m.va .pml4)).toNat) = false :=
    hz (splitVA m.va).i4
  have ha : allocFrame s = some (r, s.takeAnswer r []) := allocFrame_eq_some_iff.2 ⟨[], ha, rfl⟩
  obtain ⟨f, info, e, hf⟩ : ∃ f info, pageFinish s m = .raise (s.takeAnswer r []) f info ∧
      f.code = if r = .exhausted then 1 else 6 := by
    have hp : m.point = .walking .pml4 ⟨rootBase s.cfg, levelIndex m.va .pml4, .readEntry⟩ := by rw [hm]; rfl
    simp only [pageFinish, hp, pageFromPml4, walkThen, resolveFrom, WalkJob.ea]
    rw [memRead_backed hb, Run_bind_ok, hz, walkAlloc, ha]
    cases r with
    | exhausted => exact ⟨_, _, rfl, rfl⟩
    | frame f => simp only [walkAnswer, hr f rfl]; exact ⟨_, _, rfl, rfl⟩
  refine ⟨(s.takeAnswer r []).raiseHere f info, ?_, rfl, hf⟩
  unfold mapRegion mapChecked
  rw [if_pos (pageAligned_iff.2 hv), if_pos (pageAligned_iff.2 hp), ← hm]
  change mapFinish s m = _
  unfold mapFinish
  rw [show m.pages - m.i = n + 1 by rw [hm]; rfl, mapPages, e]
  rfl

/-- What the three mapping commands come to on an empty root and one answer that is no good. -/
theorem commands_fault {r : AllocAnswer} (hr : ∀ f, r = .frame f → frameOk f = false) :
    (∃ t, exec .map { withArgs rooted 0x100000 0x100000 1 0 with answers := [r] } = .next t ∧ t.faulted = true ∧
      t.fcode = if r = .exhausted then 1 else 6) ∧
    (∃ t, exec .mapdesc { withArgs rooted 1 0x100000 1 0 with answers := [r] } = .next t ∧ t.faulted = true ∧
      t.fcode = if r = .exhausted then 1 else 6) ∧
    ∃ t, exec .mapfb { withArgs rooted 0x100000 0 0 0 with answers := [r] } = .next t ∧ t.faulted = true ∧
      t.fcode = if r = .exhausted then 1 else 6 := by
  have al : (0x100000 : Word).toNat % 4096 = 0 := by decide
  have ty : mappedType board 1 0 = true := by decide
  refine ⟨?_, ?_, ?_⟩
  · rw [exec_map ⟨⟨rfl, rfl⟩, rfl⟩]
    exact region_faults (n := 0) al al rfl rooted_empty rfl hr
  · rw [exec_mapdesc ⟨⟨rfl, rfl⟩, rfl⟩ ty]
    exact region_faults (n := 0) al al rfl rooted_empty rfl hr
  · rw [exec_mapfb_page ⟨⟨rfl, rfl⟩, rfl⟩ rfl]
    exact region_faults (n := 0) al al rfl rooted_empty rfl hr

/-- The first walker call of the first page finds no frame. -/
theorem wit_ExhaustedMapKeepsEarlierPages (a0 a1 a2 a3 : Word) :
    (∃ s : State, s = { withArgs rooted a0 a1 a2 a3 with answers := [.exhausted] } ∧ s.Populating ∧ TablesOk s ∧
      AllocatorOk s) ∧
    (0x100000 : Word).toNat % 4096 = 0 ∧
    (∃ t, exec .map { withArgs rooted 0x100000 0x100000 1 0 with answers := [.exhausted] } = .next t ∧ t.faulted = true) ∧
    (∃ t, exec .mapdesc { withArgs rooted 1 0x100000 1 0 with answers := [.exhausted] } = .next t ∧ t.faulted = true) ∧
    ∃ t, exec .mapfb { withArgs rooted 0x100000 0 0 0 with answers := [.exhausted] } = .next t ∧ t.faulted = true := by
  obtain ⟨⟨t, h⟩, ⟨t', h'⟩, t'', h''⟩ := commands_fault (r := .exhausted) (fun f h => by cases h)
  exact ⟨⟨_, rfl, ⟨⟨rfl, rfl⟩, rfl⟩, tablesOk_emptyRoot rooted_empty, fun f hf => by simp at hf, by simp⟩, by decide,
    ⟨t, h.1, h.2.1⟩, ⟨t', h'.1, h'.2.1⟩, t'', h''.1, h''.2.1⟩

/-- The first walker call of the first page is answered with an unaligned frame. -/
theorem wit_BadFrameKeepsEarlierPages (a0 a1 a2 a3 : Word) :
    (∃ s : State, s = { withArgs rooted a0 a1 a2 a3 with answers := [.frame 0x500001] } ∧ s.Populating ∧ TablesOk s ∧
      AllocatorFresh s) ∧
    (0x100000 : Word).toNat % 4096 = 0 ∧
    (∃ t, exec .map { withArgs rooted 0x100000 0x100000 1 0 with answers := [.frame 0x500001] } = .next t ∧
      t.faulted = true ∧ t.fcode ≠ 1) ∧
    (∃ t, exec .mapdesc { withArgs rooted 1 0x100000 1 0 with answers := [.frame 0x500001] } = .next t ∧
      t.faulted = true ∧ t.fcode ≠ 1) ∧
    ∃ t, exec .mapfb { withArgs rooted 0x100000 0 0 0 with answers := [.frame 0x500001] } = .next t ∧
      t.faulted = true ∧ t.fcode ≠ 1 := by
  obtain ⟨⟨t, h⟩, ⟨t', h'⟩, t'', h''⟩ := commands_fault (r := .frame 0x500001) (fun f h => by cases h; decide)
  have six : ¬ (if AllocAnswer.frame 0x500001 = .exhausted then (1 : BitVec 4) else 6) = 1 := by decide
  refine ⟨⟨_, rfl, ⟨⟨rfl, rfl⟩, rfl⟩, tablesOk_emptyRoot rooted_empty, fun f hf ho => ?_, by simp⟩, by decide,
    ⟨t, h.1, h.2.1, h.2.2 ▸ six⟩, ⟨t', h'.1, h'.2.1, h'.2.2 ▸ six⟩, t'', h''.1, h''.2.1, h''.2.2 ▸ six⟩
  simp only [List.mem_cons, AllocAnswer.frame.injEq, List.not_mem_nil, or_false] at hf
  subst hf
  exact absurd ho (by decide)

theorem wit_RootzZeroesTheRoot : idle.Ready ∧ idle.phase = .uninit := ⟨⟨rfl, rfl⟩, rfl⟩

/-- `ROOTZ` from an idle block in UNINIT. -/
theorem rootz_runs {s : State} (hr : s.Ready) (hu : s.phase = .uninit) :
    exec .rootz s = .next (rootzDone ((s.latch .rootz).setMem (s.mem.zeroEntries (rootBase s.cfg).toNat 512))) := by
  have e : exec .rootz s = bodyRootz s.latchArgs (s.latch .rootz) :=
    issue_admitted (body := bodyRootz) hr.1 hr.2 (by rw [hu]; rfl)
  rw [e, bodyRootz, rootzFinish, Nat.mul_zero, Nat.add_zero, Nat.sub_zero, State.latch_mem, State.latch_cfg]

theorem wit_RootzMapsNothing : ∃ s t : State, s.Ready ∧ exec .rootz s = .next t ∧ t.Ready :=
  ⟨idle, _, ⟨rfl, rfl⟩, rootz_runs ⟨rfl, rfl⟩ rfl, ⟨rfl, rfl⟩⟩

theorem wit_EnableLoadsTheRoot : pop.Populating := ⟨⟨rfl, rfl⟩, rfl⟩

theorem wit_PostActivationContract : ∃ (s t u w : State) (rs : List (VA × Nat)), s.Ready ∧ s.phase = .uninit ∧
    AllocatorOk s ∧ exec .rootz s = .next t ∧ Populates t rs u ∧ exec .enable u = .next w ∧ w.phase = .active ∧
    (∃ r ∈ rs, covered r.1 r.2 ⟨0x100FFF⟩) ∧ ∀ r ∈ rs, ¬ covered r.1 r.2 ⟨0x101000⟩ := by
  obtain ⟨t, ht⟩ : ∃ t : State, t = rootzDone ((({ idle with answers := six } : State).latch .rootz).setMem
    (Memory.zeroEntries [] (rootBase board).toNat 512)) := ⟨_, rfl⟩
  have zero (j : BitVec 9) : isPresent (entryOf t.mem (rootBase t.cfg) j) = false := by
    rw [ht]
    exact rooted_empty j
  have pt : t.Populating := by rw [ht]; exact ⟨⟨rfl, rfl⟩, rfl⟩
  have ok : TablesOk (withArgs t 0x100000 0x100000 1 t.arg3) :=
    tablesOk_congr (s := t) rfl rfl rfl (tablesOk_emptyRoot zero)
  have al : AllocatorOk (withArgs t 0x100000 0x100000 1 t.arg3) :=
    allocatorOk_congr (s := t) rfl rfl rfl (allocatorOk_six (by rw [ht]; rfl) (by rw [ht]; rfl) (by rw [ht]; rfl))
  obtain ⟨u, e, r, -, -, ph, -⟩ := map_runs (s := withArgs t 0x100000 0x100000 1 t.arg3) (k := 3) pt
    (by show (0x100000 : Word).toNat % 4096 = 0; decide) (by show (0x100000 : Word).toNat % 4096 = 0; decide) rfl
    (by rw [ht]; rfl) ok al (framesReady_six (by rw [ht]; rfl))
  obtain ⟨w, ew, pw⟩ := enable_runs (s := u) ⟨r, ph⟩
  refine ⟨{ idle with answers := six }, t, u, w, [(⟨0x100000⟩, 1)], ⟨rfl, rfl⟩, rfl, allocatorOk_six rfl rfl rfl,
    by rw [ht]; exact rootz_runs ⟨rfl, rfl⟩ rfl, .map 0x100000 0x100000 1 e r (.done u), ew, pw,
    ⟨(⟨0x100000⟩, 1), by simp, 0, Nat.zero_lt_one, by unfold samePage; decide⟩, ?_⟩
  intro x hx
  simp only [List.mem_cons, List.not_mem_nil, or_false] at hx
  subst hx
  rintro ⟨i, hi, hs⟩
  have : i = 0 := by have : i < 1 := hi; omega
  subst this
  exact absurd hs (by unfold samePage; decide)

theorem wit_ResetValues : ∃ s t : State, s.inputs = .reset :: [] ∧ step s = .next t :=
  ⟨{ waiting with faulted := true, inputs := [.reset] }, _, rfl, rfl⟩

theorem wit_StepKeepsInvariant : ∃ t, Inv { idle with inputs := [cmdWrite 0x02] } ∧
    step { idle with inputs := [cmdWrite 0x02] } = .next t :=
  (next_of (by decide)).imp fun _ h => ⟨⟨idle_inv.1, idle_inv.2, idle_inv.3, rfl, idle_inv.5, idle_inv.6, idle_inv.7⟩, h⟩

theorem root_board : (0x80000 : Word) = rootBase board := by decide

theorem pop_inv (is : List Input) : Inv { pop with inputs := is } where
  memory := idle_inv.memory
  clean := fun _ => ⟨rfl, rfl, rfl⟩
  recorded := fun h => by cases h
  cr3 := rfl
  paging := fun h => by cases h
  job := fun j h => by cases h
  orphan := fun h => by cases h

theorem active_inv (is : List Input) : Inv { active with inputs := is } where
  memory := idle_inv.memory
  clean := fun _ => ⟨rfl, rfl, rfl⟩
  recorded := fun h => by cases h
  cr3 := root_board
  paging := fun _ => root_board
  job := fun j h => by cases h
  orphan := fun h => by cases h

theorem wit_PhaseTransitions :
    (∃ t, Inv { idle with inputs := [cmdWrite 0x0C] } ∧ step { idle with inputs := [cmdWrite 0x0C] } = .next t ∧
      t.phase ≠ idle.phase) ∧
    (∃ t, Inv { pop with inputs := [cmdWrite 0x0D] } ∧ step { pop with inputs := [cmdWrite 0x0D] } = .next t ∧
      t.phase ≠ pop.phase) ∧
    (∃ t, Inv { active with inputs := [.reset] } ∧ step { active with inputs := [.reset] } = .next t ∧
      t.phase ≠ active.phase) :=
  ⟨⟨_, ⟨idle_inv.1, idle_inv.2, idle_inv.3, rfl, idle_inv.5, idle_inv.6, idle_inv.7⟩, rootz_runs (s := { idle with inputs := [] })
      ⟨rfl, rfl⟩ rfl, by decide⟩,
    ⟨_, pop_inv _, rfl, by decide⟩, ⟨_, active_inv _, rfl, by decide⟩⟩

/-- POPULATING, with the firmware's paging-control register known to differ from `ROOT_BASE`. -/
theorem wit_PagingRegisterWrittenOnlyByEnable :
    ∃ t, Inv { pop with pagingReg := 0x1000, inputs := [cmdWrite 0x0D] } ∧
      step { pop with pagingReg := 0x1000, inputs := [cmdWrite 0x0D] } = .next t ∧ t.pagingReg ≠ 0x1000 :=
  ⟨_, ⟨(pop_inv []).1, (pop_inv []).2, (pop_inv []).3, rfl, fun h => (by cases h), fun j h => (by cases h),
    fun h => (by cases h)⟩, rfl,
    by decide⟩

/-- In ACTIVE, a codec command that has been accepted, and one that is issued. -/
def activeBusy : State := { active with seq := some ⟨.pinit, ⟨0, 0, 0, 0⟩, .start⟩ }

theorem activeBusy_inv : Inv activeBusy :=
  ⟨(active_inv []).1, (active_inv []).2, fun h => (by cases h), (active_inv []).4, (active_inv []).5,
    fun j h => (by cases h; exact ⟨rfl, trivial⟩), fun h => (by cases h)⟩

theorem wit_ActiveFreezesTheTables :
    (∃ t, Inv { active with inputs := [] } ∧ active.phase = .active ∧ exec .map active = .next t) ∧
    (∃ t, Inv activeBusy ∧ activeBusy.phase = .active ∧ tick activeBusy = .next t) ∧
    (∃ t, Inv activeBusy ∧ activeBusy.phase = .active ∧ runOn activeBusy = .next t) :=
  ⟨⟨_, active_inv [], rfl, rfl⟩, ⟨_, activeBusy_inv, rfl, rfl⟩, ⟨_, activeBusy_inv, rfl, rfl⟩⟩

theorem wit_FaultedCommandWritesNoResult :
    (∃ t, exec .map (withArgs pop 0x1001 0x1000 1 0) = .next t ∧ t.faulted = true) ∧
    ∃ t, exec .walk (lastEntry 0) = .next t ∧ t.busy = true := by
  refine ⟨⟨_, rfl, rfl⟩, ?_⟩
  cases h : exec .walk (lastEntry 0) with
  | next t =>
    have hb : seen (exec .walk (lastEntry 0)) (·.busy) = some true := by decide +kernel
    rw [h] at hb
    exact ⟨t, rfl, Option.some.inj hb⟩
  | fault f =>
    have hb : seen (exec .walk (lastEntry 0)) (·.busy) = some true := by decide +kernel
    rw [h] at hb
    cases hb
  | refused r =>
    have hb : seen (exec .walk (lastEntry 0)) (·.busy) = some true := by decide +kernel
    rw [h] at hb
    cases hb

/-- A `WALK` that completes, a `MAP` that faults with `ALLOCATOR_CONTRACT`, and a `WALK` that waits. -/
theorem wit_AllocsCountsInstalledTables :
    (∃ t, ({ lastEntry 0 with answers := [.frame 0x500000] } : State).Ready ∧
      exec .walk { lastEntry 0 with answers := [.frame 0x500000] } = .next t ∧ t.Ready) ∧
    (∃ t, exec .map { withArgs rooted 0x100000 0x100000 1 0 with answers := [.frame 0x500001] } = .next t ∧
      t.faulted = true ∧ t.fcode ≠ 1) ∧
    ∃ t, exec .walk (lastEntry 0) = .next t ∧ t.busy = true :=
  ⟨(completes_next (by decide +kernel)).imp fun _ h => ⟨⟨rfl, rfl⟩, h⟩, (wit_BadFrameKeepsEarlierPages 0 0 0 0).2.2.1,
    wit_FaultedCommandWritesNoResult.2⟩

theorem wit_StepByStepEqualsAtomic :
    (∃ t, tick activeBusy = .next t) ∧ ∃ t, pop.Ready ∧ accept .map pop = .next t :=
  ⟨⟨_, rfl⟩, ⟨_, ⟨rfl, rfl⟩, rfl⟩⟩

theorem wit_OperandWritesDoNotReachARunningCommand : ∃ t, activeBusy.seq.isSome = true ∧ runOn activeBusy = .next t :=
  ⟨_, rfl, rfl⟩

theorem wit_RegisterWindow (v : Word) :
    (∃ s : State, s.inputs = .host ⟨0xFC, 4, .read⟩ :: []) ∧
    (∃ s : State, s.inputs = .host ⟨0x100, 8, .read⟩ :: []) ∧
    (∃ s : State, s.inputs = .host ⟨0x70, 8, .read⟩ :: [] ∧ ((0x70 : Nat), s.cr3out) ∈ [((0x70 : Nat), s.cr3out)]) ∧
    (∃ s : State, s.inputs = .host ⟨0x78, 8, .read⟩ :: [] ∧ 0x78 % 8 = 0) ∧
    (∃ s : State, s.inputs = .host ⟨0x08, 8, .write v⟩ :: []) ∧ (∃ s : State, s.inputs = .host ⟨0x10, 8, .write v⟩ :: []) ∧
    (∃ s : State, s.inputs = .host ⟨0x18, 8, .write v⟩ :: []) ∧ (∃ s : State, s.inputs = .host ⟨0x20, 8, .write v⟩ :: []) ∧
    (∃ s : State, s.inputs = .host ⟨0x28, 8, .write v⟩ :: [] ∧ 0x28 % 8 = 0) ∧
    (∃ s : State, s.inputs = .host ⟨0xF8, 8, .write v⟩ :: [] ∧ 0xF8 % 8 = 0) := by
  refine ⟨⟨{ idle with inputs := _ }, rfl⟩, ⟨{ idle with inputs := _ }, rfl⟩, ⟨{ idle with inputs := _ }, rfl, by simp⟩,
    ⟨{ idle with inputs := _ }, rfl, by decide⟩, ⟨{ idle with inputs := _ }, rfl⟩, ⟨{ idle with inputs := _ }, rfl⟩,
    ⟨{ idle with inputs := _ }, rfl⟩, ⟨{ idle with inputs := _ }, rfl⟩, ⟨{ idle with inputs := _ }, rfl, by decide⟩,
    ⟨{ idle with inputs := _ }, rfl, by decide⟩⟩

theorem wit_AnswersWithoutRequestAreIgnored :
    (({ idle with inputs := [.answer .exhausted] } : State).inputs = .answer .exhausted :: [] ∧ idle.orphan = false ∧
      awaitsAllocator { idle with inputs := [.answer .exhausted] } = false) ∧
    (({ waiting with inputs := [.answer .exhausted] } : State).inputs = .answer .exhausted :: [] ∧
      awaitsAllocator { waiting with inputs := [.answer .exhausted] } = true ∧ waiting.answers = []) ∧
    (({ waiting.interrupt 0x01 with inputs := [.answer .exhausted] } : State).inputs = .answer .exhausted :: [] ∧
      (waiting.interrupt 0x01).orphan = true) ∧
    (({ waiting.interrupt 0x01 with inputs := [.answer (.frame 0x500000)] } : State).inputs =
      .answer (.frame 0x500000) :: []) ∧
    (awaitsAllocator { waiting with answers := [.frame 0x500000], inputs := [.reset] } = true ∧
      ({ waiting with answers := [.frame 0x500000], inputs := [.reset] } : State).inputs = .reset :: []) := by
  decide

/-- A frame that came before `COMMAND_WHILE_BUSY`, or comes after it, stays table memory in POPULATING (rule R254 (a), log
entry 26), and no request after a reset takes it (rule R250). -/
theorem test_request_left_behind :
    stopped (step { answered.interrupt 0x01 with inputs := [.agentStore 0x500FFF [1]] }) =
      some (.inr (.tableMemoryShared 0x500FFF)) ∧
    seen (step { answered.interrupt 0x01 with inputs := [.reset] }) (fun t => (t.answers, t.granted)) = some ([], []) ∧
    seen (step { waiting.interrupt 0x01 with inputs := [.answer (.frame 0x500000)] })
      (fun t => (t.answers, t.granted, t.orphan)) = some ([], [0x500000], false) ∧
    seen (step { waiting.interrupt 0x01 with inputs := [.reset] }) (·.orphan) = some false := by decide

/-- A store to a frame just answered is refused (rule R254 (a)), and one to the frame after it is not. -/
theorem test_store_to_answered_frame :
    stopped (step { answered with inputs := [.agentStore 0x500FFF [1]] }) = some (.inr (.tableMemoryShared 0x500FFF)) ∧
    stopped (step { answered with inputs := [.agentStore 0x501000 [1]] }) = none := by decide

/-- A reset drops the answer of the request it abandons (rule R250). -/
theorem test_reset_drops_answer :
    seen (step { answered with inputs := [.reset] }) (·.answers) = some [] ∧
    seen (step { idle with answers := [.exhausted], inputs := [.reset] }) (·.answers) = some [.exhausted] := by decide

theorem wit_EnvironmentDutiesAreRefused :
    (0x80FFF + [(1 : Byte)].length ≤ 2 ^ 64 ∧ pop.phase = .populating ∧
      ∃ k < [(1 : Byte)].length, tableByte pop (0x80FFF + k) = true) ∧
    (0x81000 + [(1 : Byte)].length ≤ 2 ^ 64 ∧ ∀ k < [(1 : Byte)].length, tableByte pop (0x81000 + k) = false) ∧
    (answered.phase = .populating ∧ tableByte answered 0x500FFF = true ∧ tableByte answered 0x501000 = false) ∧
    (waiting.phase = .populating ∧ waiting.seq.isSome = true ∧ ∃ k < 8, tableByte waiting (0x7FFF9 + k) = true) ∧
    (waiting.phase = .populating ∧ ∀ k < 8, tableByte waiting (0x7FFF8 + k) = false) ∧ pop.seq = none ∧
    pop.phase = .populating ∧ idle.phase = .uninit ∧ (0x1000 : Word) ≠ rootBase idle.cfg := by
  decide

theorem wit_TableMemoryOnlyGrows : ∃ t, Inv { pop with inputs := [cmdWrite 0x02] } ∧
    step { pop with inputs := [cmdWrite 0x02] } = .next t ∧
    ({ pop with inputs := [cmdWrite 0x02] } : State).inputs.head? ≠ some .reset ∧
    tableByte { pop with inputs := [cmdWrite 0x02] } 0x80FFF = true :=
  (next_of (by decide)).imp fun _ h => ⟨pop_inv _, h, by decide, by decide⟩

theorem wit_WaitPollsStatus : idle.seq = none ∧ waiting.seq.isSome = true ∧
    ({ idle with inputs := [.wait] } : State).inputs = .wait :: [] := by decide

theorem wit_SignBitsDoNotMatter :
    BitVec.extractLsb' 0 48 (VA.mk 0x0001000000001000).bits = BitVec.extractLsb' 0 48 (VA.mk 0x1000).bits := by decide

/-- Tables that leave virtual page 0x10_1000 unmapped. -/
def activeTables : State :=
  { withEntries active (lowPath ++ [(0x502800, 0x100003), (0x502808, 0)]) with
    inputs := [.cpuTouch ⟨0x101000⟩ false 15 true] }

theorem wit_UnmappedAccessFaults : activeTables.phase = .active ∧
    activeTables.inputs = .cpuTouch ⟨0x101000⟩ false 15 true :: [] ∧
    translateVA activeTables.mem (rootBase activeTables.cfg) ⟨0x101000⟩ = .notMapped .pt := by
  decide +kernel

theorem wit_CpuUpdatesKeepTranslations :
    ∃ t, step { activeTables with inputs := [.cpuTouch ⟨0x100000⟩ true 15 true] } = .next t :=
  next_of (by decide +kernel)

/-- The CPU's walk of page 0x10_0000, with accessed and dirty bits set in ACTIVE; the same tables in UNINIT, after a reset
that followed `ENABLE`. -/
theorem wit_CpuWalkSetsAccessedAndDirty :
    (activeTables.CpuWalks ∧ State.CpuWalks { activeTables with phase := .uninit, cr3out := 0 }) ∧
    translateVA activeTables.mem (rootBase activeTables.cfg) ⟨0x100000⟩ = .mapped 0x100000 :=
  ⟨⟨.inl rfl, .inr ⟨rfl, by decide⟩⟩, by decide +kernel⟩

/-- Rule R70: bit 5 in the four entries, bit 6 in the leaf of a written page. -/
theorem test_cpu_walk :
    seen (step { activeTables with inputs := [.cpuTouch ⟨0x100000⟩ true 15 true] })
      (fun t => (t.mem.read64 0x80000, t.mem.read64 0x502800, t.mem.read64 0x502808)) =
      some (0x500023, 0x100063, 0) ∧
    seen (step { activeTables with phase := .uninit, inputs := [.cpuTouch ⟨0x100000⟩ false 8 true] })
      (fun t => (t.mem.read64 0x80000, t.mem.read64 0x502800)) = some (0x500023, 0x100003) := by decide +kernel

end Sys2Proof.Tests
end

section
/-! SUPPORT. What one step of the machine can do (rule R20, rule R34, rule R35): `step_effect` names its five kinds. An
access of the environment stays within `EnvironmentOnly`, a command within `CommandOnly`, but for `ROOTZ` and `ENABLE`,
which also move the phase. -/

namespace Sys2Proof.Laws
open Sys2Proof.Machine

/-! The decoder, read backwards (rule R86). -/

theorem opcode_of_lookup {b : BitVec 8} {i : Instr} (h : opcodeMap.lookup b = some i) : b = opcode i := by
  obtain ⟨l, r, e, -⟩ := List.lookup_eq_some_iff.1 h
  have hmem : (b, i) ∈ opcodeMap := by simp [e]
  have hall : ∀ p ∈ opcodeMap, p.1 = opcode p.2 := by decide
  exact hall _ hmem

theorem eq_setWidth_of_parts {c : Word} {b : BitVec 8} (high : c.extractLsb' 8 56 = 0) (low : c.extractLsb' 0 8 = b) :
    c = b.setWidth 64 := by
  have high := congrArg BitVec.toNat high
  subst low
  apply BitVec.eq_of_toNat_eq
  simp only [BitVec.extractLsb'_toNat, BitVec.toNat_setWidth, Nat.shiftRight_eq_div_pow, BitVec.ofNat_eq_ofNat,
    BitVec.toNat_ofNat] at high ⊢
  omega

/-- The word of a command is its `encode`. -/
theorem eq_encode_of_decode {c : Word} {i : Instr} (h : decode c = .ok i) : c = encode i := by
  unfold decode at h
  split at h
  · cases h
  · rename_i high
    split at h
    · rename_i i' hl
      cases h
      exact eq_setWidth_of_parts (not_not.1 high) (opcode_of_lookup hl)
    · cases h

/-! The fields the environment's inputs may change, and those a command may. -/

/-- Only the operands, memory, the allocator's side, the inputs and the host's data may differ: everything the block's
sequencer holds and records is as before. -/
def EnvironmentOnly (s t : State) : Prop :=
  t = { s with
    arg0 := t.arg0, arg1 := t.arg1, arg2 := t.arg2, arg3 := t.arg3, mem := t.mem, granted := t.granted
    answers := t.answers, orphan := t.orphan, inputs := t.inputs, hostData := t.hostData }

/-- Only the results, the fault record, the sequencer, memory, `ALLOCS` and the allocator's answers may differ: operands,
phase, paging registers and the environment's own fields are as before. -/
def CommandOnly (s t : State) : Prop :=
  t = { s with
    res0 := t.res0, res1 := t.res1, res2 := t.res2, res3 := t.res3, res4 := t.res4, faulted := t.faulted
    fcode := t.fcode, fopc := t.fopc, finfo := t.finfo, allocs := t.allocs, seq := t.seq, mem := t.mem
    granted := t.granted, answers := t.answers }

theorem EnvironmentOnly.trans {s u t : State} (h : EnvironmentOnly s u) (h' : EnvironmentOnly u t) :
    EnvironmentOnly s t := by
  unfold EnvironmentOnly at *
  rw [h', h]

theorem EnvironmentOnly.phase {s t : State} (h : EnvironmentOnly s t) : t.phase = s.phase := by rw [h]
theorem EnvironmentOnly.seq {s t : State} (h : EnvironmentOnly s t) : t.seq = s.seq := by rw [h]
theorem EnvironmentOnly.faulted {s t : State} (h : EnvironmentOnly s t) : t.faulted = s.faulted := by rw [h]
theorem EnvironmentOnly.fcode {s t : State} (h : EnvironmentOnly s t) : t.fcode = s.fcode := by rw [h]
theorem EnvironmentOnly.fopc {s t : State} (h : EnvironmentOnly s t) : t.fopc = s.fopc := by rw [h]
theorem EnvironmentOnly.finfo {s t : State} (h : EnvironmentOnly s t) : t.finfo = s.finfo := by rw [h]

theorem CommandOnly.trans {s u t : State} (h : CommandOnly s u) (h' : CommandOnly u t) : CommandOnly s t := by
  unfold CommandOnly at *
  rw [h', h]

theorem CommandOnly.phase {s t : State} (h : CommandOnly s t) : t.phase = s.phase := by rw [h]

/-- What the walker and the mapper may change is among what a command may. -/
theorem commandOnly_of_onlyTables {s t : State} (h : onlyTables s t) : CommandOnly s t := by
  unfold CommandOnly
  rw [h]

/-! The parts of a command. -/

theorem finish_commandOnly {ω α : Type} {r : Run ω α} {hold : ω → Task} {k : State → α → Result} {s t : State}
    (hr : Ends (onlyTables s) r) (hk : ∀ s' a, k s' a = .next t → CommandOnly s' t) (e : r.finish hold k = .next t) :
    CommandOnly s t := by
  cases r with
  | ok s' a => exact (commandOnly_of_onlyTables hr).trans (hk s' a e)
  | raise s' f info => cases e; exact (commandOnly_of_onlyTables hr).trans rfl
  | wait s' w => cases e; exact (commandOnly_of_onlyTables hr).trans rfl
  | stop f => cases e

theorem walkChecked_commandOnly {a : Args} {s t : State} {k : WalkJob → Result}
    (hk : ∀ w, k w = .next t → CommandOnly s t) (e : walkChecked a s k = .next t) : CommandOnly s t := by
  unfold walkChecked at e
  split at e
  · split at e
    · exact hk _ e
    · cases e; rfl
  · cases e; rfl

theorem mapChecked_commandOnly {s t : State} {v : VA} {p : PA} {n : Nat} {res : Option Word} {k : MapJob → Result}
    (hk : ∀ m, k m = .next t → CommandOnly s t) (e : mapChecked s v p n res k = .next t) : CommandOnly s t := by
  unfold mapChecked at e
  split at e
  · split at e
    · exact hk _ e
    · cases e; rfl
  · cases e; rfl

theorem descChecked_commandOnly {a : Args} {s t : State} {k : Result} (hk : k = .next t → CommandOnly s t)
    (e : descChecked a s k = .next t) : CommandOnly s t := by
  unfold descChecked at e
  split at e
  · exact hk e
  · cases e; rfl

theorem mapDone_commandOnly (s : State) (m : MapJob) : CommandOnly s (mapDone s m) := by
  rw [mapDone_eq]; rfl

theorem walkFinish_commandOnly {s t : State} {w : WalkJob} (e : walkFinish s w = .next t) : CommandOnly s t :=
  finish_commandOnly (resolveFrom_only w (onlyTables_refl _)) (fun _ _ e => by cases e; rfl) e

theorem walkCommandTick_commandOnly {s t : State} {w : WalkJob} (e : walkCommandTick s w = .next t) :
    CommandOnly s t :=
  finish_commandOnly (walkTick_only w (onlyTables_refl _)) (fun _ n e => by cases n <;> cases e <;> rfl) e

theorem mapFinish_commandOnly {s t : State} {m : MapJob} (e : mapFinish s m = .next t) : CommandOnly s t :=
  finish_commandOnly (mapPages_only _ m (onlyTables_refl _)) (fun _ _ e => by cases e; exact mapDone_commandOnly _ _) e

theorem mapRegion_commandOnly {s t : State} {v : VA} {p : PA} {n : Nat} {res : Option Word}
    (e : mapRegion s v p n res = .next t) : CommandOnly s t :=
  mapChecked_commandOnly (fun _ => mapFinish_commandOnly) e

theorem enterMap_commandOnly {s t : State} {m : MapJob} (e : enterMap s m = .next t) : CommandOnly s t := by
  unfold enterMap at e
  split at e <;> cases e
  · rfl
  · exact mapDone_commandOnly _ _

theorem mapTick_commandOnly {s t : State} {m : MapJob} (e : mapTick s m = .next t) : CommandOnly s t := by
  unfold mapTick at e
  split at e
  · split at e
    · exact finish_commandOnly (walkTick_only _ (onlyTables_refl _)) (fun _ n e => by cases n <;> cases e <;> rfl) e
    · refine finish_commandOnly (leafWrite_only m _ (onlyTables_refl _)) (fun s' _ e => ?_) e
      split at e <;> cases e
      · rfl
      · exact mapDone_commandOnly _ _
  · cases e; exact mapDone_commandOnly _ _

/-! Whole commands. `ROOTZ` and `ENABLE` are the two that move the phase. -/

/-- All that command `i` can do at once, whether it completes, faults, waits or makes one step. -/
inductive CommandEffect : Instr → State → State → Prop where
  | only {i : Instr} {s t : State} (h : CommandOnly s t) : CommandEffect i s t
  | rootz {s : State} (m : Memory) : CommandEffect .rootz s (rootzDone (s.setMem m))
  | enable {s : State} : CommandEffect .enable s ((writeCr3 s (rootBase s.cfg)).setPhase .active).complete

theorem bodyOf_effect {i : Instr} {a : Args} {s t : State} (e : bodyOf i a s = .next t) : CommandEffect i s t := by
  cases i with
  | adec => cases e; exact .only rfl
  | pinit => cases e; exact .only rfl
  | pframe => cases e; exact .only rfl
  | ppres => cases e; exact .only rfl
  | pget =>
    simp only [bodyOf, bodyPget] at e
    split at e <;> cases e <;> exact .only rfl
  | pset =>
    simp only [bodyOf, bodyPset] at e
    split at e
    · cases e; exact .only rfl
    · split at e <;> cases e <;> exact .only rfl
  | einit =>
    simp only [bodyOf, bodyEinit] at e
    split at e
    · exact .only (finish_commandOnly (memWrite_only _ _ (onlyTables_refl _)) (fun _ _ e => by cases e; rfl) e)
    · cases e; exact .only rfl
  | walk => exact .only (walkChecked_commandOnly (fun _ => walkFinish_commandOnly) e)
  | map => exact .only (mapRegion_commandOnly e)
  | mapdesc => exact .only (descChecked_commandOnly mapRegion_commandOnly e)
  | mapfb => exact .only (mapRegion_commandOnly e)
  | rootz => cases e; exact .rootz _
  | enable => cases e; exact .enable

/-- A command without an iteration is done in its first step; of the others it makes the checks. -/
theorem startTick_effect {i : Instr} {a : Args} {s t : State} (e : startTick i a s = .next t) :
    CommandEffect i s t := by
  cases i with
  | walk =>
    simp only [startTick] at e
    exact .only (walkChecked_commandOnly (fun _ e => by cases e; rfl) e)
  | map =>
    simp only [startTick] at e
    exact .only (mapChecked_commandOnly (fun _ => enterMap_commandOnly) e)
  | mapdesc => exact .only (descChecked_commandOnly (mapChecked_commandOnly fun _ => enterMap_commandOnly) e)
  | mapfb =>
    simp only [startTick] at e
    exact .only (mapChecked_commandOnly (fun _ => enterMap_commandOnly) e)
  | rootz => cases e; exact .only rfl
  | _ => exact bodyOf_effect e

theorem rootzTick_effect {s t : State} {k : Nat} (e : rootzTick s k = .next t) : CommandEffect .rootz s t := by
  unfold rootzTick at e
  split at e
  · split at e <;> cases e
    · exact .only rfl
    · exact .rootz _
  · cases e; exact .rootz s.mem

theorem tick_effect {s t : State} {j : Job} (hs : s.seq = some j) (ok : jobOk s.phase j) (e : tick s = .next t) :
    CommandEffect j.instr s t := by
  obtain ⟨i, a, task⟩ := j
  obtain ⟨-, ok⟩ := ok
  simp only [tick, hs] at e
  cases task with
  | start => exact startTick_effect e
  | walk w => exact .only (walkCommandTick_commandOnly e)
  | map m => exact .only (mapTick_commandOnly e)
  | rootz k => obtain ⟨rfl, -⟩ := ok; exact rootzTick_effect e

theorem runOn_effect {s t : State} {j : Job} (hs : s.seq = some j) (ok : jobOk s.phase j) (e : runOn s = .next t) :
    CommandEffect j.instr s t := by
  obtain ⟨i, a, task⟩ := j
  obtain ⟨-, ok⟩ := ok
  simp only [runOn, hs] at e
  cases task with
  | start => exact bodyOf_effect e
  | walk w => exact .only (walkFinish_commandOnly e)
  | map m => exact .only (mapFinish_commandOnly e)
  | rootz k => obtain ⟨rfl, -⟩ := ok; cases e; exact .rootz _

theorem tick_idle {s : State} (hs : s.seq = none) : tick s = .next s := by simp [tick, hs]
theorem runOn_idle {s : State} (hs : s.seq = none) : runOn s = .next s := by simp [runOn, hs]

/-- Executing a command is issuing it with its own steps as the body. -/
theorem exec_eq_issue (i : Instr) (s : State) : exec i s = issue i (bodyOf i) s := by cases i <;> rfl

/-- The latched operands and the set `BUSY` are gone when the command has ended. -/
theorem effect_of_latch {i : Instr} {s t : State} (h : CommandEffect i (s.latch i) t) : CommandEffect i s t := by
  cases h with
  | only h =>
    have hl : CommandOnly s (s.latch i) := rfl
    exact .only (hl.trans h)
  | rootz m => exact .rootz m
  | enable => exact .enable

/-! One step of the machine. -/

/-- The command `i` is the one that moves in a step from `s`: the host writes its word to `CMD`, or it runs. -/
def Moves (s : State) (i : Instr) : Prop :=
  s.inputs.head? = some (cmdWrite (encode i)) ∨ ∃ j, s.seq = some j ∧ j.instr = i

/-- All that a step can do: a reset; nothing to the block but a host or agent access; a fault recorded by a write to
`CMD`; a command accepted; a command moved. -/
inductive StepEffect (s t : State) : Prop where
  | reset (h : s.inputs.head? = some .reset) (ht : t = resetBlock (s.setInputs s.inputs.tail))
  | environment (h : EnvironmentOnly s t)
  | raised {u : State} (hf : s.faulted = false) (h : EnvironmentOnly s u) (c : Word) (f : Cause) (info : Word)
      (ht : t = u.raise c f info)
  | accepted {u : State} (hf : s.faulted = false) (h : EnvironmentOnly s u) (i : Instr) (ha : admits i s.phase = true)
      (ht : t = u.latch i)
  | command {u : State} (hf : s.faulted = false) (h : EnvironmentOnly s u) (i : Instr) (hm : Moves s i)
      (ha : admits i s.phase = true) (he : CommandEffect i u t)

theorem environmentOnly_leaveRequest (s : State) : EnvironmentOnly s s.leaveRequest := by
  rw [State.leaveRequest_eq]; rfl

theorem environmentOnly_plainAccess (s : State) (r : HostReg) (op : HostOp) : EnvironmentOnly s (plainAccess s r op) := by
  cases op with
  | read => rfl
  | write v => cases r <;> rfl

theorem environmentOnly_answerStep (r : AllocAnswer) (s : State) : EnvironmentOnly s (answerStep r s) := by
  unfold answerStep
  split
  · rfl
  · split <;> rfl

theorem stepEffect_interrupt {s u : State} (c : Word) (hf : s.faulted = false) (hu : EnvironmentOnly s u) :
    StepEffect s (u.interrupt c) :=
  .raised hf (hu.trans (environmentOnly_leaveRequest u)) c _ _ rfl

theorem stepEffect_issue {s u t : State} {i : Instr} {body : Args → State → Result} (hu : EnvironmentOnly s u)
    (hbody : s.faulted = false → admits i s.phase = true → body u.latchArgs (u.latch i) = .next t → StepEffect s t)
    (e : issue i body u = .next t) : StepEffect s t := by
  obtain ⟨-, h⟩ | ⟨hf, -, h⟩ | ⟨hf, -, -, h⟩ | ⟨hf, -, ha, h⟩ := issue_cases i body u <;> rw [h] at e
  · cases e; exact .environment hu
  · cases e; exact stepEffect_interrupt _ (hu.faulted ▸ hf) hu
  · cases e; exact .raised (hu.faulted ▸ hf) hu _ _ _ rfl
  · exact hbody (hu.faulted ▸ hf) (hu.phase ▸ ha) e

theorem stepEffect_issueIllegal {s u : State} (c : Word) (hu : EnvironmentOnly s u) :
    StepEffect s (issueIllegal c u) := by
  unfold issueIllegal
  split
  · exact .environment hu
  · rename_i hf
    have hf : s.faulted = false := hu.faulted ▸ Bool.eq_false_iff.2 hf
    split
    · exact stepEffect_interrupt c hf hu
    · exact .raised hf hu _ _ _ rfl

theorem stepEffect_commandAccept {s u t : State} {c : Word} (hu : EnvironmentOnly s u)
    (e : commandAccept c u = .next t) : StepEffect s t := by
  unfold commandAccept at e
  split at e
  · exact stepEffect_issue hu (fun hf ha e => by cases e; exact .accepted hf hu _ ha rfl) e
  · cases e; exact stepEffect_issueIllegal c hu

theorem stepEffect_commandWrite {s u t : State} {c : Word} (hu : EnvironmentOnly s u)
    (hc : s.inputs.head? = some (cmdWrite c)) (e : commandWrite c u = .next t) : StepEffect s t := by
  unfold commandWrite at e
  split at e
  · rename_i i hd
    rw [exec_eq_issue] at e
    rw [eq_encode_of_decode hd] at hc
    exact stepEffect_issue hu (fun hf ha e => .command hf hu i (.inl hc) ha (effect_of_latch (bodyOf_effect e))) e
  · cases e; exact stepEffect_issueIllegal c hu

/-- The sequencer moves, by one step or to the command's end. -/
theorem stepEffect_sequencer {s u t : State} {move : State → Result} (hi : Inv s) (hu : EnvironmentOnly s u)
    (idle : u.seq = none → move u = .next u)
    (busy : ∀ j, u.seq = some j → jobOk u.phase j → move u = .next t → CommandEffect j.instr u t)
    (e : move u = .next t) : StepEffect s t := by
  cases hs : u.seq with
  | none => rw [idle hs] at e; cases e; exact .environment hu
  | some j =>
    have hs' : s.seq = some j := hu.seq ▸ hs
    have hf : s.faulted = false := by
      by_contra hf
      simp [(hi.recorded (Bool.eq_true_of_not_eq_false hf)).1] at hs'
    have ok := hi.job j hs'
    exact .command hf hu j.instr (.inr ⟨j, hs', rfl⟩) ok.1 (busy j hs (hu.phase ▸ ok) e)

theorem stepEffect_tick {s u t : State} (hi : Inv s) (hu : EnvironmentOnly s u) (e : tick u = .next t) :
    StepEffect s t := stepEffect_sequencer hi hu tick_idle (fun _ => tick_effect) e

theorem stepEffect_runOn {s u t : State} (hi : Inv s) (hu : EnvironmentOnly s u) (e : runOn u = .next t) :
    StepEffect s t := stepEffect_sequencer hi hu runOn_idle (fun _ => runOn_effect) e

/-! What each input can do. -/

theorem wf_iff {a : HostAccess} : a.wf = true ↔ a.width = 8 ∧ a.offset % 8 = 0 ∧ a.offset < 0x100 := by
  simp [HostAccess.wf, and_assoc]

theorem offset_of_hostRegAt_cmd {o : Nat} (h : hostRegAt o = .cmd) : o = 0 := by
  unfold hostRegAt at h
  split at h
  case h_1 => rfl
  all_goals cases h

/-- A host access that does something is a write of a word to `CMD`, or starts no command. -/
theorem hostStep_next {a : HostAccess} {s t : State} (e : hostStep a s = .next t) :
    (∃ c, a = ⟨0x00, 8, .write c⟩ ∧ commandWrite c s = .next t) ∨ EnvironmentOnly s t := by
  unfold hostStep at e
  split at e
  · rename_i hw
    split at e
    · rename_i c hr hop
      obtain ⟨o, w, op⟩ := a
      obtain ⟨rfl, -, -⟩ := wf_iff.1 hw
      obtain rfl := offset_of_hostRegAt_cmd hr
      exact .inl ⟨c, by rw [← hop], e⟩
    · cases e; exact .inr (environmentOnly_plainAccess _ _ _)
  · cases e

theorem environmentOnly_poll (s : State) (v : Word) (is : List Input) :
    EnvironmentOnly s ((s.setHostData v).setInputs is) := rfl

/-- A poll of `WAIT` lets the running command make one step (rule R90). -/
theorem waitStep_next {s t : State} (e : waitStep s = .next t) :
    (s.busy = true ∧ tick ((s.setHostData s.statusWord).setInputs (.wait :: s.inputs)) = .next t) ∨
    (s.busy = false ∧ t = s.setHostData s.statusWord) := by
  unfold waitStep at e
  split at e
  · exact .inl ⟨‹_›, e⟩
  · cases e; exact .inr ⟨Bool.eq_false_iff.2 ‹_›, rfl⟩

theorem environmentOnly_cpuWalk {s t : State} {va : VA} {writes : Bool} {setA : BitVec 4} {setD : Bool}
    (e : cpuWalk va writes setA setD s = .next t) : EnvironmentOnly s t := by
  unfold cpuWalk at e
  split at e <;> cases e
  rfl

theorem environmentOnly_cpuTouchStep {s t : State} {va : VA} {writes : Bool} {setA : BitVec 4} {setD : Bool}
    (e : cpuTouchStep va writes setA setD s = .next t) : EnvironmentOnly s t := by
  unfold cpuTouchStep at e
  split at e
  · exact environmentOnly_cpuWalk e
  · cases e
  · split at e
    · exact environmentOnly_cpuWalk e
    · cases e

theorem environmentOnly_agentStoreStep {s t : State} {a : Nat} {bytes : List Byte}
    (e : agentStoreStep a bytes s = .next t) : EnvironmentOnly s t := by
  unfold agentStoreStep at e
  split at e
  · cases e
  · split at e <;> cases e
    rfl

theorem environmentOnly_agentLoadStep {s t : State} {a : Nat} (e : agentLoadStep a s = .next t) :
    EnvironmentOnly s t := by
  unfold agentLoadStep at e
  split at e
  · cases e
  · split at e <;> cases e
    rfl

/-- Every step from a state with the invariant is one of the five kinds. -/
theorem step_effect {s t : State} (hi : Inv s) (e : step s = .next t) : StepEffect s t := by
  unfold step nextInput at e
  split at e
  · cases e; exact .environment rfl
  · rename_i x rest hx
    have hu : EnvironmentOnly s (s.setInputs rest) := rfl
    cases x with
    | host a =>
      obtain ⟨c, rfl, e⟩ | h := hostStep_next e
      · exact stepEffect_commandWrite hu (by rw [hx]; rfl) e
      · exact .environment (hu.trans h)
    | issue c => exact stepEffect_commandAccept hu e
    | tick => exact stepEffect_tick hi hu e
    | run => exact stepEffect_runOn hi hu e
    | wait =>
      obtain ⟨-, e⟩ | ⟨-, e⟩ := waitStep_next e
      · exact stepEffect_tick hi (hu.trans (environmentOnly_poll _ _ _)) e
      · rw [e]; exact .environment rfl
    | answer r => cases e; exact .environment (hu.trans (environmentOnly_answerStep r _))
    | cpuTouch va writes setA setD => exact .environment (hu.trans (environmentOnly_cpuTouchStep e))
    | agentStore a bytes => exact .environment (hu.trans (environmentOnly_agentStoreStep e))
    | agentLoad a => exact .environment (hu.trans (environmentOnly_agentLoadStep e))
    | reset => cases e; exact .reset (by rw [hx]; rfl) (by rw [hx]; rfl)

/-- Settles O7: of the kinds of steps, only a reset and those that start from a state with no fault recorded touch the
fault record. -/
theorem faultRecordIsSticky : Obligations.FaultRecordIsSticky := by
  intro s t hi hf hr e
  cases step_effect hi e with
  | reset h => exact absurd h hr
  | environment h => exact ⟨h.faulted ▸ hf, h.fcode, h.fopc, h.finfo⟩
  | raised hf' => simp [hf] at hf'
  | accepted hf' => simp [hf] at hf'
  | command hf' => simp [hf] at hf'

/-- Settles O43: a step that changes the phase is a reset, or completes `ROOTZ` or `ENABLE`, which the invariant allows
in UNINIT and POPULATING alone. -/
theorem phaseTransitions : Obligations.PhaseTransitions := by
  intro s t hi e hp
  cases step_effect hi e with
  | reset h ht => exact .inr (.inr ⟨h, by rw [ht]; rfl⟩)
  | environment h => exact absurd h.phase hp
  | raised _ h _ _ _ ht => exact absurd (by rw [ht]; exact h.phase) hp
  | accepted _ h _ _ ht => exact absurd (by rw [ht]; exact h.phase) hp
  | command hf h i hm ha he =>
    cases he with
    | only hc => exact absurd (hc.phase.trans h.phase) hp
    | rootz m => exact .inl ⟨by simpa [admits] using ha, rfl, h.faulted.trans hf, rfl, hm⟩
    | enable => exact .inr (.inl ⟨by simpa [admits] using ha, rfl, by simp [h.faulted, hf], rfl, hm⟩)

end Sys2Proof.Laws
end

section
/-! SUPPORT. The register window, read and written at every offset (rule R21, rule R33, rule R34). -/

namespace Sys2Proof.Laws
open Sys2Proof.Machine

theorem step_host {s : State} {a : HostAccess} {rest : List Input} (h : s.inputs = .host a :: rest) :
    step s = hostStep a (s.setInputs rest) := by
  simp [step, nextInput, h, inputStep]

/-! Offsets. -/

theorem hostRegAt_reserved {o : Nat} (h : 0x78 ≤ o) : hostRegAt o = .reserved := by
  unfold hostRegAt
  split
  case h_16 => rfl
  all_goals omega

/-- The registers that a host write may change are those below 0x28. -/
theorem writeReg_readOnly {s : State} {o : Nat} {v : Word} (h : 0x28 ≤ o) : writeReg s (hostRegAt o) v = s := by
  unfold hostRegAt
  split
  case h_1 | h_2 | h_3 | h_4 | h_5 => omega
  all_goals rfl

@[simp] theorem readReg_setInputs (s : State) (is : List Input) (r : HostReg) :
    readReg (s.setInputs is) r = readReg s r := by cases r <;> rfl

/-- The named registers: offset, and what a read returns (rule R21, rule R22, rule R31). -/
def readTable (s : State) : List (Nat × Word) :=
  [(0x00, 0), (0x08, s.arg0), (0x10, s.arg1), (0x18, s.arg2), (0x20, s.arg3), (0x28, s.res0), (0x30, s.res1),
    (0x38, s.res2), (0x40, s.res3), (0x48, s.res4), (0x50, s.statusWord), (0x58, s.finfo), (0x60, s.allocs),
    (0x68, rootBase s.cfg), (0x70, s.cr3out)]

theorem readReg_of_mem_readTable {s : State} {o : Nat} {v : Word} (h : (o, v) ∈ readTable s) :
    o % 8 = 0 ∧ o < 0x100 ∧ readReg s (hostRegAt o) = v := by
  have all : ∀ p ∈ readTable s, p.1 % 8 = 0 ∧ p.1 < 0x100 ∧ readReg s (hostRegAt p.1) = p.2 := by
    simp [readTable, hostRegAt, readReg]
  exact all _ h

/-! A host access is refused, reads a register, or writes one other than `CMD`; a write to `CMD` is `commandWrite`. -/

theorem hostStep_refused {a : HostAccess} {s : State} (h : a.width ≠ 8 ∨ a.offset % 8 ≠ 0 ∨ 0x100 ≤ a.offset) :
    hostStep a s = .refused (.hostAccess a.offset a.width) := by
  have hw : ¬ a.wf = true := by rw [wf_iff]; omega
  simp [hostStep, hw]

theorem hostStep_read {o : Nat} {s : State} (ha : o % 8 = 0) (hl : o < 0x100) :
    hostStep ⟨o, 8, .read⟩ s = .next (s.setHostData (readReg s (hostRegAt o))) := by
  have hw : (HostAccess.mk o 8 .read).wf = true := wf_iff.2 ⟨rfl, ha, hl⟩
  simp [hostStep, hw, plainAccess]

theorem hostStep_write {o : Nat} {v : Word} {s : State} (ha : o % 8 = 0) (h0 : o ≠ 0) (hl : o < 0x100) :
    hostStep ⟨o, 8, .write v⟩ s = .next (writeReg s (hostRegAt o) v) := by
  have hw : (HostAccess.mk o 8 (.write v)).wf = true := wf_iff.2 ⟨rfl, ha, hl⟩
  have hr : hostRegAt o ≠ .cmd := fun h => h0 (offset_of_hostRegAt_cmd h)
  simp [hostStep, hw, plainAccess, hr]

theorem step_read {s : State} {o : Nat} {rest : List Input} (h : s.inputs = .host ⟨o, 8, .read⟩ :: rest)
    (ha : o % 8 = 0) (hl : o < 0x100) :
    step s = .next { s with inputs := rest, hostData := readReg s (hostRegAt o) } := by
  rw [step_host h, hostStep_read ha hl, readReg_setInputs]; rfl

theorem step_write {s : State} {o : Nat} {v : Word} {rest : List Input}
    (h : s.inputs = .host ⟨o, 8, .write v⟩ :: rest) (ha : o % 8 = 0) (h0 : o ≠ 0) (hl : o < 0x100) :
    step s = .next (writeReg (s.setInputs rest) (hostRegAt o) v) := by
  rw [step_host h, hostStep_write ha h0 hl]

/-- Settles O50: an access is refused, or reads or writes the register its offset names. -/
theorem registerWindow : Obligations.RegisterWindow := by
  intro s a rest h
  refine ⟨?refused, ?reads, ?readsReserved, ?arg0, ?arg1, ?arg2, ?arg3, ?ignored⟩
  case refused => intro hb; rw [step_host h, hostStep_refused hb]
  case reads =>
    rintro o v hmem rfl
    obtain ⟨ha, hl, rfl⟩ := readReg_of_mem_readTable hmem
    exact step_read h ha hl
  case readsReserved =>
    obtain ⟨o, w, op⟩ := a
    rintro rfl rfl ha ho hl
    rw [step_read h ha hl, hostRegAt_reserved ho]; rfl
  case arg0 => rintro v rfl; exact step_write h rfl (by decide) (by decide)
  case arg1 => rintro v rfl; exact step_write h rfl (by decide) (by decide)
  case arg2 => rintro v rfl; exact step_write h rfl (by decide) (by decide)
  case arg3 => rintro v rfl; exact step_write h rfl (by decide) (by decide)
  case ignored =>
    obtain ⟨o, w, op⟩ := a
    rintro v rfl rfl ha ho hl
    have h0 : o ≠ 0 := Nat.ne_of_gt (Nat.lt_of_lt_of_le (by decide) ho)
    rw [step_write h ha h0 hl, writeReg_readOnly ho]; rfl

end Sys2Proof.Laws
end

section
/-! SUPPORT. The walk's inputs: of a virtual address, only bits 47:0 (rule R51, rule R110). -/

namespace Sys2Proof.Laws
open Sys2Proof.Machine

/-- The decoder does not read bits 63:48: each of its five fields lies within bits 47:0 (rule R110). -/
theorem splitVA_congr_low48 {va va' : VA} (h : va.bits.extractLsb' 0 48 = va'.bits.extractLsb' 0 48) :
    splitVA va = splitVA va' := by
  have field (start len : Nat) (hle : start + len ≤ 48) :
      va.bits.extractLsb' start len = va'.bits.extractLsb' start len := by
    rw [← BitVec.extractLsb'_extractLsb'_of_le hle, h, BitVec.extractLsb'_extractLsb'_of_le hle]
  rw [splitVA, splitVA, field 39 9 (by decide), field 30 9 (by decide), field 21 9 (by decide),
    field 12 9 (by decide), field 0 12 (by decide)]

/-- Settles O57: the walk and the translation depend on a virtual address only through its decoded fields. -/
theorem signBitsDoNotMatter : Obligations.SignBitsDoNotMatter := by
  intro m r va va' h
  have hs : splitVA va = splitVA va' := splitVA_congr_low48 h
  constructor
  · rw [touchedEntries, touchedEntries, hs]
  · rw [translateVA, translateVA, hs]

end Sys2Proof.Laws
end

section
/-! SUPPORT. The decoder and the encoder are inverse to each other on the 13 commands, and which words the encoder
reaches (rule R86). -/

namespace Sys2Proof.Laws
open Sys2Proof.Machine

/-- Each command's word, from the lemma of its constructor. -/
theorem commandWord : ∀ i : Instr, CommandWord.Statement i
  | .adec => CommandWord.adec
  | .pinit => CommandWord.pinit
  | .pframe => CommandWord.pframe
  | .ppres => CommandWord.ppres
  | .pget => CommandWord.pget
  | .pset => CommandWord.pset
  | .einit => CommandWord.einit
  | .walk => CommandWord.walk
  | .map => CommandWord.map
  | .mapdesc => CommandWord.mapdesc
  | .mapfb => CommandWord.mapfb
  | .rootz => CommandWord.rootz
  | .enable => CommandWord.enable

@[simp] theorem decode_encode (i : Instr) : decode (encode i) = .ok i := by
  obtain ⟨-, -, -, hdecode, -⟩ := commandWord i
  exact hdecode

theorem decode_eq_ok_iff {c : Word} {i : Instr} : decode c = .ok i ↔ c = encode i :=
  ⟨eq_encode_of_decode, fun h => h ▸ decode_encode i⟩

theorem eq_encode_iff {c : Word} {i : Instr} :
    c = encode i ↔ c.extractLsb' 8 56 = 0 ∧ c.extractLsb' 0 8 = opcode i := by
  constructor
  · rintro rfl
    obtain ⟨-, hlow, hhigh, -, -⟩ := commandWord i
    exact ⟨hhigh, hlow⟩
  · rintro ⟨hhigh, hlow⟩
    exact eq_setWidth_of_parts hhigh hlow

theorem opcode_range (i : Instr) : 0x01 ≤ (opcode i).toNat ∧ (opcode i).toNat ≤ 0x0D := by
  cases i <;> decide

/-- The opcode map has no gap. -/
theorem exists_eq_opcode_iff {b : BitVec 8} : (∃ i, b = opcode i) ↔ 0x01 ≤ b.toNat ∧ b.toNat ≤ 0x0D := by
  constructor
  · rintro ⟨i, rfl⟩
    exact opcode_range i
  · rintro ⟨hlo, hhi⟩
    have hmap : ∀ n < 0x0E, 0x01 ≤ n → ∃ p ∈ opcodeMap, BitVec.ofNat 8 n = opcode p.2 := by decide
    obtain ⟨p, -, hp⟩ := hmap b.toNat (by omega) hlo
    exact ⟨p.2, by rw [← hp, BitVec.ofNat_toNat, BitVec.setWidth_eq]⟩

/-- Settles O1: decoding inverts encoding, so the words that decode are those whose high bits are zero and whose low
byte is the opcode of some command. -/
theorem decodeAgreesWithEncode : Obligations.DecodeAgreesWithEncode := by
  refine ⟨rfl, fun c => ⟨fun i => decode_eq_ok_iff, ?_⟩⟩
  calc (∃ i, decode c = .ok i)
      ↔ ∃ i, c.extractLsb' 8 56 = 0 ∧ c.extractLsb' 0 8 = opcode i :=
        exists_congr fun _ => decode_eq_ok_iff.trans eq_encode_iff
    _ ↔ c.extractLsb' 8 56 = 0 ∧ ∃ i, c.extractLsb' 0 8 = opcode i := exists_and_left
    _ ↔ _ := and_congr_right' exists_eq_opcode_iff

end Sys2Proof.Laws
end

section
/-! SUPPORT. `ENABLE` and the root's address that it loads (rule R31, rule R92, rule R193). -/

namespace Sys2Proof.Laws
open Sys2Proof.Machine

/-! The bit fields of `ROOT_BASE`. -/

theorem rootBase_field_toNat (c : Config) (start len : Nat) :
    ((rootBase c).extractLsb' start len).toNat = c.rootFrame.toNat * 2 ^ 12 / 2 ^ start % 2 ^ len := by
  rw [BitVec.extractLsb'_toNat, rootBase_toNat, Nat.shiftRight_eq_div_pow]
  rfl

theorem rootBase_frameNumber (c : Config) : (rootBase c).extractLsb' 12 40 = c.rootFrame := by
  apply BitVec.eq_of_toNat_eq
  rw [rootBase_field_toNat, Nat.mul_div_cancel _ (by decide), Nat.mod_eq_of_lt c.rootFrame.isLt]

theorem rootBase_offset_zero (c : Config) : (rootBase c).extractLsb' 0 12 = 0 := by
  apply BitVec.eq_of_toNat_eq
  rw [rootBase_field_toNat, pow_zero, Nat.div_one, Nat.mul_mod_left]
  rfl

theorem rootBase_high_zero (c : Config) : (rootBase c).extractLsb' 52 12 = 0 := by
  have hbelow : c.rootFrame.toNat * 2 ^ 12 < 2 ^ 52 := by omega
  apply BitVec.eq_of_toNat_eq
  rw [rootBase_field_toNat, Nat.div_eq_of_lt hbelow]
  rfl

/-- Latching a command and completing it leaves the sequencer as idle as it was. -/
theorem State.latch_complete {s : State} (hs : s.seq = none) (i : Instr) : (s.latch i).complete = s := by
  rw [State.latch, State.complete, ← hs]

theorem exec_enable {s : State} (h : s.Populating) :
    exec .enable s = .next ((writeCr3 s (rootBase s.cfg)).setPhase .active) := by
  obtain ⟨⟨hf, hs⟩, hp⟩ := h
  calc exec .enable s = bodyEnable s.latchArgs (s.latch .enable) := issue_admitted hf hs (by rw [hp]; rfl)
    _ = .next ((writeCr3 (s.latch .enable).complete (rootBase s.cfg)).setPhase .active) := rfl
    _ = _ := by rw [State.latch_complete hs]

/-- Settles O38: the executed `ENABLE` writes only the paging registers and the phase, and `ROOT_BASE` is the root's
frame number above a zero page offset. -/
theorem enableLoadsTheRoot : Obligations.EnableLoadsTheRoot := fun s h =>
  ⟨exec_enable h, rootBase_frameNumber s.cfg, rootBase_offset_zero s.cfg, rootBase_high_zero s.cfg⟩

end Sys2Proof.Laws
end

section
/-! SUPPORT. The linear-address decoder: what `ADEC` returns (rule R111), and an address composed again from its fields
(rule R84, rule R110, rule R112). -/

namespace Sys2Proof.Laws
open Sys2Proof.Machine

theorem exec_adec {s : State} (h : s.Ready) : exec .adec s = .next (s.setFields (splitVA ⟨s.arg0⟩)) := by
  obtain ⟨hf, hs⟩ := h
  calc exec .adec s = bodyAdec s.latchArgs (s.latch .adec) := issue_admitted hf hs rfl
    _ = .next ((s.latch .adec).complete.setFields (splitVA ⟨s.arg0⟩)) := rfl
    _ = _ := by rw [State.latch_complete hs]

/-- Settles O10: `ADEC`, which every phase admits, writes the decoded fields of `ARG0` and no other register. -/
theorem adecSplitsTheAddress : Obligations.AdecSplitsTheAddress :=
  ⟨rfl, fun _ h => exec_adec h⟩

/-! Bits of a word that a field, shifted back into position, or a mask keeps. -/

theorem getLsbD_field_in_position (a : Word) (lo w : Nat) {k : Nat} (hk : k < 64) :
    ((a.extractLsb' lo w).setWidth 64 <<< lo).getLsbD k = (decide (lo ≤ k ∧ k < lo + w) && a.getLsbD k) := by
  rw [BitVec.getLsbD_shiftLeft, BitVec.getLsbD_setWidth, BitVec.getLsbD_extractLsb']
  by_cases hlo : lo ≤ k
  · have hle : k - lo < 64 := by omega
    have hin : k - lo < w ↔ k < lo + w := by omega
    simp [hk, hlo, hle, hin]
  · simp [hlo]

theorem getLsbD_and_low48 (a : Word) (k : Nat) :
    (a &&& 0x0000FFFFFFFFFFFF).getLsbD k = (decide (k < 48) && a.getLsbD k) := by
  have hmask : (0x0000FFFFFFFFFFFF : Word).getLsbD k = decide (k < 48) := Nat.testBit_two_pow_sub_one 48 k
  rw [BitVec.getLsbD_and, hmask, Bool.and_comm]

/-- The five fields, back in position, are together bits 47:0 of the address. -/
theorem getLsbD_composeVA_splitVA (va : VA) {k : Nat} (hk : k < 64) :
    (composeVA (splitVA va)).bits.getLsbD k = (decide (k < 48) && va.bits.getLsbD k) := by
  have field (lo w : Nat) := getLsbD_field_in_position va.bits lo w hk
  have hoff := field 0 12
  rw [BitVec.shiftLeft_zero] at hoff
  simp only [composeVA, splitVA, BitVec.getLsbD_or, field, hoff, ← Bool.and_or_distrib_right, ← Bool.decide_or]
  congr 2
  rw [eq_iff_iff]
  omega

/-- Settles O18: the composed address and the masked one agree bit by bit, since the five fields tile bits 47:0. -/
theorem composeAfterSplit : Obligations.ComposeAfterSplit := by
  intro va
  rw [VA.mk.injEq]
  apply BitVec.eq_of_getLsbD_eq
  intro k hk
  rw [getLsbD_composeVA_splitVA va hk, getLsbD_and_low48]

end Sys2Proof.Laws
end

section
/-! SUPPORT. The page-table-entry codec: `initWord` and the fields of an entry bit by bit (rules R120 to R124,
R131, R133), and the commands `PINIT`, `PFRAME`, `PPRES`, `PGET` and `PSET` (rules R125 to R129). -/

namespace Sys2Proof.Laws
open Sys2Proof.Machine

/-! Commands that every phase admits. -/

theorem exec_of_admitted {s : State} {i : Instr} (h : s.Ready) (ha : admits i s.phase = true) :
    exec i s = bodyOf i s.latchArgs (s.latch i) := by
  obtain ⟨hf, hs⟩ := h
  rw [exec_eq_issue]
  exact issue_admitted hf hs ha

/-- A command whose own steps end with a value in `RES0` changes nothing else. -/
theorem exec_of_body_completes {s : State} {i : Instr} {v : Word} (h : s.Ready) (ha : admits i s.phase = true)
    (hbody : bodyOf i s.latchArgs (s.latch i) = .next ((s.latch i).setRes0 v).complete) :
    exec i s = .next (s.setRes0 v) :=
  calc exec i s = .next ((s.latch i).setRes0 v).complete := (exec_of_admitted h ha).trans hbody
    _ = .next ((s.latch i).complete.setRes0 v) := rfl
    _ = _ := by rw [State.latch_complete h.2]

/-- A command whose own steps end in a fault leaves the state with that fault recorded. -/
theorem exec_of_body_raises {s : State} {i : Instr} {f : Cause} {info : Word} (h : s.Ready)
    (ha : admits i s.phase = true)
    (hbody : bodyOf i s.latchArgs (s.latch i) = .next ((s.latch i).raiseHere f info)) :
    exec i s = .next (recorded s f.code (encode i) info) :=
  (exec_of_admitted h ha).trans hbody

/-! The frame address as a mask. -/

theorem frameAddr_eq_and (e : Word) : frameAddr e = e &&& 0x000FFFFFFFFFF000 := by
  have hmask : (0x000FFFFFFFFFF000 : Word) = frameAddr (BitVec.allOnes 64) := by decide
  apply BitVec.eq_of_getLsbD_eq
  intro k hk
  rw [hmask, BitVec.getLsbD_and, frameAddr, frameAddr, getLsbD_field_in_position e 12 40 hk,
    getLsbD_field_in_position _ 12 40 hk, BitVec.getLsbD_allOnes, decide_eq_true hk, Bool.and_true, Bool.and_comm]

theorem frameAddr_initWord (p : PA) : frameAddr (initWord p) = frameAddr p := by
  apply BitVec.eq_of_toNat_eq
  rw [frameAddr_toNat, frameAddr_toNat, initWord_toNat]
  omega

theorem and_low52_of_lt {p : PA} (h : p.toNat < 2 ^ 52) : p &&& 0x000FFFFFFFFFFFFF = p := by
  apply BitVec.eq_of_toNat_eq
  calc (p &&& 0x000FFFFFFFFFFFFF).toNat = p.toNat &&& (2 ^ 52 - 1) := BitVec.toNat_and ..
    _ = p.toNat := by rw [Nat.and_two_pow_sub_one_eq_mod, Nat.mod_eq_of_lt h]

/-- Settles O15: the frame address does not see the two flag bits, and masking bits 51:12 of an address below 2^52 is
clearing its page offset. -/
theorem frameOfInitializeWord : Obligations.FrameOfInitializeWord := by
  intro p
  have hframe : frameAddr (initWord p) = p &&& 0x000FFFFFFFFFF000 := by
    rw [frameAddr_initWord, frameAddr_eq_and]
  refine ⟨hframe, fun hlt => ?_, fun hlt hal => frameAddr_initWord_of_frame (frameOk_iff.2 ⟨hal, hlt⟩)⟩
  calc frameAddr (initWord p) = p &&& (0x000FFFFFFFFFFFFF &&& ~~~0xFFF) := hframe
    _ = p &&& ~~~0xFFF := by rw [← BitVec.and_assoc, and_low52_of_lt hlt]

/-! The fields of an entry, bit by bit (rule R120, rule R121). -/

theorem getLsbD_eq_false_of_toNat_lt {v : Word} {w k : Nat} (hv : v.toNat < 2 ^ w) (hk : w ≤ k) :
    v.getLsbD k = false :=
  Nat.testBit_lt_two_pow (Nat.lt_of_lt_of_le hv (Nat.pow_le_pow_right (by decide) hk))

theorem getLsbD_fieldMax (f : EntryField) (k : Nat) : (fieldMax f).getLsbD k = decide (k < fieldWidth f) := by
  have hmax : (fieldMax f).toNat = 2 ^ fieldWidth f - 1 := by cases f <;> rfl
  rw [BitVec.getLsbD, hmax, Nat.testBit_two_pow_sub_one]

theorem getLsbD_getField (e : Word) (f : EntryField) (k : Nat) :
    (getField e f).getLsbD k = (decide (k < fieldWidth f) && e.getLsbD (fieldLo f + k)) := by
  rw [getField, BitVec.getLsbD_and, BitVec.getLsbD_ushiftRight, getLsbD_fieldMax, Bool.and_comm]

theorem getField_eq_extractLsb' (e : Word) (f : EntryField) :
    getField e f = (e.extractLsb' (fieldLo f) (fieldWidth f)).setWidth 64 := by
  apply BitVec.eq_of_getLsbD_eq
  intro k hk
  rw [getLsbD_getField, BitVec.getLsbD_setWidth, BitVec.getLsbD_extractLsb', decide_eq_true hk, Bool.true_and]

theorem getLsbD_setField {e v : Word} {f : EntryField} (hv : v.toNat < 2 ^ fieldWidth f) {k : Nat} (hk : k < 64) :
    (setField e f v).getLsbD k =
      if fieldLo f ≤ k ∧ k < fieldLo f + fieldWidth f then v.getLsbD (k - fieldLo f) else e.getLsbD k := by
  simp only [setField, BitVec.getLsbD_or, BitVec.getLsbD_and, BitVec.getLsbD_not, BitVec.getLsbD_shiftLeft,
    getLsbD_fieldMax, decide_eq_true hk, Bool.true_and]
  by_cases hlo : k < fieldLo f
  · simp [hlo]
  · by_cases hin : k < fieldLo f + fieldWidth f
    · have hw : k - fieldLo f < fieldWidth f := by omega
      simp [hlo, hin, hw]
    · have hw : fieldWidth f ≤ k - fieldLo f := by omega
      simp [hlo, hin, hw, getLsbD_eq_false_of_toNat_lt hv hw]

/-! The flags in `initWord` (rule R133). -/

theorem getLsbD_initWord_high (p : PA) {k : Nat} (hk : 52 ≤ k) : (initWord p).getLsbD k = false := by
  refine getLsbD_eq_false_of_toNat_lt ?_ hk
  rw [initWord_toNat]
  omega

/-- Every field but `P`, `W` and `PFN` lies in bits 11:2 or in bits 63:52. -/
theorem field_outside_initWord {f : EntryField} (hp : f ≠ .p) (hw : f ≠ .w) (hpfn : f ≠ .pfn) :
    2 ≤ fieldLo f ∧ fieldLo f + fieldWidth f ≤ 12 ∨ 52 ≤ fieldLo f := by
  cases f with
  | p => exact absurd rfl hp
  | w => exact absurd rfl hw
  | pfn => exact absurd rfl hpfn
  | _ => decide

theorem getField_initWord_w (p : PA) : getField (initWord p) .w = 1 := by
  apply BitVec.eq_of_getLsbD_eq
  intro k _
  rw [getLsbD_getField]
  cases k with
  | zero => rw [initWord_bit p _ (by decide)]; rfl
  | succ k => simp [fieldWidth]

theorem getField_initWord_eq_zero (p : PA) {f : EntryField} (hp : f ≠ .p) (hw : f ≠ .w) (hpfn : f ≠ .pfn) :
    getField (initWord p) f = 0 := by
  apply BitVec.eq_of_getLsbD_eq
  intro k _
  rw [getLsbD_getField, BitVec.ofNat_eq_ofNat, BitVec.getLsbD_zero, Bool.and_eq_false_imp, decide_eq_true_eq]
  intro hk
  obtain ⟨hlo, hhi⟩ | hhigh := field_outside_initWord hp hw hpfn
  · rw [initWord_bit p _ (by omega), decide_eq_false (by omega)]
  · exact getLsbD_initWord_high p (by omega)

/-- Settles O16: of bits 11:0 only the two lowest are set, and bits 63:52 are 0. -/
theorem initializeWordFlags : Obligations.InitializeWordFlags := fun p =>
  ⟨isPresent_initWord p, getField_initWord_w p, fun _ => getField_initWord_eq_zero p⟩

/-! `PINIT`, `PFRAME` and `PPRES` (rules R125 to R127). -/

theorem exec_pinit {s : State} (h : s.Ready) : exec .pinit s = .next (s.setRes0 (initWord s.arg0)) :=
  exec_of_body_completes h rfl rfl

theorem exec_pframe {s : State} (h : s.Ready) : exec .pframe s = .next (s.setRes0 (frameAddr s.arg0)) :=
  exec_of_body_completes h rfl rfl

theorem exec_ppres {s : State} (h : s.Ready) :
    exec .ppres s = .next (s.setRes0 (if isPresent s.arg0 then 1 else 0)) :=
  exec_of_body_completes h rfl rfl

theorem initWord_eq_and_or (p : PA) : initWord p = (p &&& 0x000FFFFFFFFFF000) ||| 0x3 := by
  rw [← frameAddr_eq_and]
  rfl

theorem presence_eq_and_one (e : Word) : (if isPresent e then 1 else 0) = e &&& 1 := by
  rw [isPresent, BitVec.ofNat_eq_ofNat, BitVec.and_one_eq_setWidth_ofBool_getLsbD]
  cases e.getLsbD 0 <;> rfl

/-- Settles O11: each of the three commands, which every phase admits, writes its codec function of `ARG0` to `RES0`. -/
theorem codecCommandsComputeAWord : Obligations.CodecCommandsComputeAWord := by
  refine ⟨rfl, rfl, rfl, fun s h => ⟨?_, ?_, ?_⟩⟩
  · rw [← initWord_eq_and_or]
    exact exec_pinit h
  · rw [← frameAddr_eq_and]
    exact exec_pframe h
  · rw [← presence_eq_and_one]
    exact exec_ppres h

/-! Field ids (rule R80). -/

theorem entryFieldOf_eq_none {a : Word} (h : 13 < a.toNat) : entryFieldOf a = none := by
  unfold entryFieldOf
  split
  case h_15 => rfl
  all_goals omega

/-- The statements' table lists the bits of the fields that the model's field ids name. -/
theorem fieldTable_getElem? (a : Word) :
    fieldTable[a.toNat]? = (entryFieldOf a).map fun f => (fieldLo f, fieldWidth f) := by
  obtain habove | hid := Nat.lt_or_ge 13 a.toNat
  · rw [entryFieldOf_eq_none habove]
    exact List.getElem?_eq_none habove
  · unfold entryFieldOf
    interval_cases a.toNat <;> rfl

theorem exists_field_of_fieldTable {a : Word} {lo w : Nat} (h : fieldTable[a.toNat]? = some (lo, w)) :
    ∃ f, entryFieldOf a = some f ∧ fieldLo f = lo ∧ fieldWidth f = w := by
  rw [fieldTable_getElem?, Option.map_eq_some_iff] at h
  simpa only [Prod.mk.injEq] using h

/-! `PGET` (rule R128). -/

theorem exec_pget_field {s : State} {f : EntryField} (h : s.Ready) (hf : entryFieldOf s.arg1 = some f) :
    exec .pget s = .next (s.setRes0 (getField s.arg0 f)) := by
  refine exec_of_body_completes h rfl ?_
  simp only [bodyOf, bodyPget, State.latchArgs, hf]

theorem exec_pget_badField {s : State} (h : s.Ready) (hf : entryFieldOf s.arg1 = none) :
    exec .pget s = .next (recorded s 7 (encode .pget) s.arg1) := by
  refine exec_of_body_raises (f := .badOperand) h rfl ?_
  simp only [bodyOf, bodyPget, State.latchArgs, hf]

/-- Settles O12: an id of the table names a field, which shift and mask read as its bits; an id above 13 names none. -/
theorem pgetReadsAField : Obligations.PgetReadsAField := by
  refine ⟨rfl, fun s h => ⟨fun lo w hentry => ?_, fun hid => exec_pget_badField h (entryFieldOf_eq_none hid)⟩⟩
  obtain ⟨f, hf, rfl, rfl⟩ := exists_field_of_fieldTable hentry
  rw [← getField_eq_extractLsb']
  exact exec_pget_field h hf

/-! `PSET` (rule R129). -/

theorem exec_pset_field {s : State} {f : EntryField} (h : s.Ready) (hf : entryFieldOf s.arg1 = some f)
    (hv : s.arg2.toNat < 2 ^ fieldWidth f) : exec .pset s = .next (s.setRes0 (setField s.arg0 f s.arg2)) := by
  refine exec_of_body_completes h rfl ?_
  simp only [bodyOf, bodyPset, State.latchArgs, hf]
  exact if_pos hv

theorem exec_pset_badField {s : State} (h : s.Ready) (hf : entryFieldOf s.arg1 = none) :
    exec .pset s = .next (recorded s 7 (encode .pset) s.arg1) := by
  refine exec_of_body_raises (f := .badOperand) h rfl ?_
  simp only [bodyOf, bodyPset, State.latchArgs, hf]

theorem exec_pset_badValue {s : State} {f : EntryField} (h : s.Ready) (hf : entryFieldOf s.arg1 = some f)
    (hv : 2 ^ fieldWidth f ≤ s.arg2.toNat) : exec .pset s = .next (recorded s 7 (encode .pset) s.arg2) := by
  refine exec_of_body_raises (f := .badOperand) h rfl ?_
  simp only [bodyOf, bodyPset, State.latchArgs, hf]
  exact if_neg (Nat.not_lt.2 hv)

/-- Settles O13: the field is replaced bit by bit, since a value that fits has no bit above the field's width; the id is
checked before the value. -/
theorem psetWritesAField : Obligations.PsetWritesAField := by
  refine ⟨rfl, fun s h => ⟨?_, fun hid => exec_pset_badField h (entryFieldOf_eq_none hid), ?_⟩⟩
  · intro lo w hentry hv
    obtain ⟨f, hf, rfl, rfl⟩ := exists_field_of_fieldTable hentry
    exact ⟨_, exec_pset_field h hf hv, fun _ => getLsbD_setField hv⟩
  · intro lo w hentry hv
    obtain ⟨f, hf, rfl, rfl⟩ := exists_field_of_fieldTable hentry
    exact exec_pset_badValue h hf hv

end Sys2Proof.Laws
end

section
/-! SUPPORT. `MAP` of one page, run again on the same path: how many tables a page installs, and that a page whose path
is complete writes its leaf entry and nothing else (rule R151, rule R155, rule R170). -/

namespace Sys2Proof.Laws
open Sys2Proof.Machine

/-! The tables a page installs: at most one for each of its three walker calls. -/

/-- The walker has taken at most `n` frames, each now a table that is counted. -/
def DrewAtMost (n : Nat) (s s' : State) : Prop := ∃ fs, Drew s s' fs ∧ fs.length ≤ n

theorem DrewAtMost.trans {n k : Nat} {s s' s'' : State} (h : DrewAtMost n s s') (h' : DrewAtMost k s' s'') :
    DrewAtMost (k + n) s s'' := by
  obtain ⟨fs, d, hn⟩ := h
  obtain ⟨gs, d', hk⟩ := h'
  exact ⟨gs ++ fs, drew_trans d d', by rw [List.length_append]; omega⟩

/-- `ALLOCS` counts the frames taken. -/
theorem DrewAtMost.counted {n : Nat} {s s' : State} (h : DrewAtMost n s s') :
    ∃ k ≤ n, s'.allocs = s.allocs + BitVec.ofNat 64 k ∧ s'.granted.length = s.granted.length + k := by
  obtain ⟨fs, d, hn⟩ := h
  exact ⟨fs.length, hn, d.allocs, by rw [d.granted, List.length_append, Nat.add_comm]⟩

theorem resolveNext_drewAtMost {s s' : State} {t b : PA} {j : Word} (h : resolveNext s t j = .ok s' b) :
    DrewAtMost 1 s s' := by
  obtain ⟨-, rfl, -⟩ | ⟨-, -, rest, ha, rfl⟩ := resolveNext_ok h
  · exact ⟨[], drew_refl s', Nat.zero_le 1⟩
  · exact ⟨[b], drew_installed _ ha, Nat.le_refl 1⟩

theorem leafWrite_drewAtMost {s s' : State} {m : MapJob} {pt : PA} {u : Unit} (h : leafWrite s m pt = .ok s' u) :
    DrewAtMost 0 s s' := by
  obtain ⟨-, rfl⟩ := memWrite_ok_iff.1 h
  exact ⟨[], drew_setMem s _, Nat.le_refl 0⟩

/-- A page is three walker calls and the leaf write (rule R170). -/
theorem pageFinish_ok_iff {s s' : State} {m : MapJob} {u : Unit}
    (hm : m.point = .walking .pml4 ⟨rootBase s.cfg, levelIndex m.va .pml4, .readEntry⟩) :
    pageFinish s m = .ok s' u ↔ ∃ s1 t1, resolveNext s (rootBase s.cfg) (levelIndex m.va .pml4) = .ok s1 t1 ∧
      ∃ s2 t2, resolveNext s1 t1 (levelIndex m.va .pdpt) = .ok s2 t2 ∧
        ∃ s3 t3, resolveNext s2 t2 (levelIndex m.va .pd) = .ok s3 t3 ∧ leafWrite s3 m t3 = .ok s' u := by
  simp only [pageFinish, hm, pageFromPml4, pageFromPdpt, pageFromPd, walkThen, Run_bind_ok_iff, resolveNext]

theorem pageFinish_drewAtMost {s s' : State} {m : MapJob} {u : Unit}
    (hm : m.point = .walking .pml4 ⟨rootBase s.cfg, levelIndex m.va .pml4, .readEntry⟩)
    (h : pageFinish s m = .ok s' u) : DrewAtMost 3 s s' := by
  obtain ⟨s1, t1, h1, s2, t2, h2, s3, t3, h3, h4⟩ := (pageFinish_ok_iff hm).1 h
  exact (((resolveNext_drewAtMost h1).trans (resolveNext_drewAtMost h2)).trans (resolveNext_drewAtMost h3)).trans
    (leafWrite_drewAtMost h4)

/-! A page whose path is complete. -/

theorem pathFrom_cons_iff {m : Memory} {t p : PA} {j : BitVec 9} {js : List (BitVec 9)} :
    pathFrom m t (j :: js) = some p ↔
      isPresent (entryOf m t j) = true ∧ pathFrom m (frameAddr (entryOf m t j)) js = some p := by
  rw [pathFrom, Option.ite_none_right_eq_some]

/-- A walker call on a present entry of a sound hierarchy follows it. -/
theorem resolveNext_follows {s : State} (ok : TablesOk s) {l : Level} {t : PA} {j : BitVec 9} (ht : TableIn s l t)
    (hp : isPresent (entryOf s.mem t j) = true) :
    resolveNext s t (j.setWidth 64) = .ok s (frameAddr (entryOf s.mem t j)) :=
  resolveNext_present (backed64_entry ok ht j) hp

/-- A page whose path leads to a leaf table: the walker calls follow it, so only the leaf entry is written (R155). -/
theorem pageFinish_of_path {s : State} {m : MapJob} {p : PA} (ok : TablesOk s)
    (hm : m.point = .walking .pml4 ⟨rootBase s.cfg, levelIndex m.va .pml4, .readEntry⟩)
    (hp : pathFrom s.mem (rootBase s.cfg) (pathOf m.va) = some p) :
    pageFinish s m = .ok (s.setMem (s.mem.write64 (entryAt p (splitVA m.va).i1) (initWord m.pa))) () := by
  obtain ⟨p1, hp⟩ := pathFrom_cons_iff.1 hp
  obtain ⟨p2, hp⟩ := pathFrom_cons_iff.1 hp
  obtain ⟨p3, hp⟩ := pathFrom_cons_iff.1 hp
  obtain rfl := Option.some.inj hp
  have t1 := Reach.child (l := .pml4) _ Reach.root rfl p1
  have t2 := Reach.child _ t1 rfl p2
  have t3 := Reach.child _ t2 rfl p3
  exact (pageFinish_ok_iff hm).2 ⟨_, _, resolveNext_follows ok (l := .pml4) Reach.root p1, _, _,
    resolveNext_follows ok t1 p2, _, _, resolveNext_follows ok t2 p3, memWrite_backed (backed64_entry ok t3 _)⟩

/-! `MAP` of one page. -/

theorem mapPages_one (s : State) (m : MapJob) : mapPages 1 s m = pageFinish s m := by
  rw [mapPages]
  cases pageFinish s m <;> rfl

/-- A region with aligned bases whose loop runs through completes. -/
theorem mapRegion_completes {s s' : State} {v : VA} {p : PA} {n : Nat} {res : Option Word}
    (hv : pageAligned v.bits = true) (hp : pageAligned p = true)
    (h : mapPages n s (MapJob.atPage ⟨v, p, n, 0, .leaf 0, res⟩ s.cfg 0) = .ok s' ()) :
    mapRegion s v p n res = .next (mapDone s' ⟨v, p, n, 0, .leaf 0, res⟩) := by
  unfold mapRegion mapChecked
  rw [if_pos hv, if_pos hp]
  change (mapPages n s (MapJob.atPage ⟨v, p, n, 0, .leaf 0, res⟩ s.cfg 0)).finish _ _ = _
  rw [h]
  rfl

/-- The job of `MAP` for the one page at `v`, before its first walker call. -/
def onePage (c : Config) (v : VA) (p : PA) : MapJob := MapJob.atPage ⟨v, p, 1, 0, .leaf 0, none⟩ c 0

@[simp] theorem onePage_va (c : Config) (v : VA) (p : PA) : (onePage c v p).va = v := by
  simp [onePage, MapJob.atPage, MapJob.va]

theorem exec_map_onePage {s : State} (h : s.Populating) (hn : s.arg2 = 1) :
    exec .map s = mapRegion (s.latch .map) ⟨s.arg0⟩ s.arg1 1 none := by
  rw [exec_of_admitted h.1 (by rw [h.2]; rfl)]
  change mapRegion _ _ _ s.arg2.toNat _ = _
  rw [hn]
  rfl

/-- A `MAP` of one page that completes is the page's run, its command's end apart. -/
theorem exec_map_onePage_ready {s t : State} (h : s.Populating) (hn : s.arg2 = 1) (e : exec .map s = .next t)
    (ht : t.Ready) :
    ∃ s', pageFinish (s.latch .map) (onePage s.cfg ⟨s.arg0⟩ s.arg1) = .ok s' () ∧ t = s'.complete := by
  rw [exec_map_onePage h hn] at e
  obtain ⟨-, -, s', hs, rfl⟩ := mapRegion_ready rfl e ht
  rw [mapPages_one] at hs
  exact ⟨s', hs, rfl⟩

/-- The path of the page's address leads to a leaf table after the command, in a sound hierarchy. -/
theorem exec_map_onePage_path {s t : State} (h : s.Populating) (ok : TablesOk s) (al : AllocatorOk s)
    (hn : s.arg2 = 1) (e : exec .map s = .next t) (ht : t.Ready) :
    t.phase = .populating ∧ TablesOk t ∧ ∃ p, pathFrom t.mem (rootBase t.cfg) (pathOf ⟨s.arg0⟩) = some p := by
  obtain ⟨s', hs, rfl⟩ := exec_map_onePage_ready h hn e ht
  have ok' : TablesOk (s.latch .map) := tablesOk_congr (s := s) rfl rfl rfl ok
  have al' : AllocatorFresh (s.latch .map) := allocatorFresh_congr (s := s) rfl rfl rfl (allocatorOk_iff.1 al).1
  have page := pageFinish_mapped ok' al' rfl hs
  obtain ⟨p, hp, -⟩ := page.keeps
  rw [onePage_va] at hp
  have ph : s'.phase = s.phase := by rw [page.only]; rfl
  exact ⟨ph.trans h.2, tablesOk_congr (s := s') rfl rfl rfl page.ok, p, hp⟩

/-- `MAP` of one page whose path leads to a leaf table: it completes, and only memory changes (rule R155). -/
theorem exec_map_onePage_of_path {s : State} {p : PA} (h : s.Populating) (ok : TablesOk s) (hn : s.arg2 = 1)
    (hv : s.arg0.toNat % 4096 = 0) (hq : s.arg1.toNat % 4096 = 0)
    (hp : pathFrom s.mem (rootBase s.cfg) (pathOf ⟨s.arg0⟩) = some p) :
    ∃ m, exec .map s = .next (s.setMem m) := by
  have ok' : TablesOk (s.latch .map) := tablesOk_congr (s := s) rfl rfl rfl ok
  obtain ⟨m, page⟩ : ∃ m,
      pageFinish (s.latch .map) (onePage s.cfg ⟨s.arg0⟩ s.arg1) = .ok ((s.latch .map).setMem m) () :=
    ⟨_, pageFinish_of_path ok' rfl (by rw [onePage_va]; exact hp)⟩
  rw [← mapPages_one] at page
  refine ⟨m, ?_⟩
  calc exec .map s = mapRegion (s.latch .map) ⟨s.arg0⟩ s.arg1 1 none := exec_map_onePage h hn
    _ = .next ((s.latch .map).complete.setMem m) :=
        mapRegion_completes (pageAligned_iff.2 hv) (pageAligned_iff.2 hq) page
    _ = .next (s.setMem m) := by rw [State.latch_complete h.1.2]

/-- Bits 47:21 of an address are its PML4, PDPT and PD indices (rule R83). -/
theorem pathOf_congr {va va' : VA} (h : va.bits.extractLsb' 21 27 = va'.bits.extractLsb' 21 27) :
    pathOf va = pathOf va' := by
  have field (k : Nat) (hk : k + 9 ≤ 27) : va.bits.extractLsb' (21 + k) 9 = va'.bits.extractLsb' (21 + k) 9 := by
    apply BitVec.eq_of_getLsbD_eq
    intro i hi
    have bit := congrArg (fun x => x.getLsbD (k + i)) h
    have hlt : k + i < 27 := by omega
    simpa [BitVec.getLsbD_extractLsb', hi, hlt, Nat.add_assoc] using bit
  rw [pathOf, pathOf, splitVA, splitVA, field 18 (by decide), field 9 (by decide), field 0 (by decide)]

/-- Settles O33: each of a page's three walker calls takes at most one frame, and after the first `MAP` the path is
complete, so the walker calls of the second only follow it. -/
theorem sharedPathInstallsNothing : Obligations.SharedPathInstallsNothing := by
  intro s t b q h ok al hn e ht hb hq hbits
  constructor
  · obtain ⟨s', hs, rfl⟩ := exec_map_onePage_ready h hn e ht
    exact (pageFinish_drewAtMost rfl hs).counted
  · obtain ⟨ph, ok', p, hp⟩ := exec_map_onePage_path h ok al hn e ht
    have path : pathOf ⟨b⟩ = pathOf ⟨s.arg0⟩ := pathOf_congr hbits
    rw [← path] at hp
    exact exec_map_onePage_of_path (s := { t with arg0 := b, arg1 := q, arg2 := 1 }) ⟨ht, ph⟩
      (tablesOk_congr (s := t) rfl rfl rfl ok') rfl hb hq hp

end Sys2Proof.Laws
end

section
/-! SUPPORT. The mapper writes no present entry above the leaf level, so a mapped address outside the region keeps its
path, and the leaf entry at the path's end is the one the region's law speaks of (rule R172, rule R173, rule R176). -/

namespace Sys2Proof.Laws
open Sys2Proof.Machine

/-! Present entries above the leaf level. -/

/-- The tables above the leaf level are still tables of their level, and their present entries hold what they held. -/
def UpperKept (s s' : State) : Prop :=
  ∀ l x j, TableIn s l x → l.below.isSome = true → isPresent (entryOf s.mem x j) = true →
    TableIn s' l x ∧ entryOf s'.mem x j = entryOf s.mem x j

theorem UpperKept.refl (s : State) : UpperKept s s := fun _ _ _ hx _ _ => ⟨hx, rfl⟩

theorem UpperKept.trans {s s' s'' : State} (h : UpperKept s s') (h' : UpperKept s' s'') : UpperKept s s'' := by
  intro l x j hx hb hp
  obtain ⟨hx', e⟩ := h l x j hx hb hp
  obtain ⟨hx'', e'⟩ := h' l x j hx' hb (by rw [e]; exact hp)
  exact ⟨hx'', e'.trans e⟩

/-- A page writes over one present entry at most, its leaf slot, and the slot's table is of the leaf level. -/
theorem PageMapped.upperKept {s s' : State} {va : VA} {pa : PA} (h : PageMapped s s' va pa) : UpperKept s s' := by
  intro l x j hx hb hp
  have hx' := h.tables l x hx
  obtain ⟨p, path, kept⟩ := h.keeps
  refine ⟨hx', kept l x j hx hp ?_⟩
  rintro ⟨rfl, -⟩
  obtain ⟨l', hl', hd⟩ := reach_pathFrom (l := .pml4) Reach.root path (Nat.le_refl 3)
  obtain rfl := reach_level_unique h.ok hx' hl'
  obtain rfl := pt_of_depth (Nat.add_eq_right.1 (hd : l.depth + 3 = 3))
  cases hb

/-- So the loop of the mapper keeps them, whatever pages it maps. -/
theorem mapPages_upperKept {c : Config} {m : MapJob} (n : Nat) : ∀ {s s' : State} {i0 : Nat}, TablesOk s →
    AllocatorFresh s → s.cfg = c → mapPages n s (m.atPage c i0) = .ok s' () → UpperKept s s' := by
  induction n with
  | zero =>
    intro s s' i0 _ _ _ h
    cases h
    exact .refl s
  | succ n ih =>
    intro s s' i0 ok al hc h
    simp only [mapPages, Run_bind_ok_iff] at h
    obtain ⟨s1, _, page, rest⟩ := h
    have pm := pageFinish_mapped ok al (by rw [hc]; rfl) page
    have c1 : s1.cfg = c := (onlyTables_cfg pm.only).trans hc
    rw [c1] at rest
    exact pm.upperKept.trans (ih (i0 := i0 + 1) pm.ok pm.alloc c1 rest)

/-! The path of a mapped address. -/

theorem walkPath_present {m : Memory} {t : PA} {j : BitVec 9} {js : List (BitVec 9)}
    (h : isPresent (entryOf m t j) = true) :
    walkPath m (j :: js) t = entryAt t j :: walkPath m js (frameAddr (entryOf m t j)) := if_pos h

/-- A path to a table stays, and so does every entry on the way to it; the entry read in that table may have changed. -/
theorem UpperKept.path {s s' : State} (h : UpperKept s s') {js : List (BitVec 9)} {i : BitVec 9} :
    ∀ {l : Level} {t p : PA}, TableIn s l t → js.length ≤ l.depth → pathFrom s.mem t js = some p →
      pathFrom s'.mem t js = some p ∧
        ∀ a ∈ walkPath s.mem (js ++ [i]) t, a = entryAt p i ∨ s'.mem.read64 a = s.mem.read64 a := by
  induction js with
  | nil =>
    intro l t p _ _ hp
    cases hp
    refine ⟨rfl, fun a ha => .inl ?_⟩
    simpa [walkPath] using ha
  | cons j js ih =>
    intro l t p ht hl hp
    rw [List.length_cons] at hl
    obtain ⟨l', hb, hd⟩ := below_some_of_depth (l := l) (n := l.depth - 1) (by omega)
    obtain ⟨present, hp⟩ := pathFrom_cons_iff.1 hp
    obtain ⟨-, e⟩ := h l t j ht (by rw [hb]; rfl) present
    obtain ⟨hp', rest⟩ := ih (Reach.child j ht hb present) (by omega) hp
    refine ⟨pathFrom_cons_iff.2 (by rw [e]; exact ⟨present, hp'⟩), fun a ha => ?_⟩
    rw [List.cons_append, walkPath_present present] at ha
    obtain rfl | ha := List.mem_cons.1 ha
    · exact .inr e
    · exact rest a ha

theorem leafFrom_eq_some_iff {m : Memory} {t : PA} {js : List (BitVec 9)} {i : BitVec 9} {e : Word} :
    leafFrom m t js i = some e ↔
      ∃ p, pathFrom m t js = some p ∧ isPresent (entryOf m p i) = true ∧ entryOf m p i = e := by
  unfold leafFrom
  cases pathFrom m t js <;> simp

/-- An address that leads to the same present leaf entry as before keeps all entries on its path. -/
theorem UpperKept.touchedEntries {s s' : State} (h : UpperKept s s') {va : VA} {e : Word}
    (before : leafFrom s.mem (rootBase s.cfg) (pathOf va) (splitVA va).i1 = some e)
    (after : leafFrom s'.mem (rootBase s.cfg) (pathOf va) (splitVA va).i1 = some e) :
    ∀ a ∈ touchedEntries s.mem (rootBase s.cfg) va, s'.mem.read64 a = s.mem.read64 a := by
  obtain ⟨p, path, -, he⟩ := leafFrom_eq_some_iff.1 before
  obtain ⟨p', path', -, he'⟩ := leafFrom_eq_some_iff.1 after
  obtain ⟨kept, upper⟩ := h.path (l := .pml4) (i := (splitVA va).i1) Reach.root (pathOf_length va).le path
  obtain rfl : p = p' := Option.some.inj (kept.symm.trans path')
  intro a ha
  obtain rfl | same := upper a ha
  · exact he'.trans he.symm
  · exact same

/-! The mapping commands. -/

/-- A region that completes on a sound hierarchy keeps the path of every mapped address outside it (rule R176). -/
theorem mapRegion_keeps_path {s t : State} {v : VA} {p x : PA} {n : Nat} {res : Option Word} {va : VA}
    (ok : TablesOk s) (al : AllocatorFresh s) (hb : s.seq.isSome = true) (e : mapRegion s v p n res = .next t)
    (ht : t.Ready) (hm : translateVA s.mem (rootBase s.cfg) va = .mapped x) (out : ¬ covered v n va) :
    ∀ a ∈ touchedEntries s.mem (rootBase s.cfg) va, t.mem.read64 a = s.mem.read64 a := by
  obtain ⟨-, -, s', run, rfl⟩ := mapRegion_ready hb e ht
  obtain ⟨leaf, before, -⟩ := (translate_mapped_iff ok).1 hm
  have pages := mapPages_mapped n ok al rfl run
  have after := (pages.leaves va).2 fun i _ hi same => out ⟨i, by omega, same⟩
  rw [onlyTables_cfg pages.only, before] at after
  rw [mapDone_eq]
  exact (mapPages_upperKept n ok al rfl run).touchedEntries before after

/-- The same of a command whose own steps, after its issue, are those of a region. -/
theorem exec_region_keeps_path {s t : State} {i : Instr} {v : VA} {p x : PA} {n : Nat} {res : Option Word} {va : VA}
    (ok : TablesOk s) (al : AllocatorOk s) (region : exec i s = mapRegion (s.latch i) v p n res)
    (e : exec i s = .next t) (ht : t.Ready) (hm : translateVA s.mem (rootBase s.cfg) va = .mapped x)
    (out : ¬ covered v n va) :
    ∀ a ∈ touchedEntries s.mem (rootBase s.cfg) va, t.mem.read64 a = s.mem.read64 a :=
  mapRegion_keeps_path (s := s.latch i) (tablesOk_congr (s := s) rfl rfl rfl ok)
    (allocatorFresh_congr (s := s) rfl rfl rfl (allocatorOk_iff.1 al).1) rfl (region.symm.trans e) ht hm out

/-- Settles O32: in each of the three commands the region keeps the paths outside it; a `MAPDESC` whose type is not
mapped writes no memory. -/
theorem mapLeavesOtherPathsAlone : Obligations.MapLeavesOtherPathsAlone := by
  intro s t va x h ok al ht hm command
  have admitted (i : Instr) (ha : admits i .populating = true) : exec i s = bodyOf i s.latchArgs (s.latch i) :=
    exec_of_admitted h.1 (by rw [h.2]; exact ha)
  obtain ⟨e, out⟩ | ⟨e, out⟩ | ⟨e, out⟩ := command
  · exact exec_region_keeps_path ok al (admitted .map rfl) e ht hm out
  · by_cases accepted : mappedType s.cfg s.arg0 s.arg3 = true
    · exact exec_region_keeps_path ok al ((admitted .mapdesc rfl).trans (if_pos accepted)) e ht hm (out accepted)
    · have skipped : exec .mapdesc s = .next ((s.latch .mapdesc).setRes0 0).complete :=
        (admitted .mapdesc rfl).trans (if_neg accepted)
      obtain rfl := Host.Outcome.next.inj (skipped.symm.trans e)
      exact fun _ _ => rfl
  · exact exec_region_keeps_path ok al (admitted .mapfb rfl) e ht hm out

end Sys2Proof.Laws
end

section
/-! SUPPORT. The CPU's access through the block's tables (rule R61, rule R227). -/

namespace Sys2Proof.Laws
open Sys2Proof.Machine

theorem step_cpuTouch {s : State} {va : VA} {writes : Bool} {setA : BitVec 4} {setD : Bool} {rest : List Input}
    (h : s.inputs = .cpuTouch va writes setA setD :: rest) :
    step s = cpuTouchStep va writes setA setD (s.setInputs rest) := by
  simp [step, nextInput, h, inputStep]

/-- In ACTIVE the CPU walks the block's tables, whatever its paging-control register held before. -/
theorem cpuTouchStep_active {s : State} (h : s.phase = .active) (va : VA) (writes : Bool) (setA : BitVec 4)
    (setD : Bool) : cpuTouchStep va writes setA setD s = cpuWalk va writes setA setD s := by
  simp [cpuTouchStep, h]

theorem cpuWalk_notMapped {s : State} {va : VA} {l : Level} (h : translateVA s.mem (rootBase s.cfg) va = .notMapped l)
    (writes : Bool) (setA : BitVec 4) (setD : Bool) :
    cpuWalk va writes setA setD s = .fault (.unmappedAccess va l) := by
  simp [cpuWalk, h]

/-- Settles O58: the step is the CPU's walk, made on the memory and the root that the input's removal leaves as they
were, and a walk that ends at an absent entry stops. -/
theorem unmappedAccessFaults : Obligations.UnmappedAccessFaults := by
  intro s va l writes setA setD rest active next unmapped
  calc step s
    _ = cpuTouchStep va writes setA setD (s.setInputs rest) := step_cpuTouch next
    _ = cpuWalk va writes setA setD (s.setInputs rest) := cpuTouchStep_active (s := s.setInputs rest) active ..
    _ = .fault (.unmappedAccess va l) := cpuWalk_notMapped (s := s.setInputs rest) unmapped ..

end Sys2Proof.Laws
end

section
/-! SUPPORT. The three mapping commands on a sound hierarchy, where they complete and where the allocator ends them: each
is a region after its issue, so what is said of them is said of a region once (rule R170, rule R174, rule R175). -/

namespace Sys2Proof.Laws
open Sys2Proof.Machine

/-! Each mapping command is a region (rule R171, rule R190, rule R191). -/

theorem exec_populating {s : State} {i : Instr} (h : s.Populating) (ha : admits i .populating = true) :
    exec i s = bodyOf i s.latchArgs (s.latch i) :=
  exec_of_admitted h.1 (by rw [h.2]; exact ha)

theorem exec_map {s : State} (h : s.Populating) :
    exec .map s = mapRegion (s.latch .map) ⟨s.arg0⟩ s.arg1 s.arg2.toNat none :=
  exec_populating h rfl

theorem exec_mapdesc_mapped {s : State} (h : s.Populating) (hm : mappedType s.cfg s.arg0 s.arg3 = true) :
    exec .mapdesc s = mapRegion (s.latch .mapdesc) (identityVA s.arg1) s.arg1 s.arg2.toNat (some 1) :=
  (exec_populating h rfl).trans (if_pos hm)

theorem exec_mapdesc_skipped {s : State} (h : s.Populating) (hm : mappedType s.cfg s.arg0 s.arg3 = false) :
    exec .mapdesc s = .next (s.setRes0 0) :=
  exec_of_body_completes h.1 (by rw [h.2]; rfl) (if_neg (Bool.eq_false_iff.1 hm))

theorem exec_mapfb {s : State} (h : s.Populating) :
    exec .mapfb s = mapRegion (s.latch .mapfb) (identityVA s.arg0) s.arg0 ((s.arg1.toNat + 4095) / 4096 + 1)
      (some (BitVec.ofNat 64 ((s.arg1.toNat + 4095) / 4096 + 1))) :=
  exec_populating h rfl

/-- The job of a region of `n` pages, before its page 0 is entered. -/
abbrev regionJob (v : VA) (p : PA) (n : Nat) (res : Option Word) : MapJob := ⟨v, p, n, 0, .leaf 0, res⟩

/-- A region whose bases are aligned is its loop, then its command's end (rule R170). -/
theorem mapRegion_aligned {s : State} {v : VA} {p : PA} {n : Nat} {res : Option Word}
    (hv : v.bits.toNat % 4096 = 0) (hp : p.toNat % 4096 = 0) :
    mapRegion s v p n res = (mapPages n s ((regionJob v p n res).atPage s.cfg 0)).finish .map
      fun s' _ => .next (mapDone s' (regionJob v p n res)) := by
  unfold mapRegion mapChecked
  rw [if_pos (pageAligned_iff.2 hv), if_pos (pageAligned_iff.2 hp)]
  rfl

/-! What a leaf entry gives to an address (rule R61, rule R122). -/

theorem splitVA_off (va : VA) : (splitVA va).off.setWidth 64 = va.bits &&& 0xFFF := by
  apply BitVec.eq_of_toNat_eq
  have hmask : BitVec.toNat (0xFFF : Word) = 2 ^ 12 - 1 := rfl
  simp only [splitVA, BitVec.toNat_setWidth, BitVec.extractLsb'_toNat, BitVec.toNat_and, hmask,
    Nat.and_two_pow_sub_one_eq_mod]
  omega

theorem frameAddr_initWord_or_off (p : PA) (va : VA) :
    frameAddr (initWord p) ||| (splitVA va).off.setWidth 64 = inPage p va := by
  rw [frameAddr_initWord, frameAddr_eq_and, splitVA_off, inPage]

theorem translate_of_leaf {s : State} (ok : TablesOk s) {va : VA} {p : PA}
    (h : leafFrom s.mem (rootBase s.cfg) (pathOf va) (splitVA va).i1 = some (initWord p)) :
    translateVA s.mem (rootBase s.cfg) va = .mapped (inPage p va) :=
  (translate_mapped_iff ok).2 ⟨_, h, (frameAddr_initWord_or_off p va).symm⟩

/-- The leaf slots that the pages of a region leave are the translations the region asks for. -/
theorem PagesMapped.mappedOver {s s' : State} {v : VA} {p : PA} {n : Nat} (h : PagesMapped s s' v p 0 n)
    (ok : TablesOk s) : mappedOver (rootBase s.cfg) v p n s.mem s'.mem := by
  intro va
  obtain ⟨inside, outside⟩ := h.leaves va
  rw [← onlyTables_cfg h.only]
  constructor
  · rintro i ⟨hi, same, last⟩
    exact translate_of_leaf h.ok (inside i (Nat.zero_le i) (by omega) same fun i' hlt hi' => last i' hlt (by omega))
  · intro out x
    have leaf := outside fun i _ hi same => out ⟨i, by omega, same⟩
    rw [translate_mapped_iff h.ok, leaf, onlyTables_cfg h.only, translate_mapped_iff ok]

/-- Tables installed after the pages change none of their leaf slots. -/
theorem PagesMapped.grown {s s' s'' : State} {v : VA} {p : PA} {i0 n : Nat} (h : PagesMapped s s' v p i0 n)
    (g : Grown s' s'') : PagesMapped s s'' v p i0 n where
  only := onlyTables_trans h.only g.only
  ok := g.ok
  alloc := g.alloc
  drew := h.drew.elim fun _ d => g.drew.imp' _ fun _ d' => drew_trans d d'
  bytes := g.drew.elim fun _ d => untouched_trans h.bytes g.bytes d (onlyTables_cfg g.only)
  leaves va := by
    rw [g.leaves _ _ (pathOf_length va)]
    exact h.leaves va

/-! A region that completes. -/

/-- The end of a mapping command, on top of what its iterations may write, is its result. -/
theorem onlyTables_mapDone {s s' : State} {i : Instr} (hs : s.seq = none) (h : onlyTables (s.latch i) s') (m : MapJob) :
    onlyTables { s with res0 := m.result.getD s.res0 } (mapDone s' m) := by
  rw [mapDone_eq]
  unfold onlyTables State.latch at *
  rw [h, ← hs]

/-- What a completed mapping command of the region leaves. -/
theorem exec_region_completed {s t : State} {i : Instr} {v : VA} {p : PA} {n : Nat} {res : Option Word}
    (hs : s.seq = none) (ok : TablesOk s) (al : AllocatorOk s) (region : exec i s = mapRegion (s.latch i) v p n res)
    (e : exec i s = .next t) (ht : t.Ready) :
    TablesOk t ∧ AllocatorOk t ∧ onlyTables { s with res0 := res.getD s.res0 } t ∧ onlyTableBytes s t ∧
      mappedOver (rootBase s.cfg) v p n s.mem t.mem := by
  have ok' : TablesOk (s.latch i) := tablesOk_congr (s := s) rfl rfl rfl ok
  have al' : AllocatorOk (s.latch i) := allocatorOk_congr (s := s) rfl rfl rfl al
  obtain ⟨-, -, s', run, rfl⟩ := mapRegion_ready rfl (region.symm.trans e) ht
  have pages := mapPages_mapped n ok' (allocatorOk_iff.1 al').1 rfl run
  obtain ⟨fs, drew⟩ := pages.drew
  have al'' := allocatorOk_drew al' drew pages.alloc
  have only := onlyTables_mapDone hs pages.only (regionJob v p n res)
  rw [mapDone_eq] at only ⊢
  exact ⟨tablesOk_congr (s := s') rfl rfl rfl pages.ok, allocatorOk_congr (s := s') rfl rfl rfl al'', only,
    onlyTableBytes_of_untouched pages.bytes, pages.mappedOver ok'⟩

/-- Settles O29: `MAP` is a region without a result. -/
theorem mapSetsExactlyItsPages : Obligations.MapSetsExactlyItsPages := fun _ _ h ok al e ht =>
  exec_region_completed h.1.2 ok al (exec_map h) e ht

/-- Settles O30: a `MAPDESC` of a mapped type, and a `MAPFB`, are regions whose two bases are equal. -/
theorem firmwareRegionsMapIdentity : Obligations.FirmwareRegionsMapIdentity := fun _ _ h ok al ht =>
  ⟨fun e hm => exec_region_completed h.1.2 ok al (exec_mapdesc_mapped h hm) e ht,
    fun e => exec_region_completed h.1.2 ok al (exec_mapfb h) e ht⟩

/-! The identity-mapping law (rule R175). -/

/-- The pages of a region whose base is aligned are aligned. -/
theorem regionFrame_aligned {p : PA} (hp : p.toNat % 4096 = 0) (i : Nat) : (regionFrame p i).toNat % 4096 = 0 := by
  simp only [regionFrame, BitVec.toNat_add, BitVec.toNat_mul, BitVec.toNat_ofNat]
  omega

section
variable {x o : Word} (hx : x.toNat % 4096 = 0) (hlt : x.toNat < 2 ^ 52) (ho : o.toNat < 4096)
include hx hlt ho

theorem toNat_add_offset : (x + o).toNat = x.toNat + o.toNat := by
  rw [BitVec.toNat_add]
  omega

/-- The addresses of a page below 2^52 share it. -/
theorem samePage_add_offset : samePage (identityVA (x + o)) (identityVA x) := by
  apply BitVec.eq_of_toNat_eq
  simp only [identityVA, BitVec.extractLsb'_toNat, toNat_add_offset hx hlt ho, Nat.shiftRight_eq_div_pow]
  omega

/-- An address in a page below 2^52 that is mapped to itself translates to itself. -/
theorem inPage_add_offset : inPage x (identityVA (x + o)) = x + o := by
  have hframe : frameAddr x = x := by
    rw [← frameAddr_initWord]
    exact frameAddr_initWord_of_frame (frameOk_iff.2 ⟨hx, hlt⟩)
  have hoff : (x + o) &&& 0xFFF = o := by
    have hmask : BitVec.toNat (0xFFF : Word) = 2 ^ 12 - 1 := rfl
    apply BitVec.eq_of_toNat_eq
    rw [BitVec.toNat_and, hmask, Nat.and_two_pow_sub_one_eq_mod, toNat_add_offset hx hlt ho]
    omega
  have apart : x &&& o = 0#64 := by
    apply BitVec.eq_of_getLsbD_eq
    intro k hk
    rw [BitVec.getLsbD_and, BitVec.getLsbD_zero, Bool.and_eq_false_iff]
    obtain hlow | hhigh := Nat.lt_or_ge k 12
    · left
      rw [← hframe, frameAddr, getLsbD_field_in_position x 12 40 hk, decide_eq_false (by omega), Bool.false_and]
    · exact .inr (getLsbD_eq_false_of_toNat_lt ho hhigh)
  rw [inPage, ← frameAddr_eq_and, hframe, identityVA, hoff, ← BitVec.add_eq_or_of_and_eq_zero _ _ apart]

end

/-- Settles O31: an address in a page of the region lies last in that page, so the completed `MAP` gives it the page's
frame, its own page; `ENABLE` writes no memory. -/
theorem identityRegionTranslatesToItself : Obligations.IdentityRegionTranslatesToItself := by
  intro s t u h ok al same e ht enabled _ i hi hlt last o ho
  obtain ⟨-, base, -, -⟩ := mapRegion_ready rfl ((exec_map h).symm.trans e) ht
  obtain ⟨-, -, only, -, mapped⟩ := exec_region_completed h.1.2 ok al (exec_map h) e ht
  have phase : t.phase = .populating := by rw [only]; exact h.2
  have hu : (writeCr3 t (rootBase t.cfg)).setPhase .active = u :=
    Host.Outcome.next.inj ((exec_enable ⟨ht, phase⟩).symm.trans enabled)
  have hx := regionFrame_aligned (pageAligned_iff.1 (same ▸ base)) i
  have page := samePage_add_offset hx hlt ho
  have cover : lastCover ⟨s.arg0⟩ s.arg2.toNat (identityVA (regionFrame s.arg0 i + o)) i :=
    ⟨hi, page, fun i' hlt' hi' page' => last i' hlt' hi' (page.symm.trans page')⟩
  have translated := (mapped _).1 i cover
  rw [same, inPage_add_offset hx hlt ho] at translated
  calc translateVA u.mem (rootBase u.cfg) (identityVA (regionFrame s.arg0 i + o))
    _ = translateVA t.mem (rootBase s.cfg) (identityVA (regionFrame s.arg0 i + o)) := by
        rw [← hu, State.setPhase_mem, writeCr3_mem, State.setPhase_cfg, writeCr3_cfg, onlyTables_cfg only]
    _ = _ := translated

/-! A region cut short (rule R174). -/

/-- The region that starts in `s` has mapped its pages before `i`, and in the state `s1` the walk of page `i` stands at a
missing entry, for which the allocator gives the answer `r`: it has no frame, or one that the block turns away as the
fault `f` with `info`. -/
structure CutShort (s s1 : State) (v : VA) (p : PA) (i : Nat) (r : AllocAnswer) (rest : List AllocAnswer) (f : Cause)
    (info : Word) : Prop where
  pages  : PagesMapped s s1 v p 0 i
  answer : s1.answers = r :: rest
  walk   : ∃ l, l ≠ .pt ∧ translateVA s1.mem (rootBase s1.cfg) (regionPage v i) = .notMapped l
  why    : (r = .exhausted ∧ f = .allocExhausted ∧
      (touchedEntries s1.mem (rootBase s1.cfg) (regionPage v i)).getLast? = some info.toNat) ∨
    (r = .frame info ∧ f = .allocatorContract ∧ frameOk info = false)

/-- A region with aligned bases that faults on a sound hierarchy has been cut short at one of its pages. -/
theorem mapRegion_faulted {s t : State} {v : VA} {p : PA} {n : Nat} {res : Option Word} (ok : TablesOk s)
    (al : AllocatorFresh s) (hf : s.faulted = false) (hv : v.bits.toNat % 4096 = 0) (hp : p.toNat % 4096 = 0)
    (e : mapRegion s v p n res = .next t) (ht : t.faulted = true) :
    ∃ i < n, ∃ s1 r rest f info, CutShort s s1 v p i r rest f info ∧ t = (s1.takeAnswer r rest).raiseHere f info := by
  rw [mapRegion_aligned hv hp] at e
  have only := mapPages_only n ((regionJob v p n res).atPage s.cfg 0) (onlyTables_refl s)
  cases run : mapPages n s ((regionJob v p n res).atPage s.cfg 0) with
  | ok s' u =>
    rw [run] at e only
    cases e
    rw [mapDone_eq] at ht
    exact absurd ht (by simp [onlyTables_faulted only, hf])
  | wait s' m =>
    rw [run] at e only
    cases e
    exact absurd ht (by simp [onlyTables_faulted only, hf])
  | stop x => rw [run] at e; cases e
  | raise s' f info =>
    rw [run] at e
    cases e
    obtain ⟨i, hi, s0, before, cfg, page⟩ := mapPages_raise n rfl run
    have pages := mapPages_mapped i ok al rfl before
    rw [← cfg, Nat.zero_add] at page
    obtain ⟨s1, l, a, j, grown, upper, call, walk, lastEntry⟩ := pageFinish_raise pages.ok pages.alloc rfl page
    obtain ⟨-, r, rest, answer, rfl, why⟩ := resolveNext_raise call
    refine ⟨i, hi, s1, r, rest, f, info, ⟨pages.grown grown, answer, ⟨l, upper, walk⟩, why.imp_left ?_⟩, rfl⟩
    rintro ⟨hr, hf, rfl⟩
    exact ⟨hr, hf, lastEntry⟩

/-- A hierarchy stays sound when more frames are handed to the block. -/
theorem tablesOk_moreGranted {s s' : State} (hm : s'.mem = s.mem) (hc : s'.cfg = s.cfg) (hg : s.granted ⊆ s'.granted)
    (h : TablesOk s) : TablesOk s' where
  own := by rw [hm, hc]; exact fun l t ht => (h.own l t ht).imp_right fun m => hg m
  parent := by rw [hm, hc]; exact h.parent
  top := by rw [hm, hc]; exact h.top
  small := by rw [hm, hc]; exact h.small
  inMem := by rw [hm, hc]; exact h.inMem

theorem takeAnswer_granted_subset (s : State) (r : AllocAnswer) (rest : List AllocAnswer) :
    s.granted ⊆ (s.takeAnswer r rest).granted := by
  cases r with
  | frame f => exact List.subset_cons_self f s.granted
  | exhausted => exact fun _ => id

section
variable {s s1 : State} {v : VA} {p : PA} {i : Nat} {r : AllocAnswer} {rest : List AllocAnswer} {f : Cause} {info : Word}

/-- What does not depend on the answer the region was cut short by. -/
theorem CutShort.regionCutShort (h : CutShort s s1 v p i r rest f info) (ok : TablesOk s) {fs : List PA}
    (d : Drew s s1 fs) : regionCutShort s ((s1.takeAnswer r rest).raiseHere f info) v p i fs := by
  obtain ⟨pages, -, walk, -⟩ := h
  have cfg := onlyTables_cfg pages.only
  rw [cfg] at walk
  have bytes := onlyFrameBytes_of_untouched pages.bytes d cfg
  exact ⟨pages.mappedOver ok, tablesOk_moreGranted (s := s1) rfl rfl (takeAnswer_granted_subset s1 r rest) pages.ok,
    bytes, walk, d.allocs⟩

/-- The fault is recorded over the command's other effects, which are those of a region's loop. -/
theorem CutShort.onlyTables {c : Instr} (h : CutShort (s.latch c) s1 v p i r rest f info) :
    onlyTables (recorded s f.code (encode c) info) ((s1.takeAnswer r rest).raiseHere f info) := by
  have only := h.pages.only
  have word : s1.latchedWord = encode c := State.latchedWord_of_seq (onlyTables_seq only)
  rw [State.raiseHere, ← word]
  unfold Machine.onlyTables State.latch at *
  rw [only]
  rfl

end

/-- A mapping command on a sound hierarchy that faults has been cut short at one of its region's pages. -/
theorem exec_region_faulted {s t : State} {c : Instr} {v : VA} {p : PA} {n : Nat} {res : Option Word}
    (h : s.Populating) (ok : TablesOk s) (al : AllocatorFresh s) (ht : t.faulted = true)
    (region : exec c s = mapRegion (s.latch c) v p n res) (e : exec c s = .next t) (hv : v.bits.toNat % 4096 = 0)
    (hp : p.toNat % 4096 = 0) :
    ∃ i < n, ∃ s1 r rest f info fs, CutShort (s.latch c) s1 v p i r rest f info ∧ Drew (s.latch c) s1 fs ∧
      t = (s1.takeAnswer r rest).raiseHere f info ∧ regionCutShort s t v p i fs := by
  have ok' : TablesOk (s.latch c) := tablesOk_congr (s := s) rfl rfl rfl ok
  have al' : AllocatorFresh (s.latch c) := allocatorFresh_congr (s := s) rfl rfl rfl al
  obtain ⟨i, hi, s1, r, rest, f, info, cut, rfl⟩ := mapRegion_faulted ok' al' h.1.1 hv hp (region.symm.trans e) ht
  obtain ⟨fs, d⟩ := cut.pages.drew
  exact ⟨i, hi, s1, r, rest, f, info, fs, cut, d, rfl, cut.regionCutShort ok' d⟩

/-- The allocator that keeps its promise has ended it for want of a frame (rule R220). -/
theorem exec_region_exhausted {s t : State} {c : Instr} {w : Word} {v : VA} {p : PA} {n : Nat}
    {res : Option Word} (h : s.Populating) (ok : TablesOk s) (al : AllocatorOk s) (ht : t.faulted = true)
    (word : encode c = w) (region : exec c s = mapRegion (s.latch c) v p n res) (e : exec c s = .next t)
    (hv : v.bits.toNat % 4096 = 0) (hp : p.toNat % 4096 = 0) : regionExhausted s t w v p n := by
  subst word
  obtain ⟨fresh, good⟩ := allocatorOk_iff.1 al
  obtain ⟨i, hi, s1, r, rest, f, info, fs, cut, d, rfl, short⟩ :=
    exec_region_faulted h ok fresh ht region e hv hp
  have answers : s.answers = fs.reverse.map .frame ++ r :: rest := by rw [← cut.answer]; exact d.answers
  obtain ⟨rfl, rfl, last⟩ | ⟨rfl, -, bad⟩ := cut.why
  · rw [onlyTables_cfg cut.pages.only] at last
    exact ⟨i, hi, fs, short, answers, d.granted, last, cut.onlyTables⟩
  · rw [good info (by rw [answers]; simp)] at bad
    cases bad

/-- An allocator that has not run out has ended it with a bad frame (rule R220). -/
theorem exec_region_badFrame {s t : State} {c : Instr} {w : Word} {v : VA} {p : PA} {n : Nat}
    {res : Option Word} (h : s.Populating) (ok : TablesOk s) (al : AllocatorFresh s) (ht : t.faulted = true)
    (hcode : t.fcode ≠ 1) (word : encode c = w)
    (region : exec c s = mapRegion (s.latch c) v p n res) (e : exec c s = .next t) (hv : v.bits.toNat % 4096 = 0)
    (hp : p.toNat % 4096 = 0) : regionBadFrame s t w v p n := by
  subst word
  obtain ⟨i, hi, s1, r, rest, f, info, fs, cut, d, rfl, short⟩ := exec_region_faulted h ok al ht region e hv hp
  have answers : s.answers = fs.reverse.map .frame ++ r :: rest := by rw [← cut.answer]; exact d.answers
  obtain ⟨-, rfl, -⟩ | ⟨rfl, rfl, bad⟩ := cut.why
  · exact absurd rfl hcode
  · have outside : info.toNat % 4096 ≠ 0 ∨ 2 ^ 52 ≤ info.toNat := by
      rw [← Bool.not_eq_true, frameOk_iff] at bad
      omega
    exact ⟨i, hi, fs, short, answers, congrArg (info :: ·) d.granted, outside, cut.onlyTables⟩

/-- A `MAPDESC` that faults in a state with no fault recorded is of a mapped type. -/
theorem mappedType_of_faulted {s t : State} (h : s.Populating) (ht : t.faulted = true)
    (e : exec .mapdesc s = .next t) : mappedType s.cfg s.arg0 s.arg3 = true := by
  by_contra hm
  have skipped : s.setRes0 0 = t :=
    Host.Outcome.next.inj ((exec_mapdesc_skipped h (Bool.eq_false_iff.2 hm)).symm.trans e)
  rw [← skipped, State.setRes0_faulted, h.1.1] at ht
  cases ht

/-- Settles O34: each of the three commands is a region, and its allocator answers no bad frame. -/
theorem exhaustedMapKeepsEarlierPages : Obligations.ExhaustedMapKeepsEarlierPages := fun _ _ h ok al ht =>
  ⟨fun hv hp e => exec_region_exhausted h ok al ht rfl (exec_map h) e hv hp,
    fun hp e => exec_region_exhausted h ok al ht rfl (exec_mapdesc_mapped h (mappedType_of_faulted h ht e)) e hp hp,
    fun hp e => exec_region_exhausted h ok al ht rfl (exec_mapfb h) e hp hp⟩

/-- Settles O35: each of the three commands is a region, and the fault recorded is not exhaustion. -/
theorem badFrameKeepsEarlierPages : Obligations.BadFrameKeepsEarlierPages := fun _ _ h ok al ht hcode =>
  ⟨fun hv hp e => exec_region_badFrame h ok al ht hcode rfl (exec_map h) e hv hp,
    fun hp e => exec_region_badFrame h ok al ht hcode rfl (exec_mapdesc_mapped h (mappedType_of_faulted h ht e)) e hp hp,
    fun hp e => exec_region_badFrame h ok al ht hcode rfl (exec_mapfb h) e hp hp⟩

end Sys2Proof.Laws
end

section
/-! SUPPORT. The root: what `ROOTZ` leaves, and the tables that a run of mapping commands from there leaves to `ENABLE`
(rule R192, rule R195). -/

namespace Sys2Proof.Laws
open Sys2Proof.Machine

/-! `ROOTZ`. -/

/-- Memory with the root's 512 entries zeroed. -/
def zeroedRoot (s : State) : Memory := s.mem.zeroEntries (rootBase s.cfg).toNat 512

theorem exec_rootz {s : State} (h : s.Ready) (hp : s.phase = .uninit) :
    exec .rootz s = .next ((s.setMem (zeroedRoot s)).setPhase .populating) :=
  calc exec .rootz s = rootzFinish (s.latch .rootz) 0 := exec_of_admitted h (by rw [hp]; rfl)
    _ = .next (((s.latch .rootz).complete.setMem (zeroedRoot s)).setPhase .populating) := by
        rw [rootzFinish, Nat.mul_zero, Nat.add_zero, Nat.sub_zero]
        rfl
    _ = _ := by rw [State.latch_complete h.2]

/-- A command in a phase that does not admit it (rule R87, rule R220). -/
theorem exec_refused_phase {s : State} {i : Instr} (h : s.Ready) (ha : admits i s.phase = false) :
    exec i s = .next (recorded s 4 (encode i) (s.phase.code.setWidth 64)) := by
  obtain ⟨hf, hs⟩ := h
  rw [exec_eq_issue]
  exact issue_refused_phase hf hs ha

/-- Settles O36: the one store of `ROOTZ` zeroes the root's page. -/
theorem rootzZeroesTheRoot : Obligations.RootzZeroesTheRoot := fun s h hp =>
  ⟨zeroedRoot s, exec_rootz h hp, fun _ _ => read64_zeroEntries_same (by omega),
    fun _ _ => byte_zeroEntries_other (by omega)⟩

/-- A `ROOTZ` that completes was issued in UNINIT. -/
theorem exec_rootz_completed {s t : State} (h : s.Ready) (e : exec .rootz s = .next t) (ht : t.Ready) :
    t = (s.setMem (zeroedRoot s)).setPhase .populating := by
  by_cases hp : s.phase = .uninit
  · exact Host.Outcome.next.inj (e.symm.trans (exec_rootz h hp))
  · have refused := exec_refused_phase (i := .rootz) h (by simpa [admits] using hp)
    obtain rfl := Host.Outcome.next.inj (e.symm.trans refused)
    cases ht.1

theorem entryOf_zeroedRoot (s : State) (j : BitVec 9) : entryOf (zeroedRoot s) (rootBase s.cfg) j = 0 := by
  have inside := entryAt_inside (j := j) (frameOk_rootBase s.cfg)
  exact read64_zeroEntries_same (by omega)

/-- Settles O37: none of the zeroed root's entries is present, so the root is the only table and every walk ends in it. -/
theorem rootzMapsNothing : Obligations.RootzMapsNothing := by
  intro s t h e ht
  obtain rfl := exec_rootz_completed h e ht
  have absent (j : BitVec 9) : isPresent (entryOf (zeroedRoot s) (rootBase s.cfg) j) = false := by
    rw [entryOf_zeroedRoot]; exact isPresent_zero
  refine ⟨tablesOk_emptyRoot absent, fun va => ?_⟩
  have first := absent (splitVA va).i4
  unfold entryOf at first
  simp only [State.setPhase_mem, State.setPhase_cfg, State.setMem_mem, State.setMem_cfg, translateVA, upperLevels,
    translateFrom, first, Bool.false_eq_true, if_false]

/-! Commands that touch no table. -/

/-- Only the results, the fault record and the sequencer may differ: the tables and the allocator's side are as before. -/
def ResultsOnly (s t : State) : Prop :=
  t = { s with
    res0 := t.res0, res1 := t.res1, res2 := t.res2, res3 := t.res3, res4 := t.res4, faulted := t.faulted
    fcode := t.fcode, fopc := t.fopc, finfo := t.finfo, seq := t.seq }

theorem resultsOnly_setRes0 (s : State) (v : Word) : ResultsOnly s (s.setRes0 v) := rfl

/-- The commands that every phase admits compute results (rules R111, R125 to R129). -/
theorem bodyOf_compute {i : Instr} {a : Args} {s t : State} (hi : neededPhase i = none)
    (e : bodyOf i a s = .next t) : ResultsOnly s t := by
  cases i with
  | adec => cases e; rfl
  | pinit => cases e; rfl
  | pframe => cases e; rfl
  | ppres => cases e; rfl
  | pget =>
    simp only [bodyOf, bodyPget] at e
    split at e <;> cases e <;> rfl
  | pset =>
    simp only [bodyOf, bodyPset] at e
    split at e
    · cases e; rfl
    · split at e <;> cases e <;> rfl
  | _ => cases hi

theorem admits_of_neededPhase {i : Instr} {p : Phase} :
    admits i p = true ↔ ∀ q, neededPhase i = some q → p = q := by
  cases i <;> simp [admits, neededPhase]

theorem exec_compute {i : Instr} {s t : State} (hi : neededPhase i = none) (h : s.Ready) (e : exec i s = .next t) :
    ResultsOnly s t := by
  rw [exec_of_admitted h (admits_of_neededPhase.2 (by simp [hi]))] at e
  have results := bodyOf_compute hi e
  unfold ResultsOnly State.latch at *
  exact results

/-! What a run of mapping commands leaves mapped (rule R195). -/

/-- The block is at work on a sound hierarchy, with an allocator that keeps its promise. -/
structure AtWork (s : State) : Prop where
  populating : s.Populating
  tables     : TablesOk s
  alloc      : AllocatorOk s

def Mapped (s : State) (va : VA) : Prop := ∃ x, translateVA s.mem (rootBase s.cfg) va = .mapped x

theorem exists_lastCover {v va : VA} {n : Nat} (h : covered v n va) : ∃ i, lastCover v n va i := by
  induction n with
  | zero => obtain ⟨i, hi, -⟩ := h; cases hi
  | succ n ih =>
    by_cases top : samePage va (regionPage v n)
    · exact ⟨n, Nat.lt_succ_self n, top, fun i' _ _ => by omega⟩
    · obtain ⟨i, hi, same⟩ := h
      have hne : i ≠ n := fun heq => top (heq ▸ same)
      obtain ⟨k, hk, page, last⟩ := ih ⟨i, by omega, same⟩
      refine ⟨k, by omega, page, fun i' hlt hi' => ?_⟩
      obtain heq | hlt' := Nat.eq_or_lt_of_le (Nat.le_of_lt_succ hi')
      · exact heq ▸ top
      · exact last i' hlt hlt'

theorem mapped_of_mappedOver {s t : State} {v : VA} {p : PA} {n : Nat} (hc : t.cfg = s.cfg)
    (h : mappedOver (rootBase s.cfg) v p n s.mem t.mem) (va : VA) : Mapped t va ↔ Mapped s va ∨ covered v n va := by
  obtain ⟨inside, outside⟩ := h va
  rw [Mapped, Mapped, hc]
  by_cases hcov : covered v n va
  · obtain ⟨i, last⟩ := exists_lastCover hcov
    exact ⟨fun _ => .inr hcov, fun _ => ⟨_, inside i last⟩⟩
  · rw [or_iff_left hcov]
    exact exists_congr (outside hcov)

/-- A mapping command that completes maps its region beside what was mapped. -/
theorem exec_region_atWork {s t : State} {i : Instr} {v : VA} {p : PA} {n : Nat} {res : Option Word} (h : AtWork s)
    (region : exec i s = mapRegion (s.latch i) v p n res) (e : exec i s = .next t) (ht : t.Ready) :
    AtWork t ∧ ∀ va, Mapped t va ↔ Mapped s va ∨ covered v n va := by
  obtain ⟨ok, al, only, -, mapped⟩ := exec_region_completed h.populating.1.2 h.tables h.alloc region e ht
  have phase : t.phase = s.phase := by rw [only]
  exact ⟨⟨⟨ht, phase.trans h.populating.2⟩, ok, al⟩, mapped_of_mappedOver (by rw [only]) mapped⟩

theorem ResultsOnly.atWork {s t : State} (h : ResultsOnly s t) (hs : AtWork s) (ht : t.Ready) :
    AtWork t ∧ ∀ va, Mapped t va ↔ Mapped s va := by
  unfold ResultsOnly at h
  have mem : t.mem = s.mem := by rw [h]
  have cfg : t.cfg = s.cfg := by rw [h]
  have granted : t.granted = s.granted := by rw [h]
  have answers : t.answers = s.answers := by rw [h]
  have phase : t.phase = s.phase := by rw [h]
  exact ⟨⟨⟨ht, phase.trans hs.populating.2⟩, tablesOk_congr mem cfg granted hs.tables,
    allocatorOk_congr answers cfg granted hs.alloc⟩, fun va => by rw [Mapped, Mapped, mem, cfg]⟩

/-- Operand writes before a command leave the block at work. -/
theorem AtWork.withArgs {s : State} (h : AtWork s) (a0 a1 a2 a3 : Word) :
    AtWork { s with arg0 := a0, arg1 := a1, arg2 := a2, arg3 := a3 } where
  populating := h.populating
  tables := tablesOk_congr (s := s) rfl rfl rfl h.tables
  alloc := allocatorOk_congr (s := s) rfl rfl rfl h.alloc

theorem populates_mapped {s u : State} {rs : List (VA × Nat)} (h : Populates s rs u) (hs : AtWork s) :
    AtWork u ∧ ∀ va, Mapped u va ↔ Mapped s va ∨ ∃ r ∈ rs, covered r.1 r.2 va := by
  -- one more region, mapped before the others
  have first {s t u : State} {v : VA} {n : Nat} {rs : List (VA × Nat)}
      (region : ∀ va, Mapped t va ↔ Mapped s va ∨ covered v n va)
      (others : ∀ va, Mapped u va ↔ Mapped t va ∨ ∃ r ∈ rs, covered r.1 r.2 va) (va : VA) :
      Mapped u va ↔ Mapped s va ∨ ∃ r ∈ (v, n) :: rs, covered r.1 r.2 va := by
    rw [others, region, or_assoc]
    simp
  induction h with
  | done s => exact ⟨hs, fun va => by simp⟩
  | @map s _ _ _ v p n e ht _ ih =>
    have hs' := hs.withArgs v p n s.arg3
    obtain ⟨work, region⟩ := exec_region_atWork hs' (exec_map hs'.populating) e ht
    exact (ih work).imp_right (first region)
  | mapped d hd e ht _ ih =>
    have hs' := hs.withArgs d.type d.start d.pages d.attr
    obtain ⟨work, region⟩ := exec_region_atWork hs' (exec_mapdesc_mapped hs'.populating hd) e ht
    exact (ih work).imp_right (first region)
  | skipped d hd e ht _ ih =>
    have hs' := hs.withArgs d.type d.start d.pages d.attr
    obtain rfl := Host.Outcome.next.inj (e.symm.trans (exec_mapdesc_skipped hs'.populating hd))
    obtain ⟨work, same⟩ := (resultsOnly_setRes0 _ 0).atWork hs' ht
    exact (ih work).imp_right fun rest va => by rw [rest, same]; rfl
  | @framebuffer s _ _ _ fb e ht _ ih =>
    have hs' := hs.withArgs fb.base fb.size s.arg2 s.arg3
    obtain ⟨work, region⟩ := exec_region_atWork hs' (exec_mapfb hs'.populating) e ht
    exact (ih work).imp_right (first region)
  | @compute s _ _ _ i a0 a1 a2 hi e ht _ ih =>
    have hs' := hs.withArgs a0 a1 a2 s.arg3
    obtain ⟨work, same⟩ := (exec_compute hi hs'.populating.1 e).atWork hs' ht
    exact (ih work).imp_right fun rest va => by rw [rest, same]; rfl

/-- A sound hierarchy has no large page, so a walk in it ends at a leaf entry or at one that is not present. -/
theorem translate_ne_unmodelled {s : State} (ok : TablesOk s) (va : VA) (l : Level) :
    translateVA s.mem (rootBase s.cfg) va ≠ .unmodelled l := by
  have r1 : TableIn s .pml4 (rootBase s.cfg) := Reach.root
  have fold (t : PA) (j : BitVec 9) : s.mem.read64 (entryAt t j) = entryOf s.mem t j := rfl
  simp only [translateVA, upperLevels, translateFrom, fold]
  by_cases h1 : isPresent (entryOf s.mem (rootBase s.cfg) (splitVA va).i4) = true
  · have r2 := Reach.child _ r1 rfl h1
    simp only [h1, if_true, ne_eq, not_true_eq_false, false_and, if_false]
    generalize frameAddr (entryOf s.mem (rootBase s.cfg) (splitVA va).i4) = t2 at *
    by_cases h2 : isPresent (entryOf s.mem t2 (splitVA va).i3) = true
    · have r3 := Reach.child _ r2 rfl h2
      simp only [h2, if_true, ok.small _ _ _ r2 rfl h2, Bool.false_eq_true, and_false, if_false]
      generalize frameAddr (entryOf s.mem t2 (splitVA va).i3) = t3 at *
      by_cases h3 : isPresent (entryOf s.mem t3 (splitVA va).i2) = true
      · simp only [h3, if_true, ok.small _ _ _ r3 rfl h3, Bool.false_eq_true, and_false, if_false]
        split <;> simp
      · simp [h3]
    · simp [h2]
  · simp [h1]

theorem notMapped_of_not_mapped {s : State} (ok : TablesOk s) {va : VA} (h : ¬ Mapped s va) :
    ∃ l, translateVA s.mem (rootBase s.cfg) va = .notMapped l := by
  cases walk : translateVA s.mem (rootBase s.cfg) va with
  | mapped x => exact absurd ⟨x, walk⟩ h
  | notMapped l => exact ⟨l, rfl⟩
  | unmodelled l => exact absurd walk (translate_ne_unmodelled ok va l)

/-- The block right after a `ROOTZ` is at work on tables that map nothing. -/
theorem exec_rootz_atWork {s t : State} (h : s.Ready) (hp : s.phase = .uninit) (al : AllocatorOk s)
    (e : exec .rootz s = .next t) : AtWork t ∧ ∀ va, ¬ Mapped t va := by
  have ht : (s.setMem (zeroedRoot s)).setPhase .populating = t :=
    Host.Outcome.next.inj ((exec_rootz h hp).symm.trans e)
  have ready : t.Ready := by rw [← ht]; exact h
  obtain ⟨ok, nothing⟩ := rootzMapsNothing s t h e ready
  refine ⟨⟨⟨ready, by rw [← ht]; rfl⟩, ok, ?_⟩, fun va => ?_⟩
  · rw [← ht]; exact allocatorOk_congr (s := s) rfl rfl rfl al
  · rintro ⟨x, hx⟩
    rw [nothing va] at hx
    cases hx

/-- Settles O39: the zeroed root maps nothing, each command adds its region, and `ENABLE` writes no memory. -/
theorem postActivationContract : Obligations.PostActivationContract := by
  intro s t u w rs h hp al e run enabled _ va
  obtain ⟨start, nothing⟩ := exec_rootz_atWork h hp al e
  obtain ⟨work, mapped⟩ := populates_mapped run start
  obtain rfl := Host.Outcome.next.inj (enabled.symm.trans (exec_enable work.populating))
  simp only [State.setPhase_mem, State.setPhase_cfg, writeCr3_mem, writeCr3_cfg]
  constructor
  · exact fun cover => (mapped va).2 (.inr cover)
  · intro out
    refine notMapped_of_not_mapped work.tables fun hm => ?_
    obtain before | ⟨r, hr, cover⟩ := (mapped va).1 hm
    · exact nothing va before
    · exact out r hr cover

end Sys2Proof.Laws
end

section
/-! SUPPORT. A command run step by step ends as the command run at once: going on after a step is going on before it
(rule R35, log entry 9). -/

namespace Sys2Proof.Laws
open Sys2Proof.Machine

/-! The point a command was held at is not seen by what goes on from there. -/

theorem walkFinish_suspend (s : State) (k : Task) (w : WalkJob) : walkFinish (s.suspend k) w = walkFinish s w := by
  rw [walkFinish, resolveFrom_changed (unseen_suspend k)]
  exact finish_suspend k _ _ _ fun _ _ => rfl

theorem mapDone_suspend (s : State) (k : Task) (m : MapJob) : mapDone (s.suspend k) m = mapDone s m := by
  rw [mapDone_eq, mapDone_eq]; rfl

theorem mapFinish_suspend (s : State) (k : Task) (m : MapJob) : mapFinish (s.suspend k) m = mapFinish s m := by
  rw [mapFinish, mapPages_changed (unseen_suspend k)]
  exact finish_suspend k _ _ _ fun _ _ => by rw [mapDone_suspend]

/-! Running on from a point. -/

theorem runOn_suspend_walk {s : State} (hb : s.seq.isSome = true) (w : WalkJob) :
    runOn (s.suspend (.walk w)) = walkFinish s w := by
  obtain ⟨j, hj⟩ := Option.isSome_iff_exists.1 hb
  rw [← walkFinish_suspend s (.walk w) w]
  simp [runOn, State.suspend, hj]

theorem runOn_suspend_map {s : State} (hb : s.seq.isSome = true) (m : MapJob) :
    runOn (s.suspend (.map m)) = mapFinish s m := by
  obtain ⟨j, hj⟩ := Option.isSome_iff_exists.1 hb
  rw [← mapFinish_suspend s (.map m) m]
  simp [runOn, State.suspend, hj]

theorem runOn_suspend_rootz {s : State} (hb : s.seq.isSome = true) (k : Nat) :
    runOn (s.suspend (.rootz k)) = rootzFinish s k := by
  obtain ⟨j, hj⟩ := Option.isSome_iff_exists.1 hb
  have unseen : rootzFinish (s.suspend (.rootz k)) k = rootzFinish s k := rfl
  rw [← unseen]
  simp [runOn, State.suspend, hj]

/-! What a step leaves to go on from. -/

/-- From where the step with the result `r` leaves off, the command ends as `rest` says. -/
def CarriesOn (r rest : Result) : Prop := ∀ t, r = .next t → runOn t = rest

theorem CarriesOn.ended {t : State} (h : t.seq = none) : CarriesOn (.next t) (.next t) := by
  rintro _ ⟨⟩
  exact runOn_idle h

theorem CarriesOn.of_runOn {t : State} {rest : Result} (h : runOn t = rest) : CarriesOn (.next t) rest := by
  rintro _ ⟨⟩
  exact h

theorem CarriesOn.fault (f : Fault) (rest : Result) : CarriesOn (.fault f) rest := by
  rintro _ ⟨⟩

theorem Run_finish_bind {ω ω' α β : Type} (r : Run ω α) (h : ω → ω') (k : State → α → Run ω' β) (hold : ω' → Task)
    (k' : State → β → Result) :
    (r.bind h k).finish hold k' = r.finish (fun w => hold (h w)) fun s a => (k s a).finish hold k' := by
  cases r <;> rfl

/-- A part of a running command carries on when what follows it does, and when a wait in it is met again. -/
theorem CarriesOn.finish {ω α : Type} {s : State} {r : Run ω α} {hold : ω → Task} {k k' : State → α → Result}
    (hb : s.seq.isSome = true) (hr : Ends (onlyTables s) r)
    (hk : ∀ s' a, s'.seq.isSome = true → CarriesOn (k s' a) (k' s' a))
    (hw : ∀ s' w, r = .wait s' w → runOn (s'.suspend (hold w)) = r.finish hold k') :
    CarriesOn (r.finish hold k) (r.finish hold k') := by
  cases r with
  | ok s' a => exact hk s' a (by rw [onlyTables_seq hr]; exact hb)
  | raise s' f info => exact .ended rfl
  | wait s' w => exact .of_runOn (hw s' w rfl)
  | stop f => exact .fault f _

/-! The walker. -/

/-- A wait of the walker changes nothing and holds the same request. -/
theorem walkTick_wait {s s' : State} {w w' : WalkJob} (h : walkTick s w = .wait s' w') : s' = s ∧ w' = w := by
  unfold walkTick at h
  split at h
  · unfold memRead at h
    split at h
    · simp only [Run_bind_ok] at h
      split at h <;> cases h
    · cases h
  · split at h
    · cases h; exact ⟨rfl, rfl⟩
    · unfold walkAnswer at h
      split at h
      · cases h
      · split at h <;> cases h
  · split at h
    · unfold memZero at h
      split at h <;> cases h
    · cases h
  · unfold walkInstall memWrite at h
    split at h <;> cases h

/-- `WALK` after one step of its walker. -/
theorem walkFinish_step (s : State) (w : WalkJob) :
    walkFinish s w = (walkTick s w).finish .walk fun s n =>
      match n with
      | .more w => walkFinish s w
      | .done t => walkDone s t := by
  rw [walkFinish, resolveFrom_walkTick, Run_finish_bind]
  congr
  funext s n
  cases n <;> rfl

theorem walkCommandTick_carriesOn {s : State} (hb : s.seq.isSome = true) (w : WalkJob) :
    CarriesOn (walkCommandTick s w) (walkFinish s w) := by
  rw [walkCommandTick, walkFinish_step]
  refine .finish hb (walkTick_only w (onlyTables_refl s)) (fun s' n hb' => ?_) fun s' w' wait => ?_
  · cases n with
    | more w => exact .of_runOn (runOn_suspend_walk hb' w)
    | done t => exact .ended rfl
  · obtain ⟨rfl, rfl⟩ := walkTick_wait wait
    rw [runOn_suspend_walk hb, walkFinish_step]

/-! The mapper. -/

/-- A page that stands in a walker call is that call, then the page from the point after it. -/
theorem pageFinish_walking (s : State) {m : MapJob} {l : WalkLevel} {w : WalkJob} (hp : m.point = .walking l w) :
    pageFinish s m = walkThen s m l w fun s t => pageFinish s (pageAfterWalk m l t) := by
  unfold pageFinish
  rw [hp]
  cases l <;> rfl

/-- A mapping command after one step of the walker in its page. -/
theorem mapFinish_walking {s : State} {m : MapJob} {l : WalkLevel} {w : WalkJob} (hi : m.i < m.pages)
    (hp : m.point = .walking l w) :
    mapFinish s m = (walkTick s w).finish (fun w => .map { m with point := .walking l w }) fun s n =>
      match n with
      | .more w => mapFinish s { m with point := .walking l w }
      | .done t => mapFinish s (pageAfterWalk m l t) := by
  obtain ⟨r, hr⟩ := Nat.exists_eq_add_of_lt (Nat.sub_pos_of_lt hi)
  have pages (s : State) (m' : MapJob) (h : m'.pages - m'.i = m.pages - m.i) :
      mapFinish s m' = ((pageFinish s m').bind id fun s _ => mapPages r s (m'.atPage s.cfg (m'.i + 1))).finish .map
        fun s _ => .next (mapDone s m') := by
    rw [mapFinish, h, hr, Nat.zero_add]
    rfl
  rw [pages s m rfl, pageFinish_walking s hp, walkThen, resolveFrom_walkTick, Run_bind_assoc, Run_bind_assoc,
    Run_finish_bind]
  congr
  funext s n
  cases n with
  | more w =>
    change _ = mapFinish s { m with point := .walking l w }
    rw [pages s { m with point := .walking l w } rfl, pageFinish_walking s rfl, walkThen, Run_bind_assoc]
    rfl
  | done t =>
    change _ = mapFinish s (pageAfterWalk m l t)
    rw [pages s (pageAfterWalk m l t) (by cases l <;> rfl)]
    cases l <;> rfl

/-- A mapping command after the leaf write of its page. -/
theorem mapFinish_leaf {s : State} {m : MapJob} {pt : PA} (hi : m.i < m.pages) (hp : m.point = .leaf pt) :
    mapFinish s m = (leafWrite s m pt).finish .map fun s _ =>
      if m.i + 1 < m.pages then mapFinish s (m.atPage s.cfg (m.i + 1)) else .next (mapDone s m) := by
  obtain ⟨r, hr⟩ := Nat.exists_eq_add_of_lt (Nat.sub_pos_of_lt hi)
  rw [mapFinish, hr, Nat.zero_add, mapPages, pageFinish, hp, Run_finish_bind]
  congr
  funext s _
  split
  · have rest : (m.atPage s.cfg (m.i + 1)).pages - (m.atPage s.cfg (m.i + 1)).i = r := by
      change m.pages - (m.i + 1) = r
      omega
    rw [mapFinish, rest]
    rfl
  · obtain rfl : r = 0 := by omega
    rfl

theorem mapFinish_done {s : State} {m : MapJob} (h : m.pages ≤ m.i) : mapFinish s m = .next (mapDone s m) := by
  rw [mapFinish, Nat.sub_eq_zero_of_le h]
  rfl

theorem leafWrite_ne_wait (s s' : State) (m w : MapJob) (pt : PA) : leafWrite s m pt ≠ .wait s' w := by
  unfold leafWrite memWrite
  split <;> exact fun h => by cases h

theorem mapTick_carriesOn {s : State} (hb : s.seq.isSome = true) (m : MapJob) :
    CarriesOn (mapTick s m) (mapFinish s m) := by
  unfold mapTick
  split
  · rename_i hi
    split
    · rename_i l w hp
      rw [mapFinish_walking hi hp]
      refine .finish hb (walkTick_only w (onlyTables_refl s)) (fun s' n hb' => ?_) fun s' w' wait => ?_
      · cases n with
        | more w => exact .of_runOn (runOn_suspend_map hb' _)
        | done t => exact .of_runOn (runOn_suspend_map hb' _)
      · obtain ⟨rfl, rfl⟩ := walkTick_wait wait
        rw [runOn_suspend_map hb, ← mapFinish_walking hi hp, ← hp]
    · rename_i pt hp
      rw [mapFinish_leaf hi hp]
      refine .finish hb (leafWrite_only m pt (onlyTables_refl s)) (fun s' _ hb' => ?_) fun s' w wait => ?_
      · split
        · exact .of_runOn (runOn_suspend_map hb' _)
        · exact .ended (by rw [mapDone_eq])
      · exact absurd wait (leafWrite_ne_wait s s' m w pt)
  · rw [mapFinish_done (by omega)]
    exact .ended (by rw [mapDone_eq])

/-! `ROOTZ`. -/

theorem rootzFinish_step {s : State} {k : Nat} (hk : k < 512) :
    rootzFinish s k =
      rootzFinish (s.setMem (s.mem.zeroEntries ((rootBase s.cfg).toNat + 8 * k) 1)) (k + 1) := by
  have rest : 512 - k = 512 - (k + 1) + 1 := by omega
  have next : (rootBase s.cfg).toNat + 8 * k + 8 = (rootBase s.cfg).toNat + 8 * (k + 1) := by omega
  rw [rootzFinish, rest, zeroEntries_succ, next]
  rfl

theorem rootzFinish_done {s : State} {k : Nat} (hk : 512 ≤ k) : rootzFinish s k = .next (rootzDone s) := by
  rw [rootzFinish, Nat.sub_eq_zero_of_le hk]
  rfl

theorem rootzTick_carriesOn {s : State} (hb : s.seq.isSome = true) (k : Nat) :
    CarriesOn (rootzTick s k) (rootzFinish s k) := by
  unfold rootzTick
  split
  · rename_i hk
    rw [rootzFinish_step hk]
    split
    · exact .of_runOn (runOn_suspend_rootz (by rw [State.setMem_seq]; exact hb) (k + 1))
    · rw [rootzFinish_done (by omega)]
      exact .ended rfl
  · rename_i hk
    rw [rootzFinish_done (by omega)]
    exact .ended rfl

/-! The first step of a command: its checks. -/

theorem walkChecked_carriesOn {a : Args} {s : State} {k k' : WalkJob → Result} (h : ∀ w, CarriesOn (k w) (k' w)) :
    CarriesOn (walkChecked a s k) (walkChecked a s k') := by
  unfold walkChecked
  split
  · split
    · exact h _
    · exact .ended rfl
  · exact .ended rfl

theorem mapChecked_carriesOn {s : State} {v : VA} {p : PA} {n : Nat} {res : Option Word} {k k' : MapJob → Result}
    (h : ∀ m : MapJob, m.i = 0 → CarriesOn (k m) (k' m)) :
    CarriesOn (mapChecked s v p n res k) (mapChecked s v p n res k') := by
  unfold mapChecked
  split
  · split
    · exact h _ rfl
    · exact .ended rfl
  · exact .ended rfl

theorem descChecked_carriesOn {a : Args} {s : State} {k k' : Result} (h : CarriesOn k k') :
    CarriesOn (descChecked a s k) (descChecked a s k') := by
  unfold descChecked
  split
  · exact h
  · exact .ended rfl

theorem enterMap_carriesOn {s : State} (hb : s.seq.isSome = true) {m : MapJob} (h0 : m.i = 0) :
    CarriesOn (enterMap s m) (mapFinish s m) := by
  unfold enterMap
  split
  · exact .of_runOn (runOn_suspend_map hb m)
  · have none : m.pages - m.i = 0 := by omega
    have done : mapFinish s m = .next (mapDone s m) := by rw [mapFinish, none]; rfl
    rw [done]
    exact .ended (by rw [mapDone_eq])

theorem startTick_carriesOn {s : State} (hb : s.seq.isSome = true) (i : Instr) (a : Args) :
    CarriesOn (startTick i a s) (bodyOf i a s) := by
  have region (v : VA) (p : PA) (n : Nat) (res : Option Word) :
      CarriesOn (mapChecked s v p n res (enterMap s)) (mapRegion s v p n res) :=
    mapChecked_carriesOn fun _ => enterMap_carriesOn hb
  cases i with
  | walk => exact walkChecked_carriesOn fun w => .of_runOn (runOn_suspend_walk hb w)
  | map => exact region _ _ _ _
  | mapdesc => exact descChecked_carriesOn (region _ _ _ _)
  | mapfb => exact region _ _ _ _
  | rootz => exact .of_runOn (runOn_suspend_rootz hb 0)
  | adec => exact .ended rfl
  | pinit => exact .ended rfl
  | pframe => exact .ended rfl
  | ppres => exact .ended rfl
  | enable => exact .ended rfl
  | pget =>
    simp only [startTick, bodyOf, bodyPget]
    split <;> exact .ended rfl
  | pset =>
    simp only [startTick, bodyOf, bodyPset]
    split
    · exact .ended rfl
    · split <;> exact .ended rfl
  | einit =>
    simp only [startTick, bodyOf, bodyEinit, memWrite]
    split
    · split
      · exact .ended rfl
      · exact .fault _ _
    · exact .ended rfl

theorem tick_carriesOn (s : State) : CarriesOn (tick s) (runOn s) := by
  cases hs : s.seq with
  | none =>
    rw [tick_idle hs, runOn_idle hs]
    exact .ended hs
  | some j =>
    have hb : s.seq.isSome = true := by rw [hs]; rfl
    obtain ⟨i, a, task⟩ := j
    simp only [tick, runOn, hs]
    cases task with
    | start => exact startTick_carriesOn hb i a
    | walk w => exact walkCommandTick_carriesOn hb w
    | map m => exact mapTick_carriesOn hb m
    | rootz k => exact rootzTick_carriesOn hb k

/-- Settles O48: every step carries on to where the command ends, and the issue alone leaves the command at its start. -/
theorem stepByStepEqualsAtomic : Obligations.StepByStepEqualsAtomic := by
  refine ⟨fun s t e => tick_carriesOn s t e, fun s t i h e => ?_⟩
  rw [accept] at e
  by_cases ha : admits i s.phase = true
  · rw [issue_admitted h.1 h.2 ha] at e
    rw [exec_of_admitted h ha]
    cases e
    rfl
  · have ha := Bool.eq_false_iff.2 ha
    rw [issue_refused_phase h.1 h.2 ha] at e
    rw [exec_refused_phase h ha]
    cases e
    exact runOn_idle rfl

end Sys2Proof.Laws
end

section
/-! SUPPORT. The invariant: what each update of the state asks for to keep it, and that every command and every input does
(rule R25 to rule R29, rule R32, rule R35, rule R221). -/

namespace Sys2Proof.Laws
open Sys2Proof.Machine

/-! Predicates that every part of the walker and the mapper keeps, and what a part answers or holds while it waits. -/

/-- What a store of the block, a count of a table and an answer taken from the allocator keep. -/
structure Kept (P : State → Prop) : Prop where
  write : ∀ {s : State} {a : Nat} (v : Word), P s → backed64 s.cfg a = true → P (s.setMem (s.mem.write64 a v))
  zero  : ∀ {s : State} {a n : Nat}, P s → (∀ k < n, backed64 s.cfg (a + 8 * k) = true) →
    P (s.setMem (s.mem.zeroEntries a n))
  count : ∀ {s : State}, P s → P s.countTable
  take  : ∀ {s : State} (r : AllocAnswer) (rest : List AllocAnswer), P s → P (s.takeAnswer r rest)

/-- However a part of a command ends, `P` holds of its state; the value it goes on with meets `A`, and what it holds
while it waits meets `W`. -/
def Yields {ω α : Type} (P : State → Prop) (W : ω → Prop) (A : α → Prop) : Run ω α → Prop
  | .ok s a => P s ∧ A a
  | .raise s _ _ => P s
  | .wait s w => P s ∧ W w
  | .stop _ => True

theorem Yields.bind {ω ω' α β : Type} {P : State → Prop} {W : ω → Prop} {W' : ω' → Prop} {A : α → Prop} {B : β → Prop}
    {r : Run ω α} {hold : ω → ω'} {k : State → α → Run ω' β} (h : Yields P W A r) (hw : ∀ w, W w → W' (hold w))
    (hk : ∀ s a, P s → A a → Yields P W' B (k s a)) : Yields P W' B (r.bind hold k) := by
  cases r with
  | ok s a => exact hk s a h.1 h.2
  | raise s f info => exact h
  | wait s w => exact ⟨h.1, hw w h.2⟩
  | stop f => exact trivial

/-- What is asked of the walker's step: a point in its domain, or a frame address. -/
def walkNextOk : WalkNext → Prop
  | .more w => walkOk w
  | .done t => frameOk t = true

theorem memRead_yields {P : State → Prop} {ω : Type} {s : State} (W : ω → Prop) (a : Nat) (h : P s) :
    Yields P W (fun _ => True) (memRead s a) := by
  unfold memRead
  split
  · exact ⟨h, trivial⟩
  · exact trivial

theorem walkAnswer_yields {P : State → Prop} {α : Type} {A : α → Prop} {s : State} {ea : PA} {r : AllocAnswer}
    {k : State → PA → Run WalkJob α} (h : P s) (hk : ∀ f, frameOk f = true → Yields P walkOk A (k s f)) :
    Yields P walkOk A (walkAnswer s ea r k) := by
  cases r with
  | exhausted => exact h
  | frame f =>
    simp only [walkAnswer]
    split
    · exact hk f ‹_›
    · exact h

section
variable {P : State → Prop} (K : Kept P)
include K

theorem memWrite_yields {ω : Type} {s : State} (W : ω → Prop) (a : Nat) (v : Word) (h : P s) :
    Yields P W (fun _ => True) (memWrite s a v) := by
  unfold memWrite
  split
  · exact ⟨K.write v h ‹_›, trivial⟩
  · exact trivial

theorem memZero_yields {ω : Type} {s : State} (W : ω → Prop) (a n : Nat) (h : P s) :
    Yields P W (fun _ => True) (memZero s a n) := by
  unfold memZero
  split
  · exact ⟨K.zero h (firstUnbacked_eq_none_iff.1 ‹_›), trivial⟩
  · exact trivial

theorem walkInstall_yields {s : State} {ea f : PA} (h : P s) (hf : frameOk f = true) :
    Yields P walkOk (frameOk · = true) (walkInstall s ea f) :=
  (memWrite_yields K walkOk _ _ h).bind (fun _ => id) fun _ _ h' _ => ⟨K.count h', hf⟩

theorem walkZero_yields {s : State} {ea f : PA} (k : Nat) (h : P s) (hf : frameOk f = true) :
    Yields P walkOk (frameOk · = true) (walkZero s ea f k) :=
  (memZero_yields K walkOk _ _ h).bind (fun _ => id) fun _ _ h' _ => walkInstall_yields K h' hf

theorem walkAlloc_yields {s : State} {w : WalkJob} (h : P s) (hw : walkOk w) :
    Yields P walkOk (frameOk · = true) (walkAlloc s w) := by
  unfold walkAlloc
  split
  · exact ⟨h, hw.1, hw.2.1, trivial⟩
  · rename_i r s' ha
    obtain ⟨rest, -, rfl⟩ := allocFrame_eq_some_iff.1 ha
    exact walkAnswer_yields (K.take r rest h) fun f hf => walkZero_yields K 0 (K.take r rest h) hf

theorem resolveFrom_yields {s : State} {w : WalkJob} (h : P s) (hw : walkOk w) :
    Yields P walkOk (frameOk · = true) (resolveFrom s w) := by
  obtain ⟨t, j, p⟩ := w
  cases p with
  | readEntry =>
    refine (memRead_yields walkOk _ h).bind (fun _ => id) fun s' e h' _ => ?_
    split
    · exact ⟨h', frameOk_frameAddr e⟩
    · exact walkAlloc_yields K h' hw
  | allocWait => exact walkAlloc_yields K h hw
  | zero f k => exact walkZero_yields K k h hw.2.2.1
  | install f => exact walkInstall_yields K h hw.2.2

theorem walkTick_yields {s : State} {w : WalkJob} (h : P s) (hw : walkOk w) :
    Yields P walkOk walkNextOk (walkTick s w) := by
  obtain ⟨t, j, p⟩ := w
  obtain ⟨ht, hj, hp⟩ := hw
  cases p with
  | readEntry =>
    refine (memRead_yields walkOk _ h).bind (fun _ => id) fun s' e h' _ => ?_
    split
    · exact ⟨h', frameOk_frameAddr e⟩
    · exact ⟨h', ht, hj, trivial⟩
  | allocWait =>
    simp only [walkTick]
    split
    · exact ⟨h, ht, hj, trivial⟩
    · rename_i r s' ha
      obtain ⟨rest, -, rfl⟩ := allocFrame_eq_some_iff.1 ha
      exact walkAnswer_yields (K.take r rest h) fun f hf => ⟨K.take r rest h, ht, hj, hf, by decide⟩
  | zero f k =>
    obtain ⟨hf, hk⟩ := hp
    simp only [walkTick, hk, if_true]
    refine (memZero_yields K walkOk _ _ h).bind (fun _ => id) fun s' _ h' _ => ⟨h', ht, hj, ?_⟩
    by_cases last : k + 1 < 512
    · simp [zeroNext, last, hf]
    · simp [zeroNext, last, hf]
  | install f => exact (walkInstall_yields K h hp).bind (fun _ => id) fun s' t h' ht' => ⟨h', ht'⟩

end

/-! The mapper's points (rule R170). -/

theorem mapOk_walking {m : MapJob} {l : WalkLevel} {w : WalkJob} (h : mapOk m) (hw : walkOk w) :
    mapOk { m with point := .walking l w } := ⟨h.1, h.2.1, h.2.2.1, hw⟩

theorem walkOk_readEntry {t : PA} (ht : frameOk t = true) (va : VA) (l : WalkLevel) :
    walkOk ⟨t, levelIndex va l, .readEntry⟩ := ⟨ht, indexOk_levelIndex va l, trivial⟩

theorem mapOk_pageAfterWalk {m : MapJob} {t : PA} (h : mapOk m) (l : WalkLevel) (ht : frameOk t = true) :
    mapOk (pageAfterWalk m l t) := by
  cases l with
  | pml4 => exact mapOk_walking h (walkOk_readEntry ht _ .pdpt)
  | pdpt => exact mapOk_walking h (walkOk_readEntry ht _ .pd)
  | pd => exact ⟨h.1, h.2.1, h.2.2.1, ht⟩

theorem mapOk_atPage {m : MapJob} {i : Nat} (hv : pageAligned m.vbase.bits = true) (hp : pageAligned m.pbase = true)
    (hi : i < m.pages) (c : Config) : mapOk (m.atPage c i) :=
  ⟨hv, hp, hi, walkOk_readEntry (frameOk_rootBase c) _ .pml4⟩

section
variable {P : State → Prop} (K : Kept P)
include K

theorem leafWrite_yields {s : State} (W : MapJob → Prop) (m : MapJob) (pt : PA) (h : P s) :
    Yields P W (fun _ => True) (leafWrite s m pt) := memWrite_yields K W _ _ h

theorem pageFinish_yields {s : State} {m : MapJob} (h : P s) (hm : mapOk m) :
    Yields P mapOk (fun _ => True) (pageFinish s m) := by
  have call {s : State} {m : MapJob} {l : WalkLevel} {w : WalkJob} (h : P s) (hm : mapOk m) (hp : m.point = .walking l w)
      (rest : ∀ s t, P s → frameOk t = true → Yields P mapOk (fun _ => True) (pageFinish s (pageAfterWalk m l t))) :
      Yields P mapOk (fun _ => True) (pageFinish s m) := by
    have hw : walkOk w := by
      have := hm.2.2.2
      rwa [hp] at this
    rw [pageFinish_walking s hp]
    exact (resolveFrom_yields K h hw).bind (fun _ hw' => mapOk_walking hm hw') rest
  have leaf {s : State} {m : MapJob} {pt : PA} (h : P s) (hp : m.point = .leaf pt) :
      Yields P mapOk (fun _ => True) (pageFinish s m) := by
    rw [pageFinish, hp]
    exact leafWrite_yields K mapOk m pt h
  have pd {s : State} {m : MapJob} {w : WalkJob} (h : P s) (hm : mapOk m) (hp : m.point = .walking .pd w) :
      Yields P mapOk (fun _ => True) (pageFinish s m) := call h hm hp fun _ _ h' _ => leaf h' rfl
  have pdpt {s : State} {m : MapJob} {w : WalkJob} (h : P s) (hm : mapOk m) (hp : m.point = .walking .pdpt w) :
      Yields P mapOk (fun _ => True) (pageFinish s m) :=
    call h hm hp fun _ _ h' ht => pd h' (mapOk_pageAfterWalk hm .pdpt ht) rfl
  cases hp : m.point with
  | leaf pt => exact leaf h hp
  | walking l w =>
    cases l with
    | pd => exact pd h hm hp
    | pdpt => exact pdpt h hm hp
    | pml4 => exact call h hm hp fun _ _ h' ht => pdpt h' (mapOk_pageAfterWalk hm .pml4 ht) rfl

/-- The rest of a region; one of no pages need not stand at a sound point. -/
theorem mapPages_yields (n : Nat) : ∀ {s : State} {m : MapJob}, n ≤ m.pages - m.i → P s → (n ≠ 0 → mapOk m) →
    Yields P mapOk (fun _ => True) (mapPages n s m) := by
  induction n with
  | zero => exact fun _ h _ => ⟨h, trivial⟩
  | succ n ih =>
    intro s m hn h hm
    have hm := hm (Nat.succ_ne_zero n)
    refine (pageFinish_yields K h hm).bind (fun _ => id) fun s' _ h' _ => ih ?_ h' fun h0 => ?_
    · change n ≤ m.pages - (m.i + 1)
      omega
    · exact mapOk_atPage hm.1 hm.2.1 (by omega) s'.cfg

end

/-! The invariant under the updates of the state. -/

theorem EnvironmentOnly.refl (s : State) : EnvironmentOnly s s := rfl

theorem EnvironmentOnly.inv {s t : State} (h : Inv s) (e : EnvironmentOnly s t) (hm : t.mem.wf)
    (ho : t.orphan = true → s.faulted = true) : Inv t := by
  unfold EnvironmentOnly at e
  rw [e]
  exact { h with memory := hm, orphan := ho }

/-- A recorded fault ends whatever ran. -/
theorem inv_raise {s u : State} (h : Inv s) (e : EnvironmentOnly s u) (hm : u.mem.wf) (c : Word) (f : Cause)
    (info : Word) : Inv (u.raise c f info) := by
  unfold EnvironmentOnly at e
  rw [e, State.raise]
  exact { h with
    memory := hm, clean := fun hf => by cases hf
    recorded := fun _ => ⟨rfl, f, rfl⟩, job := fun _ hj => by cases hj
    orphan := fun _ => rfl }

/-- A completed command leaves the sequencer idle. -/
theorem inv_complete {s : State} (h : Inv s) : Inv s.complete :=
  { h with
    recorded := fun hf => ⟨rfl, (h.recorded hf).2⟩
    job := fun _ hj => by cases hj }

theorem inv_setRes0 {s : State} (h : Inv s) (v : Word) : Inv (s.setRes0 v).complete := { inv_complete h with }

theorem inv_enabled {s : State} {v : Word} (h : Inv s) (hv : v = rootBase s.cfg) :
    Inv ((writeCr3 s v).setPhase .active).complete :=
  { inv_complete h with
    cr3 := by simp [hv]
    paging := fun _ => hv
    job := fun _ hj => by cases hj }

/-- The command `i` runs in a state with the invariant. -/
structure Running (i : Instr) (s : State) : Prop where
  inv   : Inv s
  holds : ∃ a k, s.seq = some ⟨i, a, k⟩

theorem Running.not_faulted {i : Instr} {s : State} (h : Running i s) : s.faulted = false := by
  obtain ⟨a, k, hs⟩ := h.holds
  by_contra hf
  rw [(h.inv.recorded (Bool.eq_true_of_not_eq_false hf)).1] at hs
  cases hs

theorem Running.admitted {i : Instr} {s : State} (h : Running i s) : admits i s.phase = true := by
  obtain ⟨a, k, hs⟩ := h.holds
  exact (h.inv.job _ hs).1

theorem wf_zeroed {s : State} {a n : Nat} (h : s.mem.wf) (hb : ∀ k < n, backed64 s.cfg (a + 8 * k) = true) :
    (s.mem.zeroEntries a n).wf := by
  cases n with
  | zero => exact h
  | succ n =>
    have := backed64_lt (hb n (Nat.lt_succ_self n))
    exact wf_zeroEntries h (by omega)

theorem kept_running (i : Instr) : Kept (Running i) where
  write {s a} v h hb := by
    have := backed64_lt hb
    exact ⟨{ h.inv with memory := wf_write64 h.inv.memory v (by omega) }, h.holds⟩
  zero h hb := ⟨{ h.inv with memory := wf_zeroed h.inv.memory hb }, h.holds⟩
  count h := ⟨{ h.inv with }, h.holds⟩
  take r rest h := ⟨{ h.inv with }, h.holds⟩

theorem Running.inv_raiseHere {i : Instr} {s : State} (h : Running i s) (f : Cause) (info : Word) :
    Inv (s.raiseHere f info) := inv_raise h.inv (.refl s) h.inv.memory _ f info

/-- A point that the command `i` may stand at, in every phase that admits it. -/
def PointOk (i : Instr) (k : Task) : Prop := ∀ a p, admits i p = true → jobOk p ⟨i, a, k⟩

theorem Running.inv_suspend {i : Instr} {s : State} (h : Running i s) {k : Task} (hk : PointOk i k) :
    Inv (s.suspend k) := by
  obtain ⟨a, k0, hs⟩ := h.holds
  have seq : (s.suspend k).seq = some ⟨i, a, k⟩ := by rw [State.suspend_seq, hs]; rfl
  exact { h.inv with
    recorded := fun hf => by simp [h.not_faulted] at hf
    job := fun j hj => by
      obtain rfl := Option.some.inj (seq.symm.trans hj)
      exact hk a _ h.admitted }

/-- A part of the running command that meets what is asked of it leaves the invariant. -/
theorem Running.inv_finish {ω α : Type} {i : Instr} {W : ω → Prop} {A : α → Prop} {r : Run ω α} {hold : ω → Task}
    {k : State → α → Result} {t : State} (hr : Yields (Running i) W A r) (hw : ∀ w, W w → PointOk i (hold w))
    (hk : ∀ s a, Running i s → A a → k s a = .next t → Inv t) (e : r.finish hold k = .next t) : Inv t := by
  cases r with
  | ok s a => exact hk s a hr.1 hr.2 e
  | raise s f info => cases e; exact hr.inv_raiseHere f info
  | wait s w => cases e; exact hr.1.inv_suspend (hw w hr.2)
  | stop f => cases e

/-! The commands. -/

theorem pointOk_walk {w : WalkJob} (hw : walkOk w) : PointOk .walk (.walk w) := fun _ _ ha => ⟨ha, rfl, hw⟩

/-- The three mapping commands (rules R171, R190, R191). -/
def Maps (i : Instr) : Prop := i = .map ∨ i = .mapdesc ∨ i = .mapfb

theorem pointOk_map {i : Instr} {m : MapJob} (hi : Maps i) (hm : mapOk m) : PointOk i (.map m) :=
  fun _ _ ha => ⟨ha, hi, hm⟩

theorem Running.inv_mapDone {i : Instr} {s : State} (h : Running i s) (m : MapJob) : Inv (mapDone s m) := by
  rw [mapDone_eq]
  exact { inv_complete h.inv with }

theorem Running.inv_rootzDone {s : State} (h : Running .rootz s) : Inv (rootzDone s) := by
  have hp : s.phase = .uninit := by simpa [admits] using h.admitted
  have hc : s.cr3out = 0 := by simpa [hp] using h.inv.cr3
  rw [rootzDone_eq]
  exact { inv_complete h.inv with
    cr3 := hc, paging := fun hp => by cases hp
    job := fun _ hj => by cases hj }

/-- The root's page is in `PHYS_MEM` (rule R252 point 1). -/
theorem backed_rootEntries {c : Config} {k n : Nat} (h : k + n ≤ 512) :
    ∀ i < n, backed64 c ((rootBase c).toNat + 8 * k + 8 * i) = true := fun i hi =>
  backed64_iff.2 fun b hb => backed_rootPage (by rw [rootBase_toNat]; omega)

section
variable {s t : State} {i : Instr}

theorem Running.inv_rootzFinish {k : Nat} (h : Running .rootz s) (hk : k ≤ 512) (e : rootzFinish s k = .next t) :
    Inv t := by
  cases e
  exact ((kept_running .rootz).zero h (backed_rootEntries (by omega))).inv_rootzDone

theorem Running.inv_walkFinish {w : WalkJob} (h : Running .walk s) (hw : walkOk w)
    (e : walkFinish s w = .next t) : Inv t :=
  Running.inv_finish (resolveFrom_yields (kept_running .walk) h hw) (fun _ => pointOk_walk)
    (fun _ _ h' _ e => by cases e; exact inv_setRes0 h'.inv _) e

theorem Running.inv_walkCommandTick {w : WalkJob} (h : Running .walk s) (hw : walkOk w)
    (e : walkCommandTick s w = .next t) : Inv t := by
  refine Running.inv_finish (walkTick_yields (kept_running .walk) h hw) (fun _ => pointOk_walk)
    (fun s' n h' hn e => ?_) e
  cases n with
  | more w => cases e; exact h'.inv_suspend (pointOk_walk hn)
  | done t => cases e; exact inv_setRes0 h'.inv _

theorem Running.inv_mapFinish {m : MapJob} (hi : Maps i) (h : Running i s) (hm : m.i < m.pages → mapOk m)
    (e : mapFinish s m = .next t) : Inv t :=
  Running.inv_finish (mapPages_yields (kept_running i) _ (Nat.le_refl _) h fun h0 => hm (by omega))
    (fun _ => pointOk_map hi) (fun _ _ h' _ e => by cases e; exact h'.inv_mapDone m) e

theorem Running.inv_mapTick {m : MapJob} (hi : Maps i) (h : Running i s) (hm : mapOk m) (e : mapTick s m = .next t) :
    Inv t := by
  obtain ⟨hv, hp, hlt, point⟩ := id hm
  unfold mapTick at e
  rw [if_pos hlt] at e
  split at e
  · rename_i l w hpoint
    rw [hpoint] at point
    refine Running.inv_finish (walkTick_yields (kept_running i) h point)
      (fun w' hw' => pointOk_map hi (mapOk_walking hm hw')) (fun s' n h' hn e => ?_) e
    cases n with
    | more w' => cases e; exact h'.inv_suspend (pointOk_map hi (mapOk_walking hm hn))
    | done t => cases e; exact h'.inv_suspend (pointOk_map hi (mapOk_pageAfterWalk hm l hn))
  · rename_i pt hpoint
    refine Running.inv_finish (leafWrite_yields (kept_running i) mapOk m pt h) (fun _ => pointOk_map hi)
      (fun s' _ h' _ e => ?_) e
    split at e <;> cases e
    · exact h'.inv_suspend (pointOk_map hi (mapOk_atPage hv hp ‹_› _))
    · exact h'.inv_mapDone m

/-- The checks of a region, and what goes on from them (rule R170). -/
theorem Running.inv_mapChecked {v : VA} {p : PA} {n : Nat} {res : Option Word} {k : MapJob → Result} (h : Running i s)
    (hk : ∀ m : MapJob, m.i = 0 → (m.i < m.pages → mapOk m) → k m = .next t → Inv t)
    (e : mapChecked s v p n res k = .next t) : Inv t := by
  unfold mapChecked at e
  split at e
  · rename_i hv
    split at e
    · rename_i hp
      exact hk _ rfl (fun hlt => mapOk_atPage hv hp hlt s.cfg) e
    · cases e; exact h.inv_raiseHere _ _
  · cases e; exact h.inv_raiseHere _ _

theorem Running.inv_enterMap {m : MapJob} (hi : Maps i) (h : Running i s) (h0 : m.i = 0) (hm : m.i < m.pages → mapOk m)
    (e : enterMap s m = .next t) : Inv t := by
  unfold enterMap at e
  split at e <;> cases e
  · exact h.inv_suspend (pointOk_map hi (hm (by omega)))
  · exact h.inv_mapDone m

theorem Running.inv_walkChecked {a : Args} {k : WalkJob → Result} (h : Running i s)
    (hk : ∀ w, walkOk w → k w = .next t → Inv t) (e : walkChecked a s k = .next t) : Inv t := by
  unfold walkChecked at e
  split at e
  · rename_i ht
    split at e
    · exact hk _ ⟨ht, ‹_›, trivial⟩ e
    · cases e; exact h.inv_raiseHere _ _
  · cases e; exact h.inv_raiseHere _ _

theorem Running.inv_descChecked {a : Args} {k : Result} (h : Running i s) (hk : k = .next t → Inv t)
    (e : descChecked a s k = .next t) : Inv t := by
  unfold descChecked at e
  split at e
  · exact hk e
  · cases e; exact inv_setRes0 h.inv 0

theorem Running.inv_mapRegion {v : VA} {p : PA} {n : Nat} {res : Option Word} (hi : Maps i) (h : Running i s)
    (e : mapRegion s v p n res = .next t) : Inv t :=
  h.inv_mapChecked (fun _ _ hm e => h.inv_mapFinish hi hm e) e

theorem Running.inv_enterRegion {v : VA} {p : PA} {n : Nat} {res : Option Word} (hi : Maps i) (h : Running i s)
    (e : mapChecked s v p n res (enterMap s) = .next t) : Inv t :=
  h.inv_mapChecked (fun _ h0 hm e => h.inv_enterMap hi h0 hm e) e

/-- Every command, run to its end or its wait, keeps the invariant. -/
theorem Running.inv_bodyOf {a : Args} (h : Running i s) (e : bodyOf i a s = .next t) : Inv t := by
  cases i with
  | adec => cases e; exact { inv_complete h.inv with }
  | pinit => cases e; exact inv_setRes0 h.inv _
  | pframe => cases e; exact inv_setRes0 h.inv _
  | ppres => cases e; exact inv_setRes0 h.inv _
  | pget =>
    simp only [bodyOf, bodyPget] at e
    split at e <;> cases e
    · exact h.inv_raiseHere _ _
    · exact inv_setRes0 h.inv _
  | pset =>
    simp only [bodyOf, bodyPset] at e
    split at e
    · cases e; exact h.inv_raiseHere _ _
    · split at e <;> cases e
      · exact inv_setRes0 h.inv _
      · exact h.inv_raiseHere _ _
  | einit =>
    simp only [bodyOf, bodyEinit] at e
    split at e
    · refine Running.inv_finish (W := fun _ => False) (memWrite_yields (kept_running .einit) _ _ _ h)
        (fun _ hw => hw.elim) (fun s' _ h' _ e => ?_) e
      cases e; exact inv_complete h'.inv
    · cases e; exact h.inv_raiseHere _ _
  | walk => exact h.inv_walkChecked (fun _ hw e => h.inv_walkFinish hw e) e
  | map => exact h.inv_mapRegion (.inl rfl) e
  | mapdesc => exact h.inv_descChecked (h.inv_mapRegion (.inr (.inl rfl))) e
  | mapfb => exact h.inv_mapRegion (.inr (.inr rfl)) e
  | rootz => exact h.inv_rootzFinish (k := 0) (Nat.zero_le 512) e
  | enable =>
    cases e
    exact inv_enabled h.inv rfl

theorem Running.inv_startTick {a : Args} (h : Running i s) (e : startTick i a s = .next t) : Inv t := by
  cases i with
  | walk =>
    simp only [startTick] at e
    exact h.inv_walkChecked (fun _ hw e => by cases e; exact h.inv_suspend (pointOk_walk hw)) e
  | map => exact h.inv_enterRegion (.inl rfl) e
  | mapdesc => exact h.inv_descChecked (h.inv_enterRegion (.inr (.inl rfl))) e
  | mapfb => exact h.inv_enterRegion (.inr (.inr rfl)) e
  | rootz => cases e; exact h.inv_suspend fun _ _ ha => ⟨ha, rfl, by decide⟩
  | _ => exact h.inv_bodyOf (a := a) e

theorem Running.inv_rootzTick {k : Nat} (h : Running .rootz s) (hk : k < 512) (e : rootzTick s k = .next t) : Inv t := by
  have h' : Running .rootz (s.setMem (s.mem.zeroEntries ((rootBase s.cfg).toNat + 8 * k) 1)) :=
    (kept_running .rootz).zero h (backed_rootEntries (by omega))
  unfold rootzTick at e
  rw [if_pos hk] at e
  split at e <;> cases e
  · exact h'.inv_suspend fun _ _ ha => ⟨ha, rfl, ‹_›⟩
  · exact h'.inv_rootzDone

end

/-! The sequencer's moves. -/

theorem running_of_seq {s : State} {j : Job} (h : Inv s) (hs : s.seq = some j) : Running j.instr s :=
  ⟨h, j.args, j.task, hs⟩

theorem inv_tick {s t : State} (h : Inv s) (e : tick s = .next t) : Inv t := by
  cases hs : s.seq with
  | none => rw [tick_idle hs] at e; cases e; exact h
  | some j =>
    have run := running_of_seq h hs
    obtain ⟨-, ok⟩ := h.job j hs
    obtain ⟨i, a, task⟩ := j
    simp only [tick, hs] at e
    cases task with
    | start => exact run.inv_startTick e
    | walk w => obtain ⟨rfl, hw⟩ := ok; exact run.inv_walkCommandTick hw e
    | map m => obtain ⟨hi, hm⟩ := ok; exact run.inv_mapTick hi hm e
    | rootz k => obtain ⟨rfl, hk⟩ := ok; exact run.inv_rootzTick hk e

theorem inv_runOn {s t : State} (h : Inv s) (e : runOn s = .next t) : Inv t := by
  cases hs : s.seq with
  | none => rw [runOn_idle hs] at e; cases e; exact h
  | some j =>
    have run := running_of_seq h hs
    obtain ⟨-, ok⟩ := h.job j hs
    obtain ⟨i, a, task⟩ := j
    simp only [runOn, hs] at e
    cases task with
    | start => exact run.inv_bodyOf e
    | walk w => obtain ⟨rfl, hw⟩ := ok; exact run.inv_walkFinish hw e
    | map m => obtain ⟨hi, hm⟩ := ok; exact run.inv_mapFinish hi (fun _ => hm) e
    | rootz k => obtain ⟨rfl, hk⟩ := ok; exact run.inv_rootzFinish (Nat.le_of_lt hk) e

/-! Issuing a command. -/

theorem inv_interrupt {s : State} (h : Inv s) (c : Word) : Inv (s.interrupt c) :=
  inv_raise h (environmentOnly_leaveRequest s) (by rw [State.leaveRequest_mem]; exact h.memory) c _ _

theorem inv_latch {s : State} {i : Instr} (h : Inv s) (hf : s.faulted = false) (ha : admits i s.phase = true) :
    Running i (s.latch i) where
  inv := { h with
    recorded := fun hf' => by rw [State.latch_faulted, hf] at hf'; cases hf'
    job := fun j hj => by cases hj; exact ⟨ha, trivial⟩ }
  holds := ⟨_, _, rfl⟩

theorem inv_issue {s t : State} {i : Instr} {body : Args → State → Result} (h : Inv s)
    (hbody : Running i (s.latch i) → body s.latchArgs (s.latch i) = .next t → Inv t) (e : issue i body s = .next t) :
    Inv t := by
  obtain ⟨-, r⟩ | ⟨-, -, r⟩ | ⟨-, -, -, r⟩ | ⟨hf, -, ha, r⟩ := issue_cases i body s <;> rw [r] at e
  · cases e; exact h
  · cases e; exact inv_interrupt h _
  · cases e; exact inv_raise h (.refl s) h.memory _ _ _
  · exact hbody (inv_latch h hf ha) e

theorem inv_issueIllegal {s : State} (h : Inv s) (c : Word) : Inv (issueIllegal c s) := by
  unfold issueIllegal
  split
  · exact h
  · split
    · exact inv_interrupt h c
    · exact inv_raise h (.refl s) h.memory c _ c

theorem inv_commandWrite {s t : State} {c : Word} (h : Inv s) (e : commandWrite c s = .next t) : Inv t := by
  unfold commandWrite at e
  split at e
  · rw [exec_eq_issue] at e
    exact inv_issue h (fun run e => run.inv_bodyOf e) e
  · cases e; exact inv_issueIllegal h c

theorem inv_commandAccept {s t : State} {c : Word} (h : Inv s) (e : commandAccept c s = .next t) : Inv t := by
  unfold commandAccept at e
  split at e
  · exact inv_issue h (fun run e => by cases e; exact run.inv) e
  · cases e; exact inv_issueIllegal h c

/-! The environment's inputs. -/

theorem inv_plainAccess {s : State} (h : Inv s) (r : HostReg) (op : HostOp) : Inv (plainAccess s r op) := by
  cases op with
  | read => exact { h with }
  | write v =>
    exact (environmentOnly_plainAccess s r (.write v)).inv h (by rw [plainAccess, writeReg_mem]; exact h.memory)
      (by rw [plainAccess, writeReg_orphan]; exact h.orphan)

theorem inv_hostStep {a : HostAccess} {s t : State} (h : Inv s) (e : hostStep a s = .next t) : Inv t := by
  unfold hostStep at e
  split at e
  · split at e
    · exact inv_commandWrite h e
    · cases e; exact inv_plainAccess h _ _
  · cases e

theorem inv_waitStep {s t : State} (h : Inv s) (e : waitStep s = .next t) : Inv t := by
  obtain ⟨-, e⟩ | ⟨-, rfl⟩ := waitStep_next e
  · exact inv_tick ((environmentOnly_poll s s.statusWord (.wait :: s.inputs)).inv h h.memory h.orphan) e
  · exact { h with }

theorem inv_answerStep {s : State} (h : Inv s) (r : AllocAnswer) : Inv (answerStep r s) := by
  unfold answerStep
  split
  · exact { h with orphan := fun ho => by rw [answerOrphan_orphan] at ho; cases ho }
  · split
    · exact { h with }
    · exact h

/-- The entries on a walk are entries of frames. -/
theorem entry_of_mem_walkPath {m : Memory} {js : List (BitVec 9)} {a : Nat} : ∀ {t : PA}, frameOk t = true →
    a ∈ walkPath m js t → ∃ t' j, frameOk t' = true ∧ a = entryAt t' j := by
  induction js with
  | nil => intro t _ ha; cases ha
  | cons j js ih =>
    intro t ht ha
    simp only [walkPath] at ha
    split at ha
    · obtain rfl | ha := List.mem_cons.1 ha
      · exact ⟨t, j, ht, rfl⟩
      · exact ih (frameOk_frameAddr _) ha
    · exact ⟨t, j, ht, List.mem_singleton.1 ha⟩

theorem wf_touchEntries {writes : Bool} {setA : BitVec 4} {setD : Bool} {as : List Nat}
    (ha : ∀ a ∈ as, ∃ t j, frameOk t = true ∧ a = entryAt t j) : ∀ {m : Memory} (k : Nat), m.wf →
    (touchEntries writes setA setD k as m).wf := by
  induction as with
  | nil => exact fun _ h => h
  | cons a as ih =>
    intro m k h
    obtain ⟨t, j, ht, rfl⟩ := ha a List.mem_cons_self
    have inside := entryAt_inside (j := j) ht
    have below := (frameOk_iff.1 ht).2
    exact ih (fun b hb => ha b (List.mem_cons_of_mem _ hb)) (k + 1) (wf_write64 h _ (by omega))

theorem inv_cpuWalk {s t : State} {va : VA} {writes : Bool} {setA : BitVec 4} {setD : Bool} (h : Inv s)
    (e : cpuWalk va writes setA setD s = .next t) : Inv t := by
  unfold cpuWalk at e
  split at e <;> cases e
  exact { h with
    memory := wf_touchEntries (fun _ => entry_of_mem_walkPath (frameOk_rootBase s.cfg)) 0 h.memory }

theorem inv_cpuTouchStep {s t : State} {va : VA} {writes : Bool} {setA : BitVec 4} {setD : Bool} (h : Inv s)
    (e : cpuTouchStep va writes setA setD s = .next t) : Inv t := by
  unfold cpuTouchStep at e
  split at e
  · exact inv_cpuWalk h e
  · cases e
  · split at e
    · exact inv_cpuWalk h e
    · cases e

theorem inv_agentStoreStep {s t : State} {a : Nat} {bytes : List Byte} (h : Inv s)
    (e : agentStoreStep a bytes s = .next t) : Inv t := by
  unfold agentStoreStep at e
  split at e
  · cases e
  · split at e <;> cases e
    exact { h with memory := wf_writeBytes h.memory (by omega) }

theorem inv_agentLoadStep {s t : State} {a : Nat} (h : Inv s) (e : agentLoadStep a s = .next t) : Inv t := by
  unfold agentLoadStep at e
  split at e
  · cases e
  · split at e <;> cases e
    exact { h with }

theorem inv_resetBlock {s : State} (h : s.mem.wf) : Inv (resetBlock s) where
  memory := h
  clean _ := ⟨rfl, rfl, rfl⟩
  recorded hf := by cases hf
  cr3 := rfl
  paging hp := by cases hp
  job _ hj := by cases hj
  orphan ho := by cases ho

/-- Settles O41: at reset no byte has been written, no command runs and no fault is recorded. -/
theorem invariantAtReset : Obligations.InvariantAtReset where
  memory := ⟨.nil, by simp [State.reset]⟩
  clean _ := ⟨rfl, rfl, rfl⟩
  recorded hf := by cases hf
  cr3 := rfl
  paging hp := by cases hp
  job _ hj := by cases hj
  orphan ho := by cases ho

/-- Settles O42: each input keeps the invariant; those that move the sequencer do because every command does, at once
and step by step. -/
theorem stepKeepsInvariant : Obligations.StepKeepsInvariant := by
  intro s t h e
  unfold step nextInput at e
  split at e
  · cases e; exact h
  · rename_i x rest _
    have h' : Inv (s.setInputs rest) := { h with }
    cases x with
    | host a => exact inv_hostStep h' e
    | issue c => exact inv_commandAccept h' e
    | tick => exact inv_tick h' e
    | run => exact inv_runOn h' e
    | wait => exact inv_waitStep h' e
    | answer r => cases e; exact inv_answerStep h' r
    | cpuTouch va writes setA setD => exact inv_cpuTouchStep h' e
    | agentStore a bytes => exact inv_agentStoreStep h' e
    | agentLoad a => exact inv_agentLoadStep h' e
    | reset => cases e; exact inv_resetBlock h.memory

end Sys2Proof.Laws
end

section
/-! SUPPORT. `EINIT` and `WALK`: one entry written in place, and the walker's answers, faults, waits and steps (rule R130,
rule R151 to rule R153). -/

namespace Sys2Proof.Laws
open Sys2Proof.Machine

/-! `EINIT` (rule R130). -/

theorem entryAddrOk_iff {a : Word} : entryAddrOk a = true ↔ a.toNat % 8 = 0 ∧ a.toNat < 2 ^ 52 := by
  have low : (a.extractLsb' 0 3).toNat = a.toNat % 8 := by simp [BitVec.extractLsb'_toNat]
  simp only [entryAddrOk, belowLimit, Bool.and_eq_true, beq_iff_eq, decide_eq_true_eq, ← BitVec.toNat_inj, low]
  simp

theorem exec_einit {s : State} (h : s.Populating) (ha : entryAddrOk s.arg0 = true) :
    exec .einit s = (memWrite (ω := Task) (s.latch .einit) s.arg0.toNat (initWord s.arg1)).finish id
      fun s _ => .next s.complete :=
  (exec_populating h rfl).trans (if_pos ha)

theorem backed64_eq_false_iff {c : Config} {a : Nat} : backed64 c a = false ↔ ∃ k < 8, backed c (a + k) = false := by
  rw [← Bool.not_eq_true, backed64_iff]
  simp

/-- Settles O14: `EINIT` checks its address, then makes one store through the memory port. -/
theorem einitWritesOneEntry : Obligations.EinitWritesOneEntry := by
  intro s h
  refine ⟨fun hal hlt hb => ?_, fun bad => ?_, fun hal hlt hb => ?_⟩
  · refine ⟨s.mem.write64 s.arg0.toNat (initWord s.arg1), ?_, ?_, fun a => byte_write64_other⟩
    · rw [exec_einit h (entryAddrOk_iff.2 ⟨hal, hlt⟩), memWrite_backed (s := s.latch .einit) (backed64_iff.2 hb), Run_finish_ok]
      exact congrArg (fun s' => Host.Outcome.next (s'.setMem (s.mem.write64 s.arg0.toNat (initWord s.arg1))))
        (State.latch_complete h.1.2 .einit)
    · rw [read64_write64_same, initWord_eq_and_or]
  · refine exec_of_body_raises (f := .badOperand) h.1 (by rw [h.2]; rfl) (if_neg ?_)
    change ¬ entryAddrOk s.arg0 = true
    rw [entryAddrOk_iff]
    omega
  · rw [exec_einit h (entryAddrOk_iff.2 ⟨hal, hlt⟩), memWrite_unbacked (s := s.latch .einit) (backed64_eq_false_iff.2 hb),
      Run_finish_stop]

/-! `WALK` (rule R152). -/

theorem exec_walk {s : State} (h : s.Populating) (ht : frameOk s.arg0 = true) (hj : indexOk s.arg1 = true) :
    exec .walk s = (resolveNext (s.latch .walk) s.arg0 s.arg1).finish .walk walkDone :=
  (exec_populating h rfl).trans ((if_pos ht).trans (if_pos hj))

/-- On an empty entry the walker turns to the allocator (rule R151 step 3). -/
theorem resolveNext_empty {s : State} {t : PA} {j : Word} (hb : backed64 s.cfg (entryAddr t j).toNat = true)
    (hp : isPresent (s.mem.read64 (entryAddr t j).toNat) = false) :
    resolveNext s t j = walkAlloc s ⟨t, j, .readEntry⟩ := by
  simp [resolveNext, resolveFrom, WalkJob.ea, memRead_backed hb, hp]

theorem walkAlloc_none {s : State} {w : WalkJob} (ha : s.answers = []) :
    walkAlloc s w = .wait s { w with point := .allocWait } := by
  rw [walkAlloc, allocFrame_eq_none_iff.2 ha]

theorem walkAlloc_some {s : State} {w : WalkJob} {r : AllocAnswer} {rest : List AllocAnswer}
    (ha : s.answers = r :: rest) :
    walkAlloc s w = walkAnswer (s.takeAnswer r rest) w.ea r fun s f => walkZero s w.ea f 0 := by
  rw [walkAlloc, allocFrame_eq_some_iff.2 ⟨rest, ha, rfl⟩]

/-- The operands of a `WALK` that passes its checks and whose entry is in `PHYS_MEM`. -/
structure WalkOperands (s : State) : Prop where
  populating : s.Populating
  table      : frameOk s.arg0 = true
  index      : indexOk s.arg1 = true
  inMem      : backed64 s.cfg (entryAddr s.arg0 s.arg1).toNat = true

section
variable {s : State}

theorem walkOperands (h : s.Populating) (hal : s.arg0.toNat % 4096 = 0) (hlt : s.arg0.toNat < 2 ^ 52)
    (hj : s.arg1.toNat ≤ 511) (hb : ∀ k < 8, backed s.cfg (s.arg0.toNat + 8 * s.arg1.toNat + k) = true) :
    WalkOperands s ∧ (entryAddr s.arg0 s.arg1).toNat = s.arg0.toNat + 8 * s.arg1.toNat := by
  have table : frameOk s.arg0 = true := frameOk_iff.2 ⟨hal, hlt⟩
  have index : indexOk s.arg1 = true := indexOk_iff.2 hj
  have ea := entryAddr_toNat table index
  exact ⟨⟨h, table, index, by rw [ea]; exact backed64_iff.2 hb⟩, ea⟩

theorem WalkOperands.exec_present (h : WalkOperands s)
    (hp : isPresent (s.mem.read64 (entryAddr s.arg0 s.arg1).toNat) = true) :
    exec .walk s = .next (s.setRes0 (frameAddr (s.mem.read64 (entryAddr s.arg0 s.arg1).toNat))) := by
  refine exec_of_body_completes h.populating.1 (by rw [h.populating.2]; rfl) ?_
  rw [← exec_of_admitted h.populating.1 (by rw [h.populating.2]; rfl), exec_walk h.populating h.table h.index,
    resolveNext_present (s := s.latch .walk) h.inMem hp]
  rfl

theorem WalkOperands.exec_empty (h : WalkOperands s)
    (hp : isPresent (s.mem.read64 (entryAddr s.arg0 s.arg1).toNat) = false) :
    exec .walk s = (walkAlloc (s.latch .walk) ⟨s.arg0, s.arg1, .readEntry⟩).finish .walk walkDone := by
  rw [exec_walk h.populating h.table h.index, resolveNext_empty (s := s.latch .walk) h.inMem hp]

theorem WalkOperands.exec_install (h : WalkOperands s)
    (hp : isPresent (s.mem.read64 (entryAddr s.arg0 s.arg1).toNat) = false) {f : PA} {rest : List AllocAnswer}
    (ha : s.answers = .frame f :: rest) (hf : frameOk f = true) (hz : pageBacked s.cfg f) :
    exec .walk s = .next ((installed s (entryAddr s.arg0 s.arg1).toNat f rest).setRes0 f) := by
  rw [exec_walk h.populating h.table h.index,
    resolveNext_install (s := s.latch .walk) h.inMem hp ha hf fun k hk => backed64_page hz hk, Run_finish_ok]
  exact congrArg (fun s => Host.Outcome.next ((installed s _ f rest).setRes0 f))
    (State.latch_complete h.populating.1.2 .walk)

end

/-- Settles O19: a present entry is followed. -/
theorem walkFollowsAPresentEntry : Obligations.WalkFollowsAPresentEntry := by
  intro s h hal hlt hj hb hp
  obtain ⟨ops, ea⟩ := walkOperands h hal hlt hj hb
  rw [← ea] at hp ⊢
  rw [← frameAddr_eq_and]
  exact ops.exec_present hp

/-- The entry written for a frame is the frame with the two flags set (rule R122). -/
theorem initWord_of_frame {f : PA} (hf : frameOk f = true) : initWord f = f ||| 0x3 := by
  rw [initWord_eq_and_or, ← frameAddr_eq_and, ← frameAddr_initWord, frameAddr_initWord_of_frame hf]

/-- Settles O20: the store of the entry comes after the zeroing of the frame, and an entry lies in a frame or outside it. -/
theorem walkInstallsATable : Obligations.WalkInstallsATable := by
  intro s f rest h hal hlt hj ha hfal hflt hb hz hp
  obtain ⟨ops, ea⟩ := walkOperands h hal hlt hj hb
  have hf := frameOk_iff.2 ⟨hfal, hflt⟩
  rw [← ea] at hp ⊢
  refine ⟨(s.mem.zeroEntries f.toNat 512).write64 (entryAddr s.arg0 s.arg1).toNat (initWord f),
    ops.exec_install hp ha hf hz, ?_, fun k hk hne => ?_, fun a hentry hframe => ?_⟩
  · exact (read64_write64_same _ _ _).trans (initWord_of_frame hf)
  · exact (read64_write64_other (by omega)).trans (read64_zeroEntries_same (by omega))
  · exact (byte_write64_other hentry).trans (byte_zeroEntries_other (by omega))

/-- Settles O21: the operand checks come first, and an empty entry's fault is the allocator's answer. -/
theorem walkFaults : Obligations.WalkFaults := by
  intro s h
  have ha : admits .walk s.phase = true := by rw [h.2]; rfl
  refine ⟨fun bad => ?_, fun hal hlt bad => ?_, fun rest hal hlt hj hb hp => ?_⟩
  · have table : ¬ frameOk s.arg0 = true := by rw [frameOk_iff]; omega
    exact exec_of_body_raises (f := .badOperand) h.1 ha (if_neg table)
  · have index : ¬ indexOk s.arg1 = true := by rw [indexOk_iff]; omega
    exact exec_of_body_raises (f := .badOperand) h.1 ha
      ((if_pos (frameOk_iff.2 ⟨hal, hlt⟩)).trans (if_neg index))
  · obtain ⟨ops, ea⟩ := walkOperands h hal hlt hj hb
    rw [← ea] at hp
    refine ⟨fun answer => ?_, fun f answer bad => ?_⟩
    · rw [ops.exec_empty hp, walkAlloc_some (s := s.latch .walk) answer]
      rfl
    · have frame : ¬ frameOk f = true := by rw [frameOk_iff]; omega
      rw [ops.exec_empty hp, walkAlloc_some (s := s.latch .walk) answer, walkAnswer, if_neg frame]
      rfl

/-- An answer to the request a running `WALK` waits with goes to the port. -/
theorem answerStep_waiting {s : State} {w : WalkJob} {r : AllocAnswer} (ho : s.orphan = false) (ha : s.answers = [])
    (hw : w.point = .allocWait) :
    answerStep r ((s.latch .walk).suspend (.walk w)) =
      (({ s with answers := [r] } : State).latch .walk).suspend (.walk w) := by
  obtain ⟨t, j, p⟩ := w
  obtain rfl := hw
  simp [answerStep, ho, ha, awaitsAllocator, State.suspend, State.latch, State.setAnswers, State.latchArgs]

/-- Settles O22: the wait holds the request, and with the answer on the port going on is what the walker would have done
with the answer at once. -/
theorem walkWaitsForTheAllocator : Obligations.WalkWaitsForTheAllocator := by
  intro s r h hal hlt hj hb hp none orphan
  obtain ⟨ops, ea⟩ := walkOperands h hal hlt hj hb
  rw [← ea] at hp
  have ops' : WalkOperands { s with answers := [r] } := ⟨h, ops.table, ops.index, ops.inMem⟩
  refine ⟨(s.latch .walk).suspend (.walk ⟨s.arg0, s.arg1, .allocWait⟩), ?_, rfl, h.1.1, ?_, ?_⟩
  · rw [ops.exec_empty hp, walkAlloc_none (s := s.latch .walk) none]
    rfl
  · exact State.latch_complete h.1.2 .walk
  · rw [answerStep_waiting orphan none rfl, runOn_suspend_walk rfl, ops'.exec_empty hp, walkFinish, resolveFrom,
      walkAlloc_some (r := r) (rest := []) rfl, walkAlloc_some (r := r) (rest := []) rfl]
    rfl

/-! The walker's steps in a running `WALK` (rule R153). -/

theorem suspend_of_seq {s : State} {i : Instr} {a : Args} {k : Task} (hs : s.seq = some ⟨i, a, k⟩) (k' : Task) :
    s.suspend k' = { s with seq := some ⟨i, a, k'⟩ } := by
  rw [State.suspend, hs]
  rfl

/-- A fault of the running command is recorded with its word. -/
theorem raiseHere_of_seq {s : State} {i : Instr} {a : Args} {k : Task} (hs : s.seq = some ⟨i, a, k⟩) (f : Cause)
    (info : Word) : s.raiseHere f info = recorded s f.code (encode i) info := by
  rw [State.raiseHere, State.latchedWord_of_seq hs]
  rfl

section
variable {s : State} {a : Args} {w : WalkJob} (hs : s.seq = some ⟨.walk, a, .walk w⟩)
include hs

/-- A step of the walker to another of its points. -/
theorem tick_walk_more {m : Memory} {w' : WalkJob} (h : walkTick s w = .ok (s.setMem m) (.more w')) :
    tick s = .next { s with mem := m, seq := some ⟨.walk, a, .walk w'⟩ } := by
  simp only [tick, hs, walkCommandTick, h, Run_finish_ok]
  rw [suspend_of_seq (s := s.setMem m) hs]
  rfl

/-- A step of the walker to `DONE`. -/
theorem tick_walk_done {s' : State} {t : PA} (h : walkTick s w = .ok s' (.done t)) :
    tick s = .next (s'.setRes0 t).complete := by
  simp only [tick, hs, walkCommandTick, h, Run_finish_ok, walkDone]

end

theorem zeroNext_eq {f : PA} {k : Nat} (hk : k ≤ 511) :
    zeroNext f k = if k = 511 then .install f else .zero f (k + 1) := by
  unfold zeroNext
  by_cases last : k = 511
  · rw [if_pos last, if_neg (by omega)]
  · rw [if_neg last, if_pos (by omega)]

/-- Settles O23: one step of the walker is one memory access or one answer. -/
theorem walkerStateMachine : Obligations.WalkerStateMachine := by
  intro s a t j
  refine ⟨fun hs hb => ⟨fun hp => ?present, fun hp => ?empty⟩, fun hs => ⟨fun ha => ?waits, fun rest ha => ?exhausted,
    fun f rest ha => ⟨fun hal hlt => ?answered, fun bad => ?badFrame⟩⟩, fun f k hs hk hb => ?zero, fun f hs hb => ?install⟩
  case present =>
    have entry := memRead_backed (ω := WalkJob) (a := (WalkJob.ea ⟨t, j, .readEntry⟩).toNat) (backed64_iff.2 hb)
    have step : walkTick s ⟨t, j, .readEntry⟩ = .ok s (.done (frameAddr (s.mem.read64 (entryAddr t j).toNat))) := by
      simp only [walkTick, entry, Run_bind_ok]
      exact if_pos hp
    rw [tick_walk_done hs step, frameAddr_eq_and]
    rfl
  case empty =>
    have entry := memRead_backed (ω := WalkJob) (a := (WalkJob.ea ⟨t, j, .readEntry⟩).toNat) (backed64_iff.2 hb)
    refine tick_walk_more (m := s.mem) hs ?_
    simp only [walkTick, entry, Run_bind_ok]
    exact if_neg (Bool.eq_false_iff.1 hp)
  case waits =>
    simp only [tick, hs, walkCommandTick, walkTick, allocFrame_eq_none_iff.2 ha, Run_finish_wait]
    rw [suspend_of_seq hs, ← hs]
  case exhausted =>
    simp only [tick, hs, walkCommandTick, walkTick, allocFrame_eq_some_iff.2 ⟨rest, ha, rfl⟩, walkAnswer,
      Run_finish_raise]
    rw [raiseHere_of_seq (s := s.takeAnswer .exhausted rest) hs]
    rfl
  case answered =>
    simp only [tick, hs, walkCommandTick, walkTick, allocFrame_eq_some_iff.2 ⟨rest, ha, rfl⟩, walkAnswer,
      frameOk_iff.2 ⟨hal, hlt⟩, if_true, Run_finish_ok]
    rw [suspend_of_seq (s := s.takeAnswer (.frame f) rest) hs]
    rfl
  case badFrame =>
    have frame : frameOk f = false := by rw [← Bool.not_eq_true, frameOk_iff]; omega
    simp only [tick, hs, walkCommandTick, walkTick, allocFrame_eq_some_iff.2 ⟨rest, ha, rfl⟩, walkAnswer, frame,
      Bool.false_eq_true, if_false, Run_finish_raise]
    rw [raiseHere_of_seq (s := s.takeAnswer (.frame f) rest) hs]
    rfl
  case zero =>
    have backed : ∀ i < 1, backed64 s.cfg (f.toNat + 8 * k + 8 * i) = true := fun i hi => by
      obtain rfl := Nat.lt_one_iff.1 hi
      exact backed64_iff.2 hb
    have store := memZero_ok_iff (ω := WalkJob) (u := ()) |>.2 ⟨backed, rfl⟩
    refine ⟨s.mem.zeroEntries (f.toNat + 8 * k) 1, tick_walk_more hs ?_, read64_zeroEntries_same (by omega),
      fun x hx => byte_zeroEntries_other hx⟩
    simp only [walkTick, Nat.lt_succ_of_le hk, if_true, store, Run_bind_ok, zeroNext_eq hk]
  case install =>
    have store := memWrite_backed (ω := WalkJob) (v := initWord f) (a := (WalkJob.ea ⟨t, j, .install f⟩).toNat)
      (backed64_iff.2 hb)
    refine ⟨s.mem.write64 (t + 8 * j).toNat (initWord f), ?_, ?_, fun x => byte_write64_other⟩
    · have step : walkTick s ⟨t, j, .install f⟩ =
          .ok (s.setMem (s.mem.write64 (t + 8 * j).toNat (initWord f))).countTable (.done f) := by
        simp only [walkTick, walkInstall, store, Run_bind_ok]
        rfl
      rw [tick_walk_done hs step]
      rfl
    · rw [read64_write64_same, initWord_eq_and_or]

end Sys2Proof.Laws
end

section
/-! SUPPORT. The mapping commands: their checks, that they complete, and `MAP` of one page over tables that exist and over
an empty entry of the root (rule R170 to rule R174, rule R190, rule R191). -/

namespace Sys2Proof.Laws
open Sys2Proof.Machine

/-! The checks. -/

theorem mapChecked_badVirtual {s : State} {v : VA} {p : PA} {n : Nat} {res : Option Word} {k : MapJob → Result}
    (hv : v.bits.toNat % 4096 ≠ 0) :
    mapChecked s v p n res k = .next (s.raiseHere .misalignedRegion v.bits) :=
  if_neg (mt pageAligned_iff.1 hv)

theorem mapChecked_badPhysical {s : State} {v : VA} {p : PA} {n : Nat} {res : Option Word} {k : MapJob → Result}
    (hv : v.bits.toNat % 4096 = 0) (hp : p.toNat % 4096 ≠ 0) :
    mapChecked s v p n res k = .next (s.raiseHere .misalignedRegion p) :=
  (if_pos (pageAligned_iff.2 hv)).trans (if_neg (mt pageAligned_iff.1 hp))

/-- Settles O24: the two checks come before anything else of a region, and for `MAPDESC` after its type's. -/
theorem misalignedRegionIsRecorded : Obligations.MisalignedRegionIsRecorded := by
  intro s h
  have faults {i : Instr} {info : Word} (ha : admits i .populating = true)
      (body : bodyOf i s.latchArgs (s.latch i) = .next ((s.latch i).raiseHere .misalignedRegion info)) :
      exec i s = .next (recorded s 2 (encode i) info) :=
    exec_of_body_raises (f := .misalignedRegion) h.1 (by rw [h.2]; exact ha) body
  exact ⟨fun hv => faults rfl (mapChecked_badVirtual hv), fun hv hp => faults rfl (mapChecked_badPhysical hv hp),
    fun hm hp => faults rfl ((if_pos hm).trans (mapChecked_badVirtual hp)), fun hv => faults rfl (mapChecked_badVirtual hv)⟩

/-- Settles O25: the type is checked before the start. -/
theorem otherDescriptorsAreSkipped : Obligations.OtherDescriptorsAreSkipped := fun _ => exec_mapdesc_skipped

/-! Completion. -/

/-- A mapping command of an aligned region completes when the allocator answers three good frames for each page and every
access is in `PHYS_MEM`. -/
theorem exec_region_completes {s : State} {i : Instr} {v : VA} {p : PA} {n : Nat} {res : Option Word}
    (h : s.Populating) (reach : (∀ a < 2 ^ 52, backed s.cfg a = true) ∨ (TablesOk s ∧ AllocatorOk s))
    (region : exec i s = mapRegion (s.latch i) v p n res) (hv : v.bits.toNat % 4096 = 0) (hp : p.toNat % 4096 = 0)
    (frames : framesReady s (3 * n)) :
    ∃ t, exec i s = .next t ∧ onlyTables { s with res0 := res.getD s.res0 } t := by
  have frames' : framesReady (s.latch i) (0 + 3 * n) := by rw [Nat.zero_add]; exact frames
  obtain ⟨s', run⟩ : ∃ s', mapPages n (s.latch i) ((regionJob v p n res).atPage (s.latch i).cfg 0) = .ok s' () := by
    obtain all | ⟨ok, al⟩ := reach
    · obtain ⟨s', run, -⟩ := mapPages_total n 0 (m := regionJob v p n res) (s := s.latch i) (i0 := 0) all rfl frames'
      exact ⟨s', run⟩
    · have ok' : TablesOk (s.latch i) := tablesOk_congr (s := s) rfl rfl rfl ok
      have al' : AllocatorOk (s.latch i) := allocatorOk_congr (s := s) rfl rfl rfl al
      obtain ⟨s', run, -⟩ :=
        mapPages_runs n 0 (m := regionJob v p n res) (i0 := 0) ok' (allocatorOk_iff.1 al').1 rfl frames'
      exact ⟨s', run⟩
  have only := mapPages_only n ((regionJob v p n res).atPage (s.latch i).cfg 0) (onlyTables_refl (s.latch i))
  rw [run] at only
  exact ⟨mapDone s' (regionJob v p n res),
    region.trans (mapRegion_completes (pageAligned_iff.2 hv) (pageAligned_iff.2 hp) run),
    onlyTables_mapDone h.1.2 only (regionJob v p n res)⟩

/-- Settles O26: the three commands are regions, with the result register each names. -/
theorem mappingCommandsComplete : Obligations.MappingCommandsComplete := fun _ h reach =>
  ⟨fun hv hp => exec_region_completes h reach (exec_map h) hv hp,
    fun hm hp => exec_region_completes h reach (exec_mapdesc_mapped h hm) hp hp,
    fun hp => exec_region_completes h reach (exec_mapfb h) hp hp⟩

/-! `MAP` of one page. -/

@[simp] theorem onePage_pa (c : Config) (v : VA) (p : PA) : (onePage c v p).pa = p := by
  simp [onePage, MapJob.atPage, MapJob.pa]

/-- `MAP` of one page whose run goes through ends with it. -/
theorem exec_map_onePage_completes {s s' : State} (h : s.Populating) (hn : s.arg2 = 1) (hv : s.arg0.toNat % 4096 = 0)
    (hp : s.arg1.toNat % 4096 = 0)
    (page : pageFinish (s.latch .map) (onePage s.cfg ⟨s.arg0⟩ s.arg1) = .ok s' ()) : exec .map s = .next s'.complete := by
  rw [← mapPages_one] at page
  rw [exec_map_onePage h hn]
  exact mapRegion_completes (pageAligned_iff.2 hv) (pageAligned_iff.2 hp) page

/-- The entries of the root are in `PHYS_MEM` (rule R252 point 1). -/
theorem backed64_rootEntry (c : Config) (j : BitVec 9) : backed64 c (entryAt (rootBase c) j) = true := by
  rw [entryAt_eq j (frameOk_rootBase c)]
  refine backed64_iff.2 fun k hk => backed_rootPage ?_
  have := j.isLt
  rw [rootBase_toNat]
  omega

/-- A walker call by a 9-bit index, on a present entry that is in `PHYS_MEM`. -/
theorem resolveNext_entryOf {s : State} {t : PA} {j : BitVec 9} (hb : backed64 s.cfg (entryAt t j) = true)
    (hp : (entryOf s.mem t j).getLsbD 0 = true) :
    resolveNext s t (j.setWidth 64) = .ok s (entryOf s.mem t j &&& 0x000FFFFFFFFFF000) :=
  (resolveNext_present hb hp).trans (by rw [frameAddr_eq_and]; rfl)

/-- The run of one page, from its three walker calls and its leaf write. -/
theorem pageFinish_onePage {s s1 s2 s3 : State} {v : VA} {p t1 t2 t3 : PA}
    (h1 : resolveNext s (rootBase s.cfg) ((splitVA v).i4.setWidth 64) = .ok s1 t1)
    (h2 : resolveNext s1 t1 ((splitVA v).i3.setWidth 64) = .ok s2 t2)
    (h3 : resolveNext s2 t2 ((splitVA v).i2.setWidth 64) = .ok s3 t3)
    (hb : backed64 s3.cfg (entryAt t3 (splitVA v).i1) = true) :
    pageFinish s (onePage s.cfg v p) = .ok (s3.setMem (s3.mem.write64 (entryAt t3 (splitVA v).i1) (initWord p))) () := by
  have leaf : leafWrite s3 (onePage s.cfg v p) t3 =
      .ok (s3.setMem (s3.mem.write64 (entryAt t3 (splitVA v).i1) (initWord p))) () := by
    rw [leafWrite, onePage_va, onePage_pa]
    exact memWrite_backed hb
  rw [pageFinish_ok_iff rfl, onePage_va]
  exact ⟨s1, t1, h1, s2, t2, h2, s3, t3, h3, leaf⟩

/-- Settles O27: the three walker calls answer what the present entries point at, and the leaf write is unconditional. -/
theorem mapOverExistingTables : Obligations.MapOverExistingTables := by
  rintro s pdpt pd pt h hv hp hn p4 rfl p3 rfl p2 rfl hb
  have page := pageFinish_onePage (s := s.latch .map) (v := ⟨s.arg0⟩) (p := s.arg1)
    (resolveNext_entryOf (backed64_rootEntry s.cfg _) p4)
    (resolveNext_entryOf (backed64_iff.2 fun k hk => (hb k hk).1) p3)
    (resolveNext_entryOf (backed64_iff.2 fun k hk => (hb k hk).2.1) p2)
    (backed64_iff.2 fun k hk => (hb k hk).2.2)
  have run := exec_map_onePage_completes h hn hv hp page
  refine ⟨_, run.trans ?_, (read64_write64_same _ _ _).trans (initWord_eq_and_or _), fun a ha => byte_write64_other ha⟩
  exact congrArg (fun u : State => Host.Outcome.next (u.setMem _)) (State.latch_complete h.1.2 .map)

/-! A table installed in memory. -/

/-- Memory after the walker has installed the table `f` in entry `j` of the table `t` (rule R151 steps 4 and 5). -/
def withTable (m : Memory) (t : PA) (j : BitVec 9) (f : PA) : Memory :=
  (m.zeroEntries f.toNat 512).write64 (entryAt t j) (initWord f)

theorem entryOf_withTable {m : Memory} {t f x : PA} {i j : BitVec 9} (ht : frameOk t = true) (hf : frameOk f = true)
    (hx : frameOk x = true) :
    entryOf (withTable m t j f) x i = if x = t ∧ i = j then initWord f else if x = f then 0 else entryOf m x i := by
  rw [withTable, entryOf_write64 ht hx]
  congr 1
  split
  · next e =>
    subst e
    have := entryAt_inside (j := i) hx
    exact read64_zeroEntries_same (by omega)
  · next e =>
    have := entryAt_outside (j := i) hx hf e
    exact read64_zeroEntries_other (by omega)

theorem byte_withTable {m : Memory} {t f : PA} {j : BitVec 9} {a : Nat} (he : a < entryAt t j ∨ entryAt t j + 8 ≤ a)
    (hf : a < f.toNat ∨ f.toNat + 4096 ≤ a) : (withTable m t j f).byte a = m.byte a :=
  (byte_write64_other he).trans (byte_zeroEntries_other (by omega))

/-- An entry of a table lies in it. -/
theorem outside_entry {t : PA} {j : BitVec 9} {a : Nat} (ht : frameOk t = true) (h : a < t.toNat ∨ t.toNat + 4096 ≤ a) :
    a < entryAt t j ∨ entryAt t j + 8 ≤ a := by
  have := entryAt_inside (j := j) ht
  omega

/-- A walker call by a 9-bit index installs a good frame in an empty entry that is in `PHYS_MEM`. -/
theorem resolveNext_withTable {s : State} {t f : PA} {j : BitVec 9} {rest : List AllocAnswer}
    (hb : backed64 s.cfg (entryAt t j) = true) (hp : isPresent (entryOf s.mem t j) = false)
    (ha : s.answers = .frame f :: rest) (hf : frameOk f = true) (hz : pageBacked s.cfg f) :
    ∃ s', resolveNext s t (j.setWidth 64) = .ok s' f ∧
      s' = { s with
        mem := withTable s.mem t j f, allocs := s.allocs + 1, answers := rest, granted := f :: s.granted } :=
  ⟨_, resolveNext_install hb hp ha hf fun _ hk => backed64_page hz hk, rfl⟩

/-- A new table is empty. -/
theorem entryOf_withTable_new {m : Memory} {t f : PA} {i j : BitVec 9} (ht : frameOk t = true) (hf : frameOk f = true)
    (ft : f ≠ t) : isPresent (entryOf (withTable m t j f) f i) = false := by
  rw [entryOf_withTable ht hf hf, if_neg fun e => ft e.1, if_pos rfl]
  exact isPresent_zero

/-- The entries of a page in `PHYS_MEM` are. -/
theorem backed64_entryAt {c : Config} {t : PA} (j : BitVec 9) (ht : frameOk t = true) (h : pageBacked c t) :
    backed64 c (entryAt t j) = true := by
  rw [entryAt_eq j ht]
  exact backed64_page h j.isLt

/-! The three tables of one page, built under an empty entry of the root `r` in the frames `f`, `g` and `h`, which are
good, and different from one another and from the root. -/

/-- Memory with the three tables and the leaf entry of the page at `v`. -/
def withPath (m : Memory) (r f g h : PA) (v : VA) (p : PA) : Memory :=
  (withTable (withTable (withTable m r (splitVA v).i4 f) f (splitVA v).i3 g) g (splitVA v).i2 h).write64
    (entryAt h (splitVA v).i1) (initWord p)

/-- The frames that become the three tables under `r` are good, and none is another one or `r`. -/
structure Distinct (r f g h : PA) : Prop where
  root  : frameOk r = true
  first : frameOk f = true ∧ f ≠ r
  next  : frameOk g = true ∧ g ≠ r ∧ g ≠ f
  last  : frameOk h = true ∧ h ≠ r ∧ h ≠ f ∧ h ≠ g

section
variable {m : Memory} {r f g h p : PA} {v : VA} (d : Distinct r f g h)
include d

theorem entryOf_withPath {x : PA} {i : BitVec 9} (hx : frameOk x = true) :
    entryOf (withPath m r f g h v p) x i =
      if x = h ∧ i = (splitVA v).i1 then initWord p
      else if x = g ∧ i = (splitVA v).i2 then initWord h else if x = h then 0
      else if x = f ∧ i = (splitVA v).i3 then initWord g else if x = g then 0
      else if x = r ∧ i = (splitVA v).i4 then initWord f else if x = f then 0 else entryOf m x i := by
  rw [withPath, entryOf_write64 d.last.1 hx, entryOf_withTable d.next.1 d.last.1 hx,
    entryOf_withTable d.first.1 d.next.1 hx, entryOf_withTable d.root d.first.1 hx]

theorem entryOf_withPath_root : entryOf (withPath m r f g h v p) r (splitVA v).i4 = f ||| 0x3 := by
  rw [entryOf_withPath d d.root]
  simp [d.first.2.symm, d.next.2.1.symm, d.last.2.1.symm, initWord_of_frame d.first.1]

theorem entryOf_withPath_first (j : BitVec 9) :
    entryOf (withPath m r f g h v p) f j = if j = (splitVA v).i3 then g ||| 0x3 else 0 := by
  rw [entryOf_withPath d d.first.1]
  simp [d.first.2, d.next.2.2.symm, d.last.2.2.1.symm, initWord_of_frame d.next.1]

theorem entryOf_withPath_next (j : BitVec 9) :
    entryOf (withPath m r f g h v p) g j = if j = (splitVA v).i2 then h ||| 0x3 else 0 := by
  rw [entryOf_withPath d d.next.1]
  simp [d.next.2.2, d.last.2.2.2.symm, initWord_of_frame d.last.1]

theorem entryOf_withPath_last (j : BitVec 9) :
    entryOf (withPath m r f g h v p) h j = if j = (splitVA v).i1 then (p &&& 0x000FFFFFFFFFF000) ||| 0x3 else 0 := by
  rw [entryOf_withPath d d.last.1]
  simp [d.last.2.2.2, initWord_eq_and_or]

theorem byte_withPath {a : Nat} (he : a < entryAt r (splitVA v).i4 ∨ entryAt r (splitVA v).i4 + 8 ≤ a)
    (h1 : a < f.toNat ∨ f.toNat + 4096 ≤ a) (h2 : a < g.toNat ∨ g.toNat + 4096 ≤ a)
    (h3 : a < h.toNat ∨ h.toNat + 4096 ≤ a) : (withPath m r f g h v p).byte a = m.byte a := by
  rw [withPath, byte_write64_other (outside_entry d.last.1 h3), byte_withTable (outside_entry d.next.1 h2) h3,
    byte_withTable (outside_entry d.first.1 h1) h2, byte_withTable he h1]

end

/-- What the page's run leaves when the frames `f`, `g` and `h` have become its tables. -/
def builtPath (s : State) (f g h : PA) (rest : List AllocAnswer) (v : VA) (p : PA) : State :=
  { s with
    mem := withPath s.mem (rootBase s.cfg) f g h v p, allocs := s.allocs + 3, answers := rest,
    granted := h :: g :: f :: s.granted }

/-- The run of one page under an empty root entry takes the frames in order (rule R172). -/
theorem pageFinish_builds {s : State} {v : VA} {p f g h : PA} {rest : List AllocAnswer}
    (d : Distinct (rootBase s.cfg) f g h) (hf : pageBacked s.cfg f) (hg : pageBacked s.cfg g) (hh : pageBacked s.cfg h)
    (ha : s.answers = .frame f :: .frame g :: .frame h :: rest)
    (empty : isPresent (entryOf s.mem (rootBase s.cfg) (splitVA v).i4) = false) :
    pageFinish s (onePage s.cfg v p) = .ok (builtPath s f g h rest v p) () := by
  obtain ⟨s1, h1, e1⟩ := resolveNext_withTable (backed64_rootEntry s.cfg _) empty ha d.first.1 hf
  have c1 : s1.cfg = s.cfg := by rw [e1]
  obtain ⟨s2, h2, e2⟩ := resolveNext_withTable (s := s1) (f := g) (j := (splitVA v).i3) (rest := .frame h :: rest)
    (by rw [c1]; exact backed64_entryAt _ d.first.1 hf)
    (by rw [e1]; exact entryOf_withTable_new d.root d.first.1 d.first.2) (by rw [e1]) d.next.1 (by rw [c1]; exact hg)
  have c2 : s2.cfg = s.cfg := by rw [e2, c1]
  obtain ⟨s3, h3, e3⟩ := resolveNext_withTable (s := s2) (f := h) (j := (splitVA v).i2) (rest := rest)
    (by rw [c2]; exact backed64_entryAt _ d.next.1 hg)
    (by rw [e2]; exact entryOf_withTable_new d.first.1 d.next.1 d.next.2.2) (by rw [e2]) d.last.1 (by rw [c2]; exact hh)
  have c3 : s3.cfg = s.cfg := by rw [e3, c2]
  have page := pageFinish_onePage (p := p) h1 h2 h3 (by rw [c3]; exact backed64_entryAt _ d.last.1 hh)
  have count : s.allocs + 1 + 1 + 1 = s.allocs + 3 := by rw [BitVec.add_assoc, BitVec.add_assoc]; rfl
  rw [page, builtPath, ← count, e3, e2, e1]
  rfl

/-- The first three frames of an allocator that keeps its promise. -/
theorem distinct_of_allocatorOk {s : State} {f g h : PA} {rest : List AllocAnswer} (al : AllocatorOk s)
    (ha : s.answers = .frame f :: .frame g :: .frame h :: rest) :
    Distinct (rootBase s.cfg) f g h ∧ pageBacked s.cfg f ∧ pageBacked s.cfg g ∧ pageBacked s.cfg h := by
  obtain ⟨fresh, apart⟩ := al
  rw [ha] at fresh apart
  obtain ⟨hf, bf, rf, -⟩ := fresh f (by simp)
  obtain ⟨hg, bg, rg, -⟩ := fresh g (by simp)
  obtain ⟨hh, bh, rh, -⟩ := fresh h (by simp)
  simp only [List.pairwise_cons, List.mem_cons, forall_eq_or_imp, AllocAnswer.frame.injEq, reduceCtorEq, imp_false] at apart
  obtain ⟨⟨fg, fh, -⟩, ⟨gh, -⟩, -⟩ := apart
  exact ⟨⟨frameOk_rootBase _, ⟨hf, rf⟩, ⟨hg, rg, Ne.symm fg⟩, ⟨hh, rh, Ne.symm fh, Ne.symm gh⟩⟩, bf, bg, bh⟩

/-- Settles O28: each walker call finds the empty entry of the table the one before has installed. -/
theorem mapBuildsThreeTables : Obligations.MapBuildsThreeTables := by
  intro s f g h rest hs al ha hv hp hn empty
  obtain ⟨d, bf, bg, bh⟩ := distinct_of_allocatorOk al ha
  have run := exec_map_onePage_completes hs hn hv hp
    (pageFinish_builds (s := s.latch .map) (v := ⟨s.arg0⟩) (p := s.arg1) d bf bg bh ha empty)
  refine ⟨withPath s.mem (rootBase s.cfg) f g h ⟨s.arg0⟩ s.arg1, run.trans ?_, entryOf_withPath_root d,
    entryOf_withPath_first d, entryOf_withPath_next d, entryOf_withPath_last d,
    fun a he h1 h2 h3 => byte_withPath d he h1 h2 h3⟩
  exact congrArg (fun u : State => Host.Outcome.next (builtPath u f g h rest ⟨s.arg0⟩ s.arg1))
    (State.latch_complete hs.1.2 .map)

end Sys2Proof.Laws
end

section
/-! SUPPORT. How commands end: whether they complete, fault or wait, which registers they leave alone, and what `ALLOCS`
counts (rule R24, rule R30, rule R38, rule R230, rule R258). -/

namespace Sys2Proof.Laws
open Sys2Proof.Machine

/-! The fields of an entry do not overlap (rule R80). -/

theorem fields_apart {f f' : EntryField} (h : f' ≠ f) :
    fieldLo f' + fieldWidth f' ≤ fieldLo f ∨ fieldLo f + fieldWidth f ≤ fieldLo f' := by
  revert h
  cases f <;> cases f' <;> decide

theorem field_in_word (f : EntryField) : fieldLo f + fieldWidth f ≤ 64 := by
  cases f <;> decide

/-- Settles O17: bit by bit; a bit of another field lies outside the field written. -/
theorem fieldReadAfterWrite : Obligations.FieldReadAfterWrite := by
  intro e v f f' hv
  have inWord := field_in_word f'
  apply BitVec.eq_of_getLsbD_eq
  intro k hk
  by_cases hw : k < fieldWidth f'
  · rw [getLsbD_getField, getLsbD_setField hv (by omega), decide_eq_true hw, Bool.true_and]
    split_ifs with inside same same
    · subst same
      rw [Nat.add_sub_cancel_left]
    · have := fields_apart same
      omega
    · subst same
      omega
    · rw [getLsbD_getField, decide_eq_true hw, Bool.true_and]
  · rw [getLsbD_getField, decide_eq_false hw, Bool.false_and]
    split_ifs with same
    · subst same
      exact (getLsbD_eq_false_of_toNat_lt hv (Nat.le_of_not_lt hw)).symm
    · rw [getLsbD_getField, decide_eq_false hw, Bool.false_and]

/-! The paging-control register (rule R230). -/

theorem EnvironmentOnly.pagingReg {s t : State} (h : EnvironmentOnly s t) : t.pagingReg = s.pagingReg := by rw [h]
theorem EnvironmentOnly.cfg {s t : State} (h : EnvironmentOnly s t) : t.cfg = s.cfg := by rw [h]
theorem CommandOnly.pagingReg {s t : State} (h : CommandOnly s t) : t.pagingReg = s.pagingReg := by rw [h]

/-- Settles O44: of the kinds of steps, the completion of `ENABLE` alone touches the register. -/
theorem pagingRegisterWrittenOnlyByEnable : Obligations.PagingRegisterWrittenOnlyByEnable := by
  intro s t hi e hp
  cases step_effect hi e with
  | reset _ ht => exact absurd (by rw [ht]; rfl) hp
  | environment h => exact absurd h.pagingReg hp
  | raised _ h _ _ _ ht => exact absurd (by rw [ht]; exact h.pagingReg) hp
  | accepted _ h _ _ ht => exact absurd (by rw [ht]; exact h.pagingReg) hp
  | command _ h i _ ha he =>
    cases he with
    | only hc => exact absurd (hc.pagingReg.trans h.pagingReg) hp
    | rootz m => exact absurd h.pagingReg hp
    | enable => exact ⟨by simpa [admits] using ha, rfl, congrArg rootBase h.cfg⟩

/-! ACTIVE admits the commands that compute, and no other (rule R87, rule R258). -/

theorem neededPhase_of_active {i : Instr} : admits i .active = true → neededPhase i = none := by
  cases i <;> decide

theorem startTick_compute {i : Instr} (h : neededPhase i = none) (a : Args) (s : State) :
    startTick i a s = bodyOf i a s := by
  cases i <;> simp_all [neededPhase, startTick, bodyOf]

/-- A command that runs in ACTIVE has not begun, and computes. -/
theorem start_of_active {j : Job} (h : jobOk .active j) : j.task = .start ∧ neededPhase j.instr = none := by
  obtain ⟨i, a, task⟩ := j
  obtain ⟨ha, ok⟩ := h
  have compute := neededPhase_of_active ha
  refine ⟨?_, compute⟩
  cases task with
  | start => rfl
  | walk w => obtain ⟨rfl, -⟩ := ok; cases compute
  | map m => obtain ⟨rfl | rfl | rfl, -⟩ := ok <;> cases compute
  | rootz k => obtain ⟨rfl, -⟩ := ok; cases compute

theorem ResultsOnly.tables {s t : State} (h : ResultsOnly s t) : t.mem = s.mem ∧ t.allocs = s.allocs := by
  constructor <;> rw [h]

theorem exec_active {s t : State} {i : Instr} (hp : s.phase = .active) (e : exec i s = .next t) :
    t.mem = s.mem ∧ t.allocs = s.allocs := by
  rw [exec_eq_issue] at e
  obtain ⟨-, r⟩ | ⟨-, -, r⟩ | ⟨-, -, -, r⟩ | ⟨-, -, ha, r⟩ := issue_cases i (bodyOf i) s <;> rw [r] at e
  · cases e; exact ⟨rfl, rfl⟩
  · cases e; exact ⟨State.leaveRequest_mem s, State.leaveRequest_allocs s⟩
  · cases e; exact ⟨rfl, rfl⟩
  · exact (bodyOf_compute (neededPhase_of_active (hp ▸ ha)) e).tables

theorem tick_active {s : State} {j : Job} (hs : s.seq = some j) (ok : jobOk .active j) :
    tick s = bodyOf j.instr j.args s := by
  obtain ⟨start, compute⟩ := start_of_active ok
  simp only [tick, hs, start, startTick_compute compute]

theorem runOn_active {s : State} {j : Job} (hs : s.seq = some j) (ok : jobOk .active j) :
    runOn s = bodyOf j.instr j.args s := by
  simp only [runOn, hs, (start_of_active ok).1]

/-- Settles O45: a command in ACTIVE is one that computes, whether it is written now or has been accepted before. -/
theorem activeFreezesTheTables : Obligations.ActiveFreezesTheTables := by
  intro s t hi hp
  have frozen {move : State → Result} (idle : s.seq = none → move s = .next s)
      (busy : ∀ j, s.seq = some j → jobOk .active j → move s = bodyOf j.instr j.args s) (e : move s = .next t) :
      t.mem = s.mem ∧ t.allocs = s.allocs := by
    cases hs : s.seq with
    | none => rw [idle hs] at e; cases e; exact ⟨rfl, rfl⟩
    | some j =>
      have ok := hp ▸ hi.job j hs
      rw [busy j hs ok] at e
      exact (bodyOf_compute (neededPhase_of_active ok.1) e).tables
  exact ⟨fun i => exec_active hp, frozen tick_idle fun _ => tick_active, frozen runOn_idle fun _ => runOn_active⟩

/-! How a command ends. -/

/-- The allocator has given the frames `fs`, latest first, and each has been counted (rule R30). -/
def Took (s s' : State) (fs : List PA) : Prop :=
  s'.granted = fs ++ s.granted ∧ s'.allocs = s.allocs + BitVec.ofNat 64 fs.length

theorem Took.refl (s : State) : Took s s [] := ⟨rfl, by simp⟩

theorem Took.trans {s s' s'' : State} {fs gs : List PA} (h : Took s s' fs) (h' : Took s' s'' gs) :
    Took s s'' (gs ++ fs) := by
  obtain ⟨hg, ha⟩ := h
  obtain ⟨hg', ha'⟩ := h'
  refine ⟨by rw [hg', hg, List.append_assoc], ?_⟩
  rw [ha', ha, BitVec.add_assoc, ← BitVec.ofNat_add, List.length_append, Nat.add_comm]

/-- The frame a fault turns away: the one answered, for `ALLOCATOR_CONTRACT` (rule R151 step 3). -/
def turnedAway (f : Cause) (info : Word) : List PA := if f = .allocatorContract then [info] else []

/-- A part of a command that has started from `s0` has counted the frames it took, however it ends. -/
def Counted {ω α : Type} (s0 : State) : Run ω α → Prop
  | .ok s _ => ∃ fs, Took s0 s fs
  | .wait s _ => ∃ fs, Took s0 s fs
  | .raise s f info => ∃ u fs, Took s0 u fs ∧ s.allocs = u.allocs ∧ s.granted = turnedAway f info ++ u.granted
  | .stop _ => True

theorem Counted.after {ω α : Type} {s s' : State} {fs : List PA} {r : Run ω α} (h : Took s s' fs) (hr : Counted s' r) :
    Counted s r := by
  cases r with
  | ok => obtain ⟨gs, hg⟩ := hr; exact ⟨_, h.trans hg⟩
  | wait => obtain ⟨gs, hg⟩ := hr; exact ⟨_, h.trans hg⟩
  | raise => obtain ⟨u, gs, hg, rest⟩ := hr; exact ⟨u, _, h.trans hg, rest⟩
  | stop => trivial

theorem Counted.bind {ω ω' α β : Type} {s : State} {r : Run ω α} {hold : ω → ω'} {k : State → α → Run ω' β}
    (h : Counted s r) (hk : ∀ s' a, Counted s' (k s' a)) : Counted s (r.bind hold k) := by
  cases r with
  | ok s' a => obtain ⟨fs, hf⟩ := h; exact (hk s' a).after hf
  | raise => exact h
  | wait => exact h
  | stop => trivial

theorem counted_memWrite {ω : Type} (s : State) (a : Nat) (v : Word) : Counted s (memWrite (ω := ω) s a v) := by
  unfold memWrite
  split
  · exact ⟨[], Took.refl s⟩
  · trivial

/-- A wait of `resolveNext` leaves the machine as it was (rule R153). -/
theorem resolveNext_wait {s s' : State} {t : PA} {j : Word} {w : WalkJob} (h : resolveNext s t j = .wait s' w) :
    s' = s := by
  cases hb : backed64 s.cfg (entryAddr t j).toNat with
  | false =>
    rw [resolveNext, resolveFrom, WalkJob.ea, memRead_unbacked hb] at h
    cases h
  | true =>
    cases hp : isPresent (s.mem.read64 (entryAddr t j).toNat) with
    | true => rw [resolveNext_present hb hp] at h; cases h
    | false =>
      rw [resolveNext_empty hb hp] at h
      cases ha : s.answers with
      | nil => rw [walkAlloc_none ha] at h; cases h; rfl
      | cons r rest =>
        rw [walkAlloc_some ha] at h
        cases r with
        | exhausted => cases h
        | frame f =>
          simp only [walkAnswer] at h
          split at h
          · unfold walkZero walkInstall memZero memWrite at h
            split at h
            · rw [Run_bind_ok] at h
              split at h <;> cases h
            · cases h
          · cases h

/-- A walker call counts the table it installs (rule R151 steps 3 to 5). -/
theorem counted_resolveNext (s : State) (t : PA) (j : Word) : Counted s (resolveNext s t j) := by
  cases hr : resolveNext s t j with
  | ok s' b =>
    obtain ⟨-, rfl, -⟩ | ⟨-, -, rest, -, rfl⟩ := resolveNext_ok hr
    · exact ⟨[], Took.refl s'⟩
    · exact ⟨[b], rfl, rfl⟩
  | raise s' f info =>
    obtain ⟨-, r, rest, -, rfl, ⟨rfl, rfl, -⟩ | ⟨rfl, rfl, -⟩⟩ := resolveNext_raise hr
    · exact ⟨s, [], Took.refl s, rfl, rfl⟩
    · exact ⟨s, [], Took.refl s, rfl, rfl⟩
  | wait s' w =>
    rw [resolveNext_wait hr]
    exact ⟨[], Took.refl s⟩
  | stop f => trivial

/-- A page from the walker call of a level on. -/
theorem counted_page {s : State} {m : MapJob} {l : WalkLevel} {t : PA} {j : Word}
    (hm : m.point = .walking l ⟨t, j, .readEntry⟩) : Counted s (pageFinish s m) := by
  have leaf (s : State) (t : PA) : Counted s (pageFinish s { m with point := .leaf t }) := counted_memWrite s _ _
  have pd (s : State) (t : PA) (j : Word) : Counted s (pageFinish s { m with point := .walking .pd ⟨t, j, .readEntry⟩ }) :=
    (counted_resolveNext s t j).bind leaf
  have pdpt (s : State) (t : PA) (j : Word) :
      Counted s (pageFinish s { m with point := .walking .pdpt ⟨t, j, .readEntry⟩ }) :=
    (counted_resolveNext s t j).bind fun s' t' => pd s' t' _
  rw [pageFinish_walking s hm]
  cases l with
  | pml4 => exact (counted_resolveNext s t j).bind fun s' t' => pdpt s' t' _
  | pdpt => exact (counted_resolveNext s t j).bind fun s' t' => pd s' t' _
  | pd => exact (counted_resolveNext s t j).bind leaf

theorem counted_mapPages (n : Nat) (s : State) (m : MapJob) (c : Config) (i : Nat) :
    Counted s (mapPages n s (m.atPage c i)) := by
  induction n generalizing s m c i with
  | zero => exact ⟨[], Took.refl s⟩
  | succ n ih => exact (counted_page rfl).bind fun s' _ => ih s' _ _ _

/-- The command has completed, in a state from which only its results and its phase differ. -/
def Completes (u t : State) : Prop :=
  t.faulted = u.faulted ∧ t.seq = none ∧ t.allocs = u.allocs ∧ t.granted = u.granted

/-- All ways in which the body of a command ends that starts from `s`: after a part `u` of it that has changed memory, `ALLOCS`
and the allocator's side alone, and has taken the frames `fs`, it completes, waits, or faults. -/
inductive Ended (s t : State) (fs : List PA) : Prop where
  | completed {u : State} (only : onlyTables s u) (took : Took s u fs) (h : Completes u t)
  | waits {u : State} (only : onlyTables s u) (took : Took s u fs) (task : Task) (h : t = u.suspend task)
  | faulted {u v : State} (only : onlyTables s u) (f : Cause) (info : Word) (took : Took s v fs) (ha : u.allocs = v.allocs)
      (hg : u.granted = turnedAway f info ++ v.granted) (h : t = u.raiseHere f info)

/-- A command that ends without having touched memory. -/
theorem Ended.at_once {s t : State} (h : Completes s t) : Ended s t [] := .completed (onlyTables_refl s) (Took.refl s) h

theorem Ended.refused (s : State) {f : Cause} (info : Word) (hf : f ≠ .allocatorContract) :
    Ended s (s.raiseHere f info) [] :=
  .faulted (onlyTables_refl s) f info (Took.refl s) rfl (by rw [turnedAway, if_neg hf]; rfl) rfl

theorem ended_finish {ω α : Type} {s t : State} {r : Run ω α} {hold : ω → Task} {k : State → α → Result}
    (only : Ends (onlyTables s) r) (counted : Counted s r) (hk : ∀ s' a, k s' a = .next t → Completes s' t)
    (e : r.finish hold k = .next t) : ∃ fs, Ended s t fs := by
  cases r with
  | ok s' a => obtain ⟨fs, took⟩ := counted; exact ⟨fs, .completed only took (hk s' a e)⟩
  | wait s' w => obtain ⟨fs, took⟩ := counted; cases e; exact ⟨fs, .waits only took _ rfl⟩
  | raise s' f info => obtain ⟨v, fs, took, ha, hg⟩ := counted; cases e; exact ⟨fs, .faulted only f info took ha hg rfl⟩
  | stop f => cases e

theorem completes_setRes0 (s : State) (v : Word) : Completes s (s.setRes0 v).complete := ⟨rfl, rfl, rfl, rfl⟩

theorem completes_enabled (s : State) (v : Word) : Completes s ((writeCr3 s v).setPhase .active).complete :=
  ⟨rfl, rfl, rfl, rfl⟩

theorem completes_rootzFinish {s t : State} {k : Nat} (e : rootzFinish s k = .next t) : Completes s t := by
  cases e; exact ⟨rfl, rfl, rfl, rfl⟩

theorem completes_mapDone (s : State) (m : MapJob) : Completes s (mapDone s m) := by
  rw [mapDone_eq]; exact ⟨rfl, rfl, rfl, rfl⟩

theorem ended_mapRegion {s t : State} {v : VA} {p : PA} {n : Nat} {res : Option Word}
    (e : mapRegion s v p n res = .next t) : ∃ fs, Ended s t fs := by
  unfold mapRegion mapChecked at e
  split at e
  · split at e
    · exact ended_finish (mapPages_only _ _ (onlyTables_refl s)) (counted_mapPages _ s _ _ _)
        (fun s' _ e => by cases e; exact completes_mapDone s' _) e
    · cases e; exact ⟨[], .refused s _ (by decide)⟩
  · cases e; exact ⟨[], .refused s _ (by decide)⟩

theorem ended_walk {a : Args} {s t : State} (e : bodyWalk a s = .next t) : ∃ fs, Ended s t fs := by
  unfold bodyWalk walkChecked at e
  split at e
  · split at e
    · exact ended_finish (resolveFrom_only _ (onlyTables_refl s)) (counted_resolveNext s _ _)
        (fun s' _ e => by cases e; exact ⟨rfl, rfl, rfl, rfl⟩) e
    · cases e; exact ⟨[], .refused s _ (by decide)⟩
  · cases e; exact ⟨[], .refused s _ (by decide)⟩

/-- The commands that walk tables (rule R152, rule R171, rule R190, rule R191). -/
def Walks (i : Instr) : Prop := i = .walk ∨ i = .map ∨ i = .mapdesc ∨ i = .mapfb

theorem bodyOf_ended {i : Instr} {a : Args} {s t : State} (e : bodyOf i a s = .next t) :
    ∃ fs, Ended s t fs ∧ (fs ≠ [] → Walks i) := by
  have alone (h : Ended s t []) : ∃ fs, Ended s t fs ∧ (fs ≠ [] → Walks i) := ⟨[], h, absurd rfl⟩
  have walks (hi : Walks i) (h : ∃ fs, Ended s t fs) : ∃ fs, Ended s t fs ∧ (fs ≠ [] → Walks i) :=
    h.imp fun fs h => ⟨h, fun _ => hi⟩
  cases i with
  | adec => cases e; exact alone (.at_once ⟨rfl, rfl, rfl, rfl⟩)
  | pinit => cases e; exact alone (.at_once (completes_setRes0 s _))
  | pframe => cases e; exact alone (.at_once (completes_setRes0 s _))
  | ppres => cases e; exact alone (.at_once (completes_setRes0 s _))
  | pget =>
    simp only [bodyOf, bodyPget] at e
    split at e <;> cases e
    · exact alone (.refused s _ (by decide))
    · exact alone (.at_once (completes_setRes0 s _))
  | pset =>
    simp only [bodyOf, bodyPset] at e
    split at e
    · cases e; exact alone (.refused s _ (by decide))
    · split at e <;> cases e
      · exact alone (.at_once (completes_setRes0 s _))
      · exact alone (.refused s _ (by decide))
  | einit =>
    simp only [bodyOf, bodyEinit, memWrite] at e
    split at e
    · split at e <;> cases e
      exact alone (.at_once ⟨rfl, rfl, rfl, rfl⟩)
    · cases e; exact alone (.refused s _ (by decide))
  | walk => exact walks (.inl rfl) (ended_walk e)
  | map => exact walks (.inr (.inl rfl)) (ended_mapRegion e)
  | mapdesc =>
    simp only [bodyOf, bodyMapdesc, descChecked] at e
    split at e
    · exact walks (.inr (.inr (.inl rfl))) (ended_mapRegion e)
    · cases e; exact alone (.at_once (completes_setRes0 s _))
  | mapfb => exact walks (.inr (.inr (.inr rfl))) (ended_mapRegion e)
  | rootz =>
    have done : Completes s t := completes_rootzFinish (k := 0) e
    exact alone (.at_once done)
  | enable => cases e; exact alone (.at_once (completes_enabled s _))

/-! Operands and results (rule R24, rule R38). -/

def ArgsKept (s t : State) : Prop := t.arg0 = s.arg0 ∧ t.arg1 = s.arg1 ∧ t.arg2 = s.arg2 ∧ t.arg3 = s.arg3

def ResultsKept (s t : State) : Prop :=
  t.res0 = s.res0 ∧ t.res1 = s.res1 ∧ t.res2 = s.res2 ∧ t.res3 = s.res3 ∧ t.res4 = s.res4

theorem argsKept_enabled (s : State) (v : Word) : ArgsKept s ((writeCr3 s v).setPhase .active).complete :=
  ⟨rfl, rfl, rfl, rfl⟩

theorem CommandEffect.argsKept {i : Instr} {s t : State} (h : CommandEffect i s t) : ArgsKept s t := by
  cases h with
  | only h => rw [h]; exact ⟨rfl, rfl, rfl, rfl⟩
  | rootz m => exact ⟨rfl, rfl, rfl, rfl⟩
  | enable => exact argsKept_enabled s _

theorem ResultsKept.of_onlyTables {s u : State} (h : onlyTables s u) : ResultsKept s u := by
  rw [h]; exact ⟨rfl, rfl, rfl, rfl, rfl⟩

theorem Ended.resultsKept {s t : State} {fs : List PA} (h : Ended s t fs) (hf : s.faulted = false)
    (ht : t.faulted = true ∨ t.busy = true) : ResultsKept s t := by
  cases h with
  | completed only _ done =>
    obtain ⟨faulted, seq, -⟩ := done
    rw [only] at faulted
    simp [faulted, seq, hf, State.busy] at ht
  | waits only _ task h => have kept := ResultsKept.of_onlyTables only; rw [h]; exact kept
  | faulted only f info _ _ _ h => have kept := ResultsKept.of_onlyTables only; rw [h]; exact kept

/-- Settles O46: no command effect touches an operand, and only a completion touches a result. -/
theorem faultedCommandWritesNoResult : Obligations.FaultedCommandWritesNoResult := by
  intro s t i e
  suffices h : ArgsKept s t ∧ (t.faulted = true ∨ t.busy = true → ResultsKept s t) by
    obtain ⟨⟨h0, h1, h2, h3⟩, results⟩ := h
    exact ⟨h0, h1, h2, h3, results⟩
  rw [exec_eq_issue] at e
  obtain ⟨-, r⟩ | ⟨-, -, r⟩ | ⟨-, -, -, r⟩ | ⟨hf, -, -, r⟩ := issue_cases i (bodyOf i) s <;> rw [r] at e
  · cases e; exact ⟨⟨rfl, rfl, rfl, rfl⟩, fun _ => ⟨rfl, rfl, rfl, rfl, rfl⟩⟩
  · cases e
    have left := State.leaveRequest_eq s
    rw [State.interrupt, left]
    exact ⟨⟨rfl, rfl, rfl, rfl⟩, fun _ => ⟨rfl, rfl, rfl, rfl, rfl⟩⟩
  · cases e; exact ⟨⟨rfl, rfl, rfl, rfl⟩, fun _ => ⟨rfl, rfl, rfl, rfl, rfl⟩⟩
  · obtain ⟨fs, ended, -⟩ := bodyOf_ended e
    exact ⟨(effect_of_latch (bodyOf_effect e)).argsKept, ended.resultsKept hf⟩

/-! `ALLOCS` (rule R30). -/

theorem Cause.code_eq_six {f : Cause} : f.code = 6#4 ↔ f = .allocatorContract := by
  cases f <;> decide

/-- Settles O47: a completion and a wait leave the frames taken counted; so does a fault, before the frame it turns away. -/
theorem allocsCountsInstalledTables : Obligations.AllocsCountsInstalledTables := by
  intro s t i hs e
  rw [exec_eq_issue] at e
  cases ha : admits i s.phase with
  | false =>
    rw [issue_refused_phase hs.1 hs.2 ha] at e
    cases e
    exact ⟨[], by simp [State.raise], by simp [State.raise, Cause.code], absurd rfl⟩
  | true =>
    rw [issue_admitted hs.1 hs.2 ha] at e
    obtain ⟨fs, ended, walks⟩ := bodyOf_ended e
    refine ⟨fs, ?_⟩
    cases ended with
    | completed only took done =>
      obtain ⟨faulted, -, allocs, granted⟩ := done
      obtain ⟨hg, ha⟩ := took
      rw [only, State.latch_faulted, hs.1] at faulted
      exact ⟨allocs.trans ha, by simp [faulted, granted, hg], walks⟩
    | waits only took task h =>
      obtain ⟨hg, ha⟩ := took
      have faulted := congrArg State.faulted only
      subst h
      exact ⟨ha, by simp [faulted, hs.1, hg], walks⟩
    | faulted only f info took ha hg h =>
      obtain ⟨hg', ha'⟩ := took
      subst h
      refine ⟨ha.trans ha', ?_, walks⟩
      rw [List.append_assoc]
      refine hg.trans ?_
      simp [turnedAway, State.raiseHere, State.raise, Cause.code_eq_six, hg']

end Sys2Proof.Laws
end

section
/-! SUPPORT. A running command does not look at `ARG0`-`ARG3`: it has latched its operands (rule R22, rule R23). -/

namespace Sys2Proof.Laws
open Sys2Proof.Machine

/-- The operand registers as the host has written them since. -/
def overwrite (a : Args) (s : State) : State := { s with arg0 := a.a0, arg1 := a.a1, arg2 := a.a2, arg3 := a.a3 }

theorem unseen_overwrite (a : Args) : Unseen (overwrite a) := unseen_args a.a0 a.a1 a.a2 a.a3

/-- When `r` ends in a state, `r'` ends in the same, but for the operand registers. -/
def SameBut (a : Args) (r r' : Result) : Prop := ∀ t, r = .next t → r' = .next (overwrite a t)

theorem SameBut.next {a : Args} (t : State) : SameBut a (.next t) (.next (overwrite a t)) := by
  intro _ e
  cases e
  rfl

theorem SameBut.finish {a : Args} {ω α : Type} {hold : ω → Task} {k k' : State → α → Result} (r : Run ω α)
    (hk : ∀ s x, SameBut a (k s x) (k' (overwrite a s) x)) :
    SameBut a (r.finish hold k) ((changed (overwrite a) r).finish hold k') := by
  cases r with
  | ok s x => exact hk s x
  | raise s f info => exact .next (s.raiseHere f info)
  | wait s w => exact .next (s.suspend (hold w))
  | stop f => intro _ e; cases e

theorem mapDone_overwrite (a : Args) (s : State) (m : MapJob) :
    mapDone (overwrite a s) m = overwrite a (mapDone s m) := by
  rw [mapDone_eq, mapDone_eq]
  rfl

theorem walkFinish_overwrite (a : Args) (s : State) (w : WalkJob) :
    SameBut a (walkFinish s w) (walkFinish (overwrite a s) w) := by
  rw [walkFinish, walkFinish, resolveFrom_changed (unseen_overwrite a)]
  exact .finish _ fun s t => .next (s.setRes0 t).complete

theorem mapFinish_overwrite (a : Args) (s : State) (m : MapJob) :
    SameBut a (mapFinish s m) (mapFinish (overwrite a s) m) := by
  rw [mapFinish, mapFinish, mapPages_changed (unseen_overwrite a)]
  refine .finish _ fun s _ => ?_
  rw [mapDone_overwrite]
  exact .next (mapDone s m)

theorem rootzFinish_overwrite (a : Args) (s : State) (k : Nat) :
    SameBut a (rootzFinish s k) (rootzFinish (overwrite a s) k) := by
  rw [rootzFinish, rootzFinish, rootzDone_eq, rootzDone_eq]
  exact .next _

theorem mapRegion_overwrite (a : Args) (s : State) (v : VA) (p : PA) (n : Nat) (res : Option Word) :
    SameBut a (mapRegion s v p n res) (mapRegion (overwrite a s) v p n res) := by
  unfold mapRegion mapChecked
  split
  · split
    · exact mapFinish_overwrite a s _
    · exact .next (s.raiseHere _ _)
  · exact .next (s.raiseHere _ _)

theorem bodyWalk_overwrite (a b : Args) (s : State) : SameBut a (bodyWalk b s) (bodyWalk b (overwrite a s)) := by
  unfold bodyWalk walkChecked
  split
  · split
    · exact walkFinish_overwrite a s _
    · exact .next (s.raiseHere _ _)
  · exact .next (s.raiseHere _ _)

/-- The body of a command reads its latched operands alone. -/
theorem bodyOf_overwrite (i : Instr) (a b : Args) (s : State) :
    SameBut a (bodyOf i b s) (bodyOf i b (overwrite a s)) := by
  cases i with
  | adec => exact .next (s.setFields (splitVA ⟨b.a0⟩)).complete
  | pinit => exact .next (s.setRes0 (initWord b.a0)).complete
  | pframe => exact .next (s.setRes0 (frameAddr b.a0)).complete
  | ppres => exact .next (s.setRes0 (if isPresent b.a0 then 1 else 0)).complete
  | pget =>
    simp only [bodyOf, bodyPget]
    split
    · exact .next (s.raiseHere _ _)
    · exact .next (s.setRes0 _).complete
  | pset =>
    simp only [bodyOf, bodyPset]
    split
    · exact .next (s.raiseHere _ _)
    · split
      · exact .next (s.setRes0 _).complete
      · exact .next (s.raiseHere _ _)
  | einit =>
    simp only [bodyOf, bodyEinit]
    split
    · rw [memWrite_changed (unseen_overwrite a)]
      exact .finish _ fun s _ => .next s.complete
    · exact .next (s.raiseHere _ _)
  | walk => exact bodyWalk_overwrite a b s
  | map => exact mapRegion_overwrite a s _ _ _ _
  | mapdesc =>
    simp only [bodyOf, bodyMapdesc, descChecked]
    change SameBut a _ (if mappedType s.cfg _ _ = true then _ else _)
    split
    · exact mapRegion_overwrite a s _ _ _ _
    · exact .next (s.setRes0 0).complete
  | mapfb => exact mapRegion_overwrite a s _ _ _ _
  | rootz => exact rootzFinish_overwrite a s 0
  | enable => exact .next ((writeCr3 s (rootBase s.cfg)).setPhase .active).complete

/-- Settles O49: at whatever point the command stands. -/
theorem operandWritesDoNotReachARunningCommand : Obligations.OperandWritesDoNotReachARunningCommand := by
  intro s t v0 v1 v2 v3 hb
  suffices h : SameBut ⟨v0, v1, v2, v3⟩ (runOn s) (runOn (overwrite ⟨v0, v1, v2, v3⟩ s)) from h t
  obtain ⟨j, hs⟩ := Option.isSome_iff_exists.1 hb
  have hs' : (overwrite ⟨v0, v1, v2, v3⟩ s).seq = some j := hs
  obtain ⟨i, a, task⟩ := j
  simp only [runOn, hs, hs']
  cases task with
  | start => exact bodyOf_overwrite i _ a s
  | walk w => exact walkFinish_overwrite _ s w
  | map m => exact mapFinish_overwrite _ s m
  | rootz k => exact rootzFinish_overwrite _ s k

end Sys2Proof.Laws
end

section
/-! SUPPORT. Table memory: the root's page and the frames handed to the block. What other agents may not do with it in
POPULATING, and that it only grows until a reset (rule R64, rule R254). -/

namespace Sys2Proof.Laws
open Sys2Proof.Machine

theorem mem_handedFrames {s : State} {f : PA} :
    f ∈ handedFrames s ↔ f ∈ s.granted ∨ (awaitsAllocator s = true ∧ s.answers.head? = some (.frame f)) := by
  unfold handedFrames portAnswer
  cases awaitsAllocator s with
  | false => simp
  | true =>
    cases s.answers with
    | nil => simp
    | cons r rest =>
      cases r with
      | exhausted => simp
      | frame g => simp [or_comm, eq_comm]

theorem tableByte_iff {s : State} {a : Nat} :
    tableByte s a = true ↔
      a / 4096 = s.cfg.rootFrame.toNat ∨ ∃ f ∈ handedFrames s, f.toNat ≤ a ∧ a < f.toNat + 4096 := by
  simp [tableByte]

theorem touchesTables_iff {s : State} {a n : Nat} :
    touchesTables s a n = true ↔ ∃ k < n, tableByte s (a + k) = true := by
  simp [touchesTables]

theorem not_touchesTables {s : State} {a n : Nat} (h : ∀ k < n, tableByte s (a + k) = false) :
    ¬ touchesTables s a n = true := by
  rw [touchesTables_iff]
  rintro ⟨k, hk, ht⟩
  rw [h k hk] at ht
  cases ht

/-! The accesses of other agents (rule R254). -/

theorem agentStoreStep_refused {s : State} {a : Nat} {bytes : List Byte} (hl : a + bytes.length ≤ 2 ^ 64)
    (hp : s.phase = .populating) (ht : ∃ k < bytes.length, tableByte s (a + k) = true) :
    agentStoreStep a bytes s = .refused (.tableMemoryShared a) :=
  (if_neg (Nat.not_lt.2 hl)).trans (if_pos ⟨hp, touchesTables_iff.2 ht⟩)

theorem agentStoreStep_performed {s : State} {a : Nat} {bytes : List Byte} (hl : a + bytes.length ≤ 2 ^ 64)
    (h : s.phase ≠ .populating ∨ ∀ k < bytes.length, tableByte s (a + k) = false) :
    agentStoreStep a bytes s = .next (s.setMem (s.mem.writeBytes a bytes)) :=
  (if_neg (Nat.not_lt.2 hl)).trans (if_neg fun ⟨hp, ht⟩ => h.elim (absurd hp) fun h => not_touchesTables h ht)

theorem agentLoadStep_refused {s : State} {a : Nat} (hl : a + 8 ≤ 2 ^ 64) (hp : s.phase = .populating)
    (hb : s.busy = true) (ht : ∃ k < 8, tableByte s (a + k) = true) :
    agentLoadStep a s = .refused (.tableMemoryShared a) :=
  (if_neg (Nat.not_lt.2 hl)).trans (if_pos ⟨hp, hb, touchesTables_iff.2 ht⟩)

theorem agentLoadStep_performed {s : State} {a : Nat} (hl : a + 8 ≤ 2 ^ 64)
    (h : s.phase ≠ .populating ∨ s.seq = none ∨ ∀ k < 8, tableByte s (a + k) = false) :
    agentLoadStep a s = .next (s.setHostData (s.mem.read64 a)) := by
  refine (if_neg (Nat.not_lt.2 hl)).trans (if_neg ?_)
  rintro ⟨hp, hb, ht⟩
  obtain h | h | h := h
  · exact h hp
  · rw [State.busy, h] at hb
    cases hb
  · exact not_touchesTables h ht

theorem cpuTouchStep_populating {s : State} (h : s.phase = .populating) (va : VA) (writes : Bool) (setA : BitVec 4)
    (setD : Bool) : cpuTouchStep va writes setA setD s = .refused (.walkBeforeEnable va) := by
  rw [cpuTouchStep, h]

theorem cpuTouchStep_rootNotLoaded {s : State} (h : s.phase = .uninit) (hp : s.pagingReg ≠ rootBase s.cfg) (va : VA)
    (writes : Bool) (setA : BitVec 4) (setD : Bool) :
    cpuTouchStep va writes setA setD s = .refused (.rootNotLoaded va) := by
  simp only [cpuTouchStep, h, if_neg hp]

/-- Taking an input off the list leaves table memory alone. -/
@[simp] theorem tableByte_setInputs (s : State) (is : List Input) (a : Nat) :
    tableByte (s.setInputs is) a = tableByte s a := rfl

/-- The step on the environment's next input. -/
theorem step_input {s : State} {x : Input} {rest : List Input} (h : s.inputs = x :: rest) :
    step s = inputStep x (s.setInputs rest) := by
  rw [step, nextInput, h]

/-- Settles O53: each access is one check, in the state from which the input has been taken. -/
theorem environmentDutiesAreRefused : Obligations.EnvironmentDutiesAreRefused := by
  intro s a rest
  refine ⟨?_, fun bytes hl hx => ⟨fun hp ht => ?_, fun h => ?_⟩, fun hl hx => ⟨fun hp hb ht => ?_, fun h => ?_⟩,
    fun va writes setA setD hx => ⟨fun hp => ?_, fun hp hr => ?_⟩⟩
  · simp only [tableByte_iff, mem_handedFrames]
  · rw [step_input hx]
    exact agentStoreStep_refused hl hp ht
  · refine ⟨s.mem.writeBytes a bytes, ?_, fun k hk => byte_writeBytes_same hk, fun b hb => byte_writeBytes_other hb⟩
    rw [step_input hx]
    exact agentStoreStep_performed hl h
  · rw [step_input hx]
    exact agentLoadStep_refused hl hp hb ht
  · rw [step_input hx]
    exact agentLoadStep_performed hl h
  · rw [step_input hx]
    exact cpuTouchStep_populating (s := s.setInputs rest) hp va writes setA setD
  · rw [step_input hx]
    exact cpuTouchStep_rootNotLoaded (s := s.setInputs rest) hp hr va writes setA setD

/-! Frames handed to the block: a running command takes the answer it waits for before anything else. -/

/-- The frames `G` are among those the block has taken. -/
def Covers (G : List PA) (s : State) : Prop := ∀ f ∈ G, f ∈ s.granted

theorem Covers.of_granted {G : List PA} {s t : State} (h : Covers G s) (hg : t.granted = s.granted) : Covers G t :=
  fun f hf => hg ▸ h f hf

theorem Covers.take {G : List PA} {s : State} (h : Covers G s) (r : AllocAnswer) (rest : List AllocAnswer) :
    Covers G (s.takeAnswer r rest) :=
  fun f hf => takeAnswer_granted_subset s r rest (h f hf)

theorem kept_covers (G : List PA) : Kept (Covers G) where
  write _ h _ := h
  zero h _ := h
  count h := h
  take r rest h := h.take r rest

/-- The frames `G` are among those taken, and the one answered when the walker call waits for it. -/
def Owed (G : List PA) (s : State) (w : WalkJob) : Prop :=
  ∀ f ∈ G, f ∈ s.granted ∨ (w.point = .allocWait ∧ s.answers.head? = some (.frame f))

section
variable {G : List PA} {s t : State} {w : WalkJob}

theorem Owed.covers_of_point (h : Owed G s w) (hp : w.point ≠ .allocWait) : Covers G s :=
  fun f hf => (h f hf).resolve_right fun ⟨point, _⟩ => hp point

theorem Owed.covers_of_nil (h : Owed G s w) (ha : s.answers = []) : Covers G s :=
  fun f hf => (h f hf).resolve_right fun ⟨_, head⟩ => by rw [ha] at head; cases head

theorem Owed.covers_take {r : AllocAnswer} {rest : List AllocAnswer} (h : Owed G s w) (ha : s.answers = r :: rest) :
    Covers G (s.takeAnswer r rest) := by
  intro f hf
  obtain taken | ⟨-, head⟩ := h f hf
  · exact takeAnswer_granted_subset s r rest taken
  · rw [ha] at head
    cases head
    exact List.mem_cons_self

theorem Owed.resolveFrom (h : Owed G s w) (hw : walkOk w) :
    Yields (Covers G) walkOk (frameOk · = true) (resolveFrom s w) := by
  by_cases hp : w.point = .allocWait
  · rw [Machine.resolveFrom, hp]
    cases ha : s.answers with
    | nil => exact walkAlloc_yields (kept_covers G) (h.covers_of_nil ha) hw
    | cons r rest =>
      have taken := h.covers_take ha
      rw [walkAlloc_some ha]
      exact walkAnswer_yields taken fun f hf => walkZero_yields (kept_covers G) 0 taken hf
  · exact resolveFrom_yields (kept_covers G) (h.covers_of_point hp) hw

theorem Owed.walkTick (h : Owed G s w) (hw : walkOk w) : Yields (Covers G) walkOk walkNextOk (walkTick s w) := by
  by_cases hp : w.point = .allocWait
  · cases ha : s.answers with
    | nil => exact walkTick_yields (kept_covers G) (h.covers_of_nil ha) hw
    | cons r rest =>
      have taken := h.covers_take ha
      rw [Machine.walkTick, hp]
      simp only [allocFrame_eq_some_iff.2 ⟨rest, ha, rfl⟩]
      exact walkAnswer_yields taken fun f hf => ⟨taken, hw.1, hw.2.1, hf, by decide⟩
  · exact walkTick_yields (kept_covers G) (h.covers_of_point hp) hw

/-- A part of the running command that keeps the frames leaves them, however the command goes on from it. -/
theorem covers_finish {ω α : Type} {W : ω → Prop} {A : α → Prop} {r : Run ω α} {hold : ω → Task}
    {k : State → α → Result} (hr : Yields (Covers G) W A r) (hk : ∀ s x, k s x = .next t → t.granted = s.granted)
    (e : r.finish hold k = .next t) : Covers G t := by
  cases r with
  | ok s x => exact hr.1.of_granted (hk s x e)
  | raise s f info => cases e; exact hr
  | wait s w => cases e; exact hr.1
  | stop f => cases e

theorem Owed.walkFinish (h : Owed G s w) (hw : walkOk w) (e : walkFinish s w = .next t) : Covers G t :=
  covers_finish (h.resolveFrom hw) (fun s x e => by cases e; rfl) e

theorem Owed.walkCommandTick (h : Owed G s w) (hw : walkOk w) (e : walkCommandTick s w = .next t) : Covers G t :=
  covers_finish (h.walkTick hw) (fun s x e => by cases x <;> cases e <;> rfl) e

end

theorem mapDone_granted (s : State) (m : MapJob) : (mapDone s m).granted = s.granted := by
  rw [mapDone_eq]

/-- What a mapping command owes at the point it has reached. -/
def OwedAt (G : List PA) (s : State) : PagePoint → Prop
  | .walking _ w => Owed G s w
  | .leaf _ => Covers G s

section
variable {G : List PA} {s t : State} {m : MapJob}

theorem OwedAt.pageFinish (h : OwedAt G s m.point) (hm : mapOk m) :
    Yields (Covers G) mapOk (fun _ => True) (pageFinish s m) := by
  obtain ⟨-, -, -, point⟩ := id hm
  cases hp : m.point with
  | leaf pt => rw [hp] at h; exact pageFinish_yields (kept_covers G) h hm
  | walking l w =>
    rw [hp] at h point
    rw [pageFinish_walking s hp]
    exact (Owed.resolveFrom h point).bind (fun _ hw => mapOk_walking hm hw) fun s' t' taken ht =>
      pageFinish_yields (kept_covers G) taken (mapOk_pageAfterWalk hm l ht)

theorem OwedAt.mapFinish (h : OwedAt G s m.point) (hm : mapOk m) (e : mapFinish s m = .next t) : Covers G t := by
  obtain ⟨hv, hp, hlt, -⟩ := id hm
  obtain ⟨n, hn⟩ : ∃ n, m.pages - m.i = n + 1 := ⟨m.pages - m.i - 1, by omega⟩
  rw [Machine.mapFinish, hn] at e
  refine covers_finish (W := mapOk) (A := fun _ => True) ?_
    (fun s _ e => by cases e; exact mapDone_granted s m) e
  refine (h.pageFinish hm).bind (fun _ => id) fun s' _ taken _ => ?_
  refine mapPages_yields (kept_covers G) n ?_ taken fun h0 => mapOk_atPage hv hp (by omega) s'.cfg
  change n ≤ m.pages - (m.i + 1)
  omega

theorem OwedAt.mapTick (h : OwedAt G s m.point) (hm : mapOk m) (e : mapTick s m = .next t) : Covers G t := by
  obtain ⟨-, -, hlt, point⟩ := id hm
  unfold Machine.mapTick at e
  rw [if_pos hlt] at e
  cases hp : m.point with
  | walking l w =>
    rw [hp] at h point
    simp only [hp] at e
    exact covers_finish (Owed.walkTick h point) (fun s x e => by cases x <;> cases e <;> rfl) e
  | leaf pt =>
    rw [hp] at h
    simp only [hp] at e
    refine covers_finish (leafWrite_yields (kept_covers G) mapOk m pt h) (fun s _ e => ?_) e
    split at e <;> cases e
    · rfl
    · exact mapDone_granted s m

end

/-! The other steps of a command take no frame, or only add some. -/

section
variable {s t : State}

theorem bodyOf_granted {i : Instr} {a : Args} (e : bodyOf i a s = .next t) : s.granted ⊆ t.granted := by
  obtain ⟨fs, ended, -⟩ := bodyOf_ended e
  cases ended with
  | completed _ took done =>
    obtain ⟨-, -, -, granted⟩ := done
    rw [granted, took.1]
    exact List.subset_append_right _ _
  | waits _ took task h =>
    rw [h, State.suspend_granted, took.1]
    exact List.subset_append_right _ _
  | faulted _ f info took _ hg h =>
    rw [h, State.raiseHere_granted, hg, took.1]
    exact List.Subset.trans (List.subset_append_right _ _) (List.subset_append_right _ _)

theorem mapChecked_enterMap_granted {v : VA} {p : PA} {n : Nat} {res : Option Word}
    (e : mapChecked s v p n res (enterMap s) = .next t) : t.granted = s.granted := by
  unfold mapChecked enterMap at e
  split at e
  · split at e
    · split at e <;> cases e
      · rfl
      · exact mapDone_granted s _
    · cases e; rfl
  · cases e; rfl

theorem startTick_granted {i : Instr} {a : Args} (e : startTick i a s = .next t) : s.granted ⊆ t.granted := by
  have alone (h : startTick i a s = bodyOf i a s) : s.granted ⊆ t.granted := bodyOf_granted (h.symm.trans e)
  cases i with
  | walk =>
    simp only [startTick, walkChecked] at e
    split at e
    · split at e <;> cases e <;> exact List.Subset.refl _
    · cases e; exact List.Subset.refl _
  | map => exact (mapChecked_enterMap_granted e).symm ▸ List.Subset.refl _
  | mapdesc =>
    simp only [startTick, descChecked] at e
    split at e
    · exact (mapChecked_enterMap_granted e).symm ▸ List.Subset.refl _
    · cases e; exact List.Subset.refl _
  | mapfb => exact (mapChecked_enterMap_granted e).symm ▸ List.Subset.refl _
  | rootz => cases e; exact List.Subset.refl _
  | _ => exact alone rfl

theorem rootzTick_granted {k : Nat} (e : rootzTick s k = .next t) : t.granted = s.granted := by
  unfold rootzTick at e
  split at e
  · split at e <;> cases e <;> rfl
  · cases e; rfl

/-! The frames handed to the block, before and after a move of the sequencer. -/

theorem Covers.of_not_awaiting (h : awaitsAllocator s = false) : Covers (handedFrames s) s := by
  intro f hf
  obtain taken | ⟨awaits, -⟩ := mem_handedFrames.1 hf
  · exact taken
  · rw [h] at awaits
    cases awaits

theorem Covers.of_idle (hs : s.seq = none) : Covers (handedFrames s) s :=
  .of_not_awaiting (by rw [awaitsAllocator, hs])

theorem Covers.subset {G : List PA} (h : Covers G s) (hg : s.granted ⊆ t.granted) : Covers G t :=
  fun f hf => hg (h f hf)

theorem owed_walk {i : Instr} {a : Args} {w : WalkJob} (hs : s.seq = some ⟨i, a, .walk w⟩) :
    Owed (handedFrames s) s w := by
  intro f hf
  refine (mem_handedFrames.1 hf).imp id fun ⟨awaits, head⟩ => ⟨?_, head⟩
  obtain ⟨t, j, p⟩ := w
  cases p with
  | allocWait => rfl
  | _ => rw [awaitsAllocator, hs] at awaits; cases awaits

theorem owedAt_map {i : Instr} {a : Args} {m : MapJob} (hs : s.seq = some ⟨i, a, .map m⟩) :
    OwedAt (handedFrames s) s m.point := by
  obtain ⟨v, p, n, k, point, res⟩ := m
  cases point with
  | leaf pt => exact .of_not_awaiting (by rw [awaitsAllocator, hs])
  | walking l w =>
    intro f hf
    refine (mem_handedFrames.1 hf).imp id fun ⟨awaits, head⟩ => ⟨?_, head⟩
    obtain ⟨t, j, q⟩ := w
    cases q with
    | allocWait => rfl
    | _ => rw [awaitsAllocator, hs] at awaits; cases awaits

theorem tick_covers (hi : Inv s) (e : tick s = .next t) : Covers (handedFrames s) t := by
  cases hs : s.seq with
  | none => rw [tick_idle hs] at e; cases e; exact .of_idle hs
  | some j =>
    obtain ⟨-, ok⟩ := hi.job j hs
    obtain ⟨i, a, task⟩ := j
    simp only [tick, hs] at e
    cases task with
    | start =>
      have before : Covers (handedFrames s) s := .of_not_awaiting (by rw [awaitsAllocator, hs])
      exact before.subset (startTick_granted e)
    | walk w => exact (owed_walk hs).walkCommandTick ok.2 e
    | map m => exact (owedAt_map hs).mapTick ok.2 e
    | rootz k =>
      have before : Covers (handedFrames s) s := .of_not_awaiting (by rw [awaitsAllocator, hs])
      exact before.of_granted (rootzTick_granted e)

theorem runOn_covers (hi : Inv s) (e : runOn s = .next t) : Covers (handedFrames s) t := by
  cases hs : s.seq with
  | none => rw [runOn_idle hs] at e; cases e; exact .of_idle hs
  | some j =>
    obtain ⟨-, ok⟩ := hi.job j hs
    obtain ⟨i, a, task⟩ := j
    simp only [runOn, hs] at e
    cases task with
    | start =>
      have before : Covers (handedFrames s) s := .of_not_awaiting (by rw [awaitsAllocator, hs])
      exact before.subset (bodyOf_granted e)
    | walk w => exact (owed_walk hs).walkFinish ok.2 e
    | map m => exact (owedAt_map hs).mapFinish ok.2 e
    | rootz k =>
      have before : Covers (handedFrames s) s := .of_not_awaiting (by rw [awaitsAllocator, hs])
      cases e
      exact before

/-- A request left behind takes its answer with it (log entry 26). -/
theorem interrupt_covers (c : Word) : Covers (handedFrames s) (s.interrupt c) := by
  intro f hf
  obtain ⟨awaits, r⟩ | ⟨-, ha, r⟩ | ⟨-, x, rest, ha, r⟩ := interrupt_cases s c <;> rw [r]
  · exact Covers.of_not_awaiting awaits f hf
  · exact (mem_handedFrames.1 hf).resolve_right fun ⟨_, head⟩ => by rw [ha] at head; cases head
  · obtain taken | ⟨-, head⟩ := mem_handedFrames.1 hf
    · exact takeAnswer_granted_subset s x rest taken
    · rw [ha] at head
      cases head
      exact List.mem_cons_self

theorem issue_covers {i : Instr} {body : Args → State → Result}
    (hbody : body s.latchArgs (s.latch i) = .next t → s.granted ⊆ t.granted) (e : issue i body s = .next t) :
    t = s ∨ Covers (handedFrames s) t := by
  obtain ⟨-, r⟩ | ⟨-, -, r⟩ | ⟨-, hs, -, r⟩ | ⟨-, hs, -, r⟩ := issue_cases i body s <;> rw [r] at e
  · cases e; exact .inl rfl
  · cases e; exact .inr (interrupt_covers _)
  · cases e; exact .inr (Covers.of_idle hs)
  · exact .inr ((Covers.of_idle hs).subset (hbody e))

theorem issueIllegal_covers (c : Word) : issueIllegal c s = s ∨ Covers (handedFrames s) (issueIllegal c s) := by
  unfold issueIllegal
  split
  · exact .inl rfl
  · split
    · exact .inr (interrupt_covers c)
    · rename_i hb
      exact .inr (Covers.of_idle (State.busy_eq_false.1 (Bool.eq_false_iff.2 hb)))

theorem commandWrite_covers {c : Word} (e : commandWrite c s = .next t) : t = s ∨ Covers (handedFrames s) t := by
  unfold commandWrite at e
  split at e
  · rw [exec_eq_issue] at e
    exact issue_covers bodyOf_granted e
  · cases e; exact issueIllegal_covers c

theorem commandAccept_covers {c : Word} (e : commandAccept c s = .next t) : t = s ∨ Covers (handedFrames s) t := by
  unfold commandAccept at e
  split at e
  · exact issue_covers (fun e => by cases e; exact List.Subset.refl _) e
  · cases e; exact issueIllegal_covers c

end

/-! Table memory over a step. -/

/-- Every frame handed to the block stays one. -/
def HandedKept (s t : State) : Prop := handedFrames s ⊆ handedFrames t

section
variable {s t : State}

theorem Covers.handedKept (h : Covers (handedFrames s) t) : HandedKept s t :=
  fun f hf => mem_handedFrames.2 (.inl (h f hf))

theorem HandedKept.of_command (h : t = s ∨ Covers (handedFrames s) t) : HandedKept s t := by
  obtain rfl | h := h
  · exact List.Subset.refl _
  · exact h.handedKept

/-- The sequencer and the port stay, and the frames taken do. -/
theorem HandedKept.of_port (hs : t.seq = s.seq) (ha : t.answers = s.answers) (hg : s.granted ⊆ t.granted) :
    HandedKept s t := by
  intro f hf
  obtain taken | ⟨awaits, head⟩ := mem_handedFrames.1 hf
  · exact mem_handedFrames.2 (.inl (hg taken))
  · have same : awaitsAllocator t = awaitsAllocator s := by rw [awaitsAllocator, awaitsAllocator, hs]
    exact mem_handedFrames.2 (.inr ⟨same.trans awaits, by rw [ha]; exact head⟩)

theorem plainAccess_handedKept (r : HostReg) (op : HostOp) : HandedKept s (plainAccess s r op) := by
  cases op with
  | read => exact List.Subset.refl _
  | write v => cases r <;> exact List.Subset.refl _

theorem hostStep_handedKept {a : HostAccess} (e : hostStep a s = .next t) : HandedKept s t := by
  unfold hostStep at e
  split at e
  · split at e
    · exact .of_command (commandWrite_covers e)
    · cases e; exact plainAccess_handedKept _ _
  · cases e

theorem answerStep_handedKept (r : AllocAnswer) : HandedKept s (answerStep r s) := by
  unfold answerStep
  split
  · exact .of_port rfl rfl (takeAnswer_granted_subset s r s.answers)
  · split
    · rename_i h
      rw [Bool.and_eq_true, List.isEmpty_iff] at h
      intro f hf
      refine mem_handedFrames.2 (.inl ((mem_handedFrames.1 hf).resolve_right fun ⟨_, head⟩ => ?_))
      rw [h.2] at head
      cases head
    · exact List.Subset.refl _

theorem cpuWalk_handedKept {va : VA} {writes : Bool} {setA : BitVec 4} {setD : Bool}
    (e : cpuWalk va writes setA setD s = .next t) : HandedKept s t := by
  unfold cpuWalk at e
  split at e <;> cases e
  exact .of_port rfl rfl (List.Subset.refl _)

theorem cpuTouchStep_handedKept {va : VA} {writes : Bool} {setA : BitVec 4} {setD : Bool}
    (e : cpuTouchStep va writes setA setD s = .next t) : HandedKept s t := by
  unfold cpuTouchStep at e
  split at e
  · exact cpuWalk_handedKept e
  · cases e
  · split at e
    · exact cpuWalk_handedKept e
    · cases e

theorem agentStoreStep_handedKept {a : Nat} {bytes : List Byte} (e : agentStoreStep a bytes s = .next t) :
    HandedKept s t := by
  unfold agentStoreStep at e
  split at e
  · cases e
  · split at e <;> cases e
    exact .of_port rfl rfl (List.Subset.refl _)

theorem agentLoadStep_handedKept {a : Nat} (e : agentLoadStep a s = .next t) : HandedKept s t := by
  unfold agentLoadStep at e
  split at e
  · cases e
  · split at e <;> cases e
    exact .of_port rfl rfl (List.Subset.refl _)

theorem waitStep_handedKept (hi : Inv s) (e : waitStep s = .next t) : HandedKept s t := by
  obtain ⟨-, e⟩ | ⟨-, rfl⟩ := waitStep_next e
  · have polled := (environmentOnly_poll s s.statusWord (.wait :: s.inputs)).inv hi hi.memory hi.orphan
    exact (tick_covers polled e).handedKept
  · exact .of_port rfl rfl (List.Subset.refl _)

theorem step_handedKept (hi : Inv s) (e : step s = .next t) (hr : s.inputs.head? ≠ some .reset) : HandedKept s t := by
  unfold step nextInput at e
  split at e
  · cases e; exact List.Subset.refl _
  · rename_i x rest hx
    have hi' : Inv (s.setInputs rest) := { hi with }
    change HandedKept (s.setInputs rest) t
    cases x with
    | host a => exact hostStep_handedKept e
    | issue c => exact .of_command (commandAccept_covers e)
    | tick => exact (tick_covers hi' e).handedKept
    | run => exact (runOn_covers hi' e).handedKept
    | wait => exact waitStep_handedKept hi' e
    | answer r => cases e; exact answerStep_handedKept r
    | cpuTouch va writes setA setD => exact cpuTouchStep_handedKept e
    | agentStore a bytes => exact agentStoreStep_handedKept e
    | agentLoad a => exact agentLoadStep_handedKept e
    | reset => exact absurd (by rw [hx]; rfl) hr

theorem CommandEffect.cfg {i : Instr} (h : CommandEffect i s t) : t.cfg = s.cfg := by
  cases h with
  | only h => rw [h]
  | rootz m => rfl
  | enable => simp

theorem step_cfg (hi : Inv s) (e : step s = .next t) : t.cfg = s.cfg := by
  cases step_effect hi e with
  | reset _ ht => rw [ht]; rfl
  | environment h => exact h.cfg
  | raised _ h _ _ _ ht => rw [ht]; exact h.cfg
  | accepted _ h _ _ ht => rw [ht]; exact h.cfg
  | command _ h i _ _ he => exact he.cfg.trans h.cfg

end

/-- Settles O54: the root's page stays, and every frame handed to the block stays one. -/
theorem tableMemoryOnlyGrows : Obligations.TableMemoryOnlyGrows := by
  intro s t hi e hr a
  rw [tableByte_iff, tableByte_iff, step_cfg hi e]
  exact Or.imp id fun ⟨f, hf, bounds⟩ => ⟨f, step_handedKept hi e hr hf, bounds⟩

end Sys2Proof.Laws
end

section
/-! SUPPORT. The accessed and dirty updates of the CPU's walk: the bits they set in the entries on its path, and that
they change no translation (rule R61, rule R70). -/

namespace Sys2Proof.Laws
open Sys2Proof.Machine

/-! One update. -/

/-- The address of an entry of a table at a frame (rule R55). -/
def IsEntry (a : Nat) : Prop := ∃ t j, frameOk t = true ∧ a = entryAt t j

theorem isEntry_entryAt {t : PA} (ht : frameOk t = true) (j : BitVec 9) : IsEntry (entryAt t j) := ⟨t, j, ht, rfl⟩

theorem IsEntry.apart {a b : Nat} (ha : IsEntry a) (hb : IsEntry b) (h : a ≠ b) : a + 8 ≤ b ∨ b + 8 ≤ a := by
  obtain ⟨t, j, ht, rfl⟩ := ha
  obtain ⟨t', j', ht', rfl⟩ := hb
  exact entryAt_apart ht ht' fun ⟨ht, hj⟩ => h (by rw [ht, hj])

theorem read64_setEntryBits {m : Memory} {a e : Nat} {bits : Word} (ha : IsEntry a) (he : IsEntry e) :
    (setEntryBits m a bits).read64 e = if a = e then m.read64 e ||| bits else m.read64 e := by
  split
  · next h => subst h; exact read64_write64_same m a _
  · next h => exact read64_write64_other (he.apart ha (Ne.symm h))

theorem getLsbD_touchBits {k b : Nat} {writes setD : Bool} {setA : BitVec 4} :
    (touchBits k writes setA setD).getLsbD b = true ↔
      (b = 5 ∧ setA.getLsbD (3 - k) = true) ∨ (b = 6 ∧ k = 3 ∧ writes = true ∧ setD = true) := by
  have accessed : (0x20 : Word) = BitVec.twoPow 64 5 := by decide
  have dirty : (0x40 : Word) = BitVec.twoPow 64 6 := by decide
  have bit {n : Nat} (hn : n < 64) : (BitVec.twoPow 64 n).getLsbD b = true ↔ b = n := by
    rw [BitVec.getLsbD_twoPow]
    simp [hn, eq_comm]
  rw [touchBits, BitVec.getLsbD_or, Bool.or_eq_true, accessed, dirty]
  refine or_congr ?_ ?_
  · split
    · next set => rw [bit (by decide)]; exact (and_iff_left set).symm
    · next clear => simp [clear]
  · split
    · next set => rw [bit (by decide)]; exact (and_iff_left set).symm
    · next clear => simp [clear]

/-! The updates of a walk. -/

section
variable {writes setD : Bool} {setA : BitVec 4} {as : List Nat}

/-- An entry after the updates: the bits it had, and those set at each of its places on the path. -/
theorem getLsbD_touchEntries {e b : Nat} (he : IsEntry e) (has : ∀ a ∈ as, IsEntry a) : ∀ (k : Nat) (m : Memory),
    ((touchEntries writes setA setD k as m).read64 e).getLsbD b = true ↔ (m.read64 e).getLsbD b = true ∨
      ∃ i, as[i]? = some e ∧ (touchBits (k + i) writes setA setD).getLsbD b = true := by
  induction as with
  | nil => simp [touchEntries]
  | cons a as ih =>
    intro k m
    have first := read64_setEntryBits (m := m) (bits := touchBits k writes setA setD) (has a List.mem_cons_self) he
    have places : (∃ i, (a :: as)[i]? = some e ∧ (touchBits (k + i) writes setA setD).getLsbD b = true) ↔
        (a = e ∧ (touchBits k writes setA setD).getLsbD b = true) ∨
          ∃ i, as[i]? = some e ∧ (touchBits (k + 1 + i) writes setA setD).getLsbD b = true := by
      constructor
      · rintro ⟨_ | i, hi, hb⟩
        · exact .inl ⟨Option.some.inj hi, hb⟩
        · exact .inr ⟨i, hi, by rwa [Nat.add_assoc, Nat.add_comm 1 i]⟩
      · rintro (⟨rfl, hb⟩ | ⟨i, hi, hb⟩)
        · exact ⟨0, rfl, hb⟩
        · exact ⟨i + 1, hi, by rwa [Nat.add_comm i 1, ← Nat.add_assoc]⟩
    rw [touchEntries, ih (fun b hb => has b (List.mem_cons_of_mem a hb)), first, places]
    by_cases h : a = e
    · simp [h, or_assoc]
    · simp [h]

theorem byte_touchEntries {x : Nat} (hx : ∀ a ∈ as, x < a ∨ a + 8 ≤ x) : ∀ (k : Nat) (m : Memory),
    (touchEntries writes setA setD k as m).byte x = m.byte x := by
  induction as with
  | nil => exact fun _ _ => rfl
  | cons a as ih =>
    intro k m
    rw [touchEntries, ih fun b hb => hx b (List.mem_cons_of_mem a hb)]
    exact byte_write64_other (hx a List.mem_cons_self)

end

/-! Translations (rule R61). -/

/-- The entries of `m'` are those of `m`, but for the accessed and dirty bits. -/
def SameBits (m m' : Memory) : Prop :=
  ∀ a, IsEntry a → ∀ b, b ≠ 5 → b ≠ 6 → (m'.read64 a).getLsbD b = (m.read64 a).getLsbD b

theorem frameAddr_congr {e e' : Word} (h : ∀ b, b ≠ 5 → b ≠ 6 → e'.getLsbD b = e.getLsbD b) :
    frameAddr e' = frameAddr e := by
  have field : e'.extractLsb' 12 40 = e.extractLsb' 12 40 := by
    apply BitVec.eq_of_getLsbD_eq
    intro k hk
    rw [BitVec.getLsbD_extractLsb', BitVec.getLsbD_extractLsb', h _ (by omega) (by omega)]
  rw [frameAddr, frameAddr, field]

theorem translateFrom_congr {m m' : Memory} (h : SameBits m m') (l : LinearAddress) (levels : List (Level × BitVec 9)) :
    ∀ {t : PA}, frameOk t = true → translateFrom m' l levels t = translateFrom m l levels t := by
  induction levels with
  | nil =>
    intro t ht
    have bits := h _ (isEntry_entryAt ht l.i1)
    have present : isPresent (m'.read64 (entryAt t l.i1)) = isPresent (m.read64 (entryAt t l.i1)) :=
      bits 0 (by decide) (by decide)
    rw [translateFrom, translateFrom, present, frameAddr_congr bits]
  | cons x levels ih =>
    intro t ht
    obtain ⟨level, j⟩ := x
    have bits := h _ (isEntry_entryAt ht j)
    have present : isPresent (m'.read64 (entryAt t j)) = isPresent (m.read64 (entryAt t j)) :=
      bits 0 (by decide) (by decide)
    rw [translateFrom, translateFrom, present, bits 7 (by decide) (by decide), frameAddr_congr bits,
      ih (frameOk_frameAddr _)]

/-- A walk that answers an address reads an entry of every level. -/
theorem length_walkPath {m : Memory} {l : LinearAddress} {x : PA} {levels : List (Level × BitVec 9)} :
    ∀ {t : PA}, translateFrom m l levels t = .mapped x →
      (walkPath m (levels.map Prod.snd ++ [l.i1]) t).length = levels.length + 1 := by
  induction levels with
  | nil =>
    intro t _
    simp only [List.map_nil, List.nil_append, walkPath]
    split <;> rfl
  | cons y levels ih =>
    intro t h
    obtain ⟨level, j⟩ := y
    simp only [translateFrom] at h
    split at h
    · split at h
      · cases h
      · simp [walkPath, *, ih h]
    · cases h

theorem length_touchedEntries {m : Memory} {r x : PA} {va : VA} (h : translateVA m r va = .mapped x) :
    (touchedEntries m r va).length = 4 := length_walkPath h

theorem isEntry_touched {m : Memory} {c : Config} {va : VA} : ∀ a ∈ touchedEntries m (rootBase c) va, IsEntry a :=
  fun _ => entry_of_mem_walkPath (frameOk_rootBase c)

/-! The step. -/

/-- Memory after the CPU's walk of `va`. -/
def touched (s : State) (va : VA) (writes : Bool) (setA : BitVec 4) (setD : Bool) : Memory :=
  touchEntries writes setA setD 0 (touchedEntries s.mem (rootBase s.cfg) va) s.mem

theorem cpuWalk_mapped {s : State} {va : VA} {x : PA} (h : translateVA s.mem (rootBase s.cfg) va = .mapped x)
    (writes : Bool) (setA : BitVec 4) (setD : Bool) :
    cpuWalk va writes setA setD s = .next (s.setMem (touched s va writes setA setD)) := by
  rw [cpuWalk, h]
  rfl

theorem cpuWalk_next {s t : State} {va : VA} {writes : Bool} {setA : BitVec 4} {setD : Bool}
    (e : cpuWalk va writes setA setD s = .next t) : t = s.setMem (touched s va writes setA setD) := by
  unfold cpuWalk at e
  split at e <;> cases e
  rfl

theorem cpuTouchStep_next {s t : State} {va : VA} {writes : Bool} {setA : BitVec 4} {setD : Bool}
    (e : cpuTouchStep va writes setA setD s = .next t) : t = s.setMem (touched s va writes setA setD) := by
  unfold cpuTouchStep at e
  split at e
  · exact cpuWalk_next e
  · cases e
  · split at e
    · exact cpuWalk_next e
    · cases e

theorem cpuTouchStep_walks {s : State} (h : s.CpuWalks) (va : VA) (writes : Bool) (setA : BitVec 4) (setD : Bool) :
    cpuTouchStep va writes setA setD s = cpuWalk va writes setA setD s := by
  obtain active | ⟨uninit, root⟩ := h
  · exact cpuTouchStep_active active va writes setA setD
  · simp only [cpuTouchStep, uninit, if_pos root]

theorem sameBits_touched (s : State) (va : VA) (writes : Bool) (setA : BitVec 4) (setD : Bool) :
    SameBits s.mem (touched s va writes setA setD) := by
  intro a ha b h5 h6
  rw [Bool.eq_iff_iff, touched, getLsbD_touchEntries ha isEntry_touched]
  simp [getLsbD_touchBits, h5, h6]

/-- Settles O59: the walk of any other address reads presence, large-page bits and frames, and those stay. -/
theorem cpuUpdatesKeepTranslations : Obligations.CpuUpdatesKeepTranslations := by
  intro s t va va' writes setA setD rest hx e
  rw [step_input hx] at e
  obtain rfl := cpuTouchStep_next (s := s.setInputs rest) e
  exact translateFrom_congr (sameBits_touched (s.setInputs rest) va writes setA setD) _ _ (frameOk_rootBase s.cfg)

/-- Settles O60: an entry gets the bits of each place it has on the path. -/
theorem cpuWalkSetsAccessedAndDirty : Obligations.CpuWalkSetsAccessedAndDirty := by
  intro s va x writes setA setD rest hw hx hm
  have four := length_touchedEntries hm
  refine ⟨touched s va writes setA setD, ?_, four, fun e he b _ => ?_, fun a ha => byte_touchEntries ha 0 s.mem⟩
  · rw [step_input hx]
    exact (cpuTouchStep_walks (s := s.setInputs rest) hw va writes setA setD).trans
      (cpuWalk_mapped (s := s.setInputs rest) hm writes setA setD)
  · rw [touched, getLsbD_touchEntries (isEntry_touched e he) isEntry_touched]
    refine or_congr Iff.rfl ?_
    simp only [getLsbD_touchBits, Nat.zero_add]
    constructor
    · rintro ⟨k, hk, ⟨hb, ha⟩ | ⟨hb, rfl, hd⟩⟩
      · exact .inl ⟨hb, k, four ▸ (List.getElem?_eq_some_iff.1 hk).1, hk, ha⟩
      · exact .inr ⟨hb, hd.1, hd.2, hk⟩
    · rintro (⟨hb, k, -, hk, ha⟩ | ⟨hb, hw, hd, hk⟩)
      · exact ⟨k, hk, .inl ⟨hb, ha⟩⟩
      · exact ⟨3, hk, .inr ⟨hb, rfl, hw, hd⟩⟩

end Sys2Proof.Laws
end

section
/-! SUPPORT. The inputs one by one: a word written to `CMD`, the sequencer's moves, an answer of the allocator, a poll, a
reset; and the host's input sequences (rule R22, rule R25, rule R90, rule R194, rule R220 to R224, rule R250). -/

namespace Sys2Proof.Laws
open Sys2Proof.Machine

/-- Settles O2: on closed words the decoder runs. -/
theorem sampleWordsDecode : Obligations.SampleWordsDecode := by
  unfold Obligations.SampleWordsDecode
  decide

/-! A word written to `CMD`. -/

theorem step_cmdWrite {s : State} {c : Word} {rest : List Input} (h : s.inputs = cmdWrite c :: rest) :
    step s = commandWrite c (s.setInputs rest) := step_host h

theorem step_issue {s : State} {c : Word} {rest : List Input} (h : s.inputs = .issue c :: rest) :
    step s = commandAccept c (s.setInputs rest) := step_input h

theorem commandWrite_command {c : Word} {i : Instr} (h : decode c = .ok i) (s : State) :
    commandWrite c s = exec i s := by
  rw [commandWrite, h]

theorem commandAccept_command {c : Word} {i : Instr} (h : decode c = .ok i) (s : State) :
    commandAccept c s = accept i s := by
  rw [commandAccept, h]

/-- Settles O3: the decoder's answer is the command executed, or accepted. -/
theorem stepRunsTheCommandWritten : Obligations.StepRunsTheCommandWritten := fun s _ rest _ h =>
  ⟨fun hx => (step_cmdWrite hx).trans (commandWrite_command h (s.setInputs rest)),
    fun hx => (step_issue hx).trans (commandAccept_command h (s.setInputs rest))⟩

/-- Settles O4: each of the two inputs is its move, and no input is none. -/
theorem stepMovesTheSequencer : Obligations.StepMovesTheSequencer := by
  refine fun s rest => ⟨step_input, step_input, fun hx => ?_⟩
  rw [step, nextInput, hx]

/-- A word outside the opcode map is no command (rule R88). -/
theorem decode_illegal {c : Word}
    (h : c.extractLsb' 8 56 ≠ 0 ∨ c.extractLsb' 0 8 = 0 ∨ 0x0E ≤ (c.extractLsb' 0 8).toNat) :
    ∃ e, decode c = .error e := by
  cases hd : decode c with
  | error e => exact ⟨e, rfl⟩
  | ok i =>
    obtain ⟨high, low, bound⟩ := (decodeAgreesWithEncode.2 c).2.1 ⟨i, hd⟩
    obtain h | h | h := h
    · exact absurd high h
    · rw [h] at low
      exact absurd low (by decide)
    · omega

theorem commandWrite_illegal {c : Word} {e : DecodeReject} (h : decode c = .error e) (s : State) :
    commandWrite c s = .next (issueIllegal c s) := by
  rw [commandWrite, h]

theorem issueIllegal_ready {s : State} (h : s.Ready) (c : Word) : issueIllegal c s = recorded s 3 c c := by
  have idle : s.busy = false := State.busy_eq_false.2 h.2
  simp only [issueIllegal, h.1, idle, Bool.false_eq_true, if_false]
  rfl

/-- Settles O5: the decoder rejects the word, and nothing runs that the write could interrupt. -/
theorem illegalWordIsRecorded : Obligations.IllegalWordIsRecorded := by
  intro s c rest hs hx illegal
  obtain ⟨e, he⟩ := decode_illegal illegal
  rw [step_cmdWrite hx, commandWrite_illegal he, issueIllegal_ready (s := s.setInputs rest) hs]
  rfl

/-! A recorded fault halts the block (rule R222). -/

theorem issueIllegal_faulted {s : State} (h : s.faulted = true) (c : Word) : issueIllegal c s = s := by
  simp only [issueIllegal, h, if_true]

theorem commandWrite_faulted {s : State} (h : s.faulted = true) (c : Word) : commandWrite c s = .next s := by
  unfold commandWrite
  split
  · rw [exec_eq_issue]; exact issue_faulted h
  · rw [issueIllegal_faulted h]

theorem commandAccept_faulted {s : State} (h : s.faulted = true) (c : Word) : commandAccept c s = .next s := by
  unfold commandAccept
  split
  · exact issue_faulted h
  · rw [issueIllegal_faulted h]

/-- Settles O6: the first check of a write to `CMD` turns it away; the other accesses do not look at the fault. -/
theorem haltedBlockIgnoresCommands : Obligations.HaltedBlockIgnoresCommands := by
  refine fun s rest hf => ⟨?_, fun v hx => ?_, fun v hx => ?_, fun v hx => ?_, fun v hx => ?_, fun k hk hx => ?_⟩
  · rintro c (hx | hx)
    · exact (step_cmdWrite hx).trans (commandWrite_faulted (s := s.setInputs rest) hf c)
    · exact (step_issue hx).trans (commandAccept_faulted (s := s.setInputs rest) hf c)
  · exact step_write hx rfl (by decide) (by decide)
  · exact step_write hx rfl (by decide) (by decide)
  · exact step_write hx rfl (by decide) (by decide)
  · exact step_write hx rfl (by decide) (by decide)
  · exact step_read hx (by omega) (by omega)

/-! A write to `CMD` while a command runs (rule R223). -/

section
variable {s : State} (hf : s.faulted = false) (hb : s.busy = true)
include hf hb

theorem issueIllegal_busy (c : Word) : issueIllegal c s = s.interrupt c := by
  simp only [issueIllegal, hf, hb, Bool.false_eq_true, if_false, if_true]

theorem commandWrite_busy (c : Word) : commandWrite c s = .next (s.interrupt c) := by
  unfold commandWrite
  split
  · next i hd =>
    rw [exec_eq_issue, eq_encode_of_decode hd]
    exact issue_busy hf hb
  · rw [issueIllegal_busy hf hb]

theorem commandAccept_busy (c : Word) : commandAccept c s = .next (s.interrupt c) := by
  unfold commandAccept
  split
  · next i hd =>
    rw [eq_encode_of_decode hd]
    exact issue_busy hf hb
  · rw [issueIllegal_busy hf hb]

end

theorem interrupt_running {s : State} (h : awaitsAllocator s = false) (c : Word) :
    s.interrupt c = recorded s 5 c c := by
  obtain ⟨-, r⟩ | ⟨awaits, -⟩ | ⟨awaits, -⟩ := interrupt_cases s c
  · exact r
  all_goals rw [h] at awaits; cases awaits

theorem interrupt_unanswered {s : State} (h : awaitsAllocator s = true) (ha : s.answers = []) (c : Word) :
    s.interrupt c = recorded { s with orphan := true } 5 c c := by
  obtain ⟨running, -⟩ | ⟨-, -, r⟩ | ⟨-, x, rest, answered, -⟩ := interrupt_cases s c
  · rw [h] at running; cases running
  · exact r
  · rw [ha] at answered; cases answered

theorem interrupt_answered {s : State} {r : AllocAnswer} {rest : List AllocAnswer} (h : awaitsAllocator s = true)
    (ha : s.answers = r :: rest) (c : Word) : s.interrupt c = recorded (s.takeAnswer r rest) 5 c c := by
  obtain ⟨running, -⟩ | ⟨-, none, -⟩ | ⟨-, x, rest', answered, eq⟩ := interrupt_cases s c
  · rw [h] at running; cases running
  · rw [ha] at none; cases none
  · rw [ha] at answered
    cases answered
    exact eq

/-- Settles O8: the write interrupts, whether it is one the host waits for or not; the request left behind is what
`interrupt_cases` tells apart. -/
theorem writeWhileBusyFaults : Obligations.WriteWhileBusyFaults := by
  intro s c rest hf hb hx
  have run : step s = .next ((s.setInputs rest).interrupt c) := by
    obtain hx | hx := hx
    · exact (step_cmdWrite hx).trans (commandWrite_busy (s := s.setInputs rest) hf hb c)
    · exact (step_issue hx).trans (commandAccept_busy (s := s.setInputs rest) hf hb c)
  rw [run]
  refine ⟨fun h => ?_, fun h => ⟨fun ha => ?_, fun as ha => ?_, fun f as ha => ?_⟩⟩
  · rw [interrupt_running (s := s.setInputs rest) h]; rfl
  · rw [interrupt_unanswered (s := s.setInputs rest) h ha]; rfl
  · rw [interrupt_answered (s := s.setInputs rest) h ha]; rfl
  · rw [interrupt_answered (s := s.setInputs rest) h ha]; rfl

/-- Settles O9: a command with a phase of its own is admitted in no other. -/
theorem phaseViolationIsRecorded : Obligations.PhaseViolationIsRecorded := by
  intro s i p hs needed other
  have refused : admits i s.phase = false := by
    rw [Bool.eq_false_iff]
    exact fun ha => other (admits_of_neededPhase.1 ha p needed)
  rw [exec_refused_phase hs refused]
  cases s.phase <;> rfl

/-! Reset (rule R250). -/

theorem readReg_reset {r : HostReg} (h : r ≠ .root) : readReg State.reset r = 0 := by
  cases r with
  | root => exact absurd rfl h
  | status => decide
  | _ => rfl

theorem readReg_resetBlock (s : State) {r : HostReg} (h : r ≠ .root) : readReg (resetBlock s) r = 0 := by
  cases r with
  | root => exact absurd rfl h
  | _ => exact readReg_reset h

/-- Settles O40: register by register; the rest is what the reset takes over. -/
theorem resetValues : Obligations.ResetValues := by
  refine ⟨fun r hr => readReg_reset hr, rfl, rfl, fun s t rest hx e => ?_⟩
  rw [step_input hx] at e
  cases e
  exact ⟨fun r hr => readReg_resetBlock (s.setInputs rest) hr, rfl, rfl, rfl, rfl, rfl, rfl, rfl⟩

/-! `STATUS` (rule R25). -/

/-- Settles O51: a field is what is left after the fields below it. -/
theorem statusFields : Obligations.StatusFields := by
  intro s
  unfold State.statusWord
  refine ⟨?phase, ?busy, ?faulted, ?low, ?fcode, ?middle, ?fopc, ?high⟩
  case phase =>
    rw [BitVec.extractLsb'_append_eq_right]
    cases s.phase <;> rfl
  case busy =>
    rw [BitVec.getLsbD_append, BitVec.getLsbD_append]
    simp [State.busy]
  case faulted =>
    rw [BitVec.getLsbD_append, BitVec.getLsbD_append, BitVec.getLsbD_append]
    simp
  case low =>
    iterate 3 rw [BitVec.extractLsb'_append_eq_of_le (by decide)]
    exact BitVec.extractLsb'_append_eq_right
  case fcode =>
    iterate 4 rw [BitVec.extractLsb'_append_eq_of_le (by decide)]
    exact BitVec.extractLsb'_append_eq_right
  case middle =>
    iterate 5 rw [BitVec.extractLsb'_append_eq_of_le (by decide)]
    exact BitVec.extractLsb'_append_eq_right
  case fopc =>
    iterate 6 rw [BitVec.extractLsb'_append_eq_of_le (by decide)]
    exact BitVec.extractLsb'_append_eq_right
  case high =>
    iterate 7 rw [BitVec.extractLsb'_append_eq_of_le (by decide)]
    exact BitVec.extractLsb'_eq_self

/-! The allocator's answers (rule R229, rule R250). -/

theorem answerStep_orphan {s : State} (h : s.orphan = true) (r : AllocAnswer) : answerStep r s = answerOrphan r s :=
  if_pos h

theorem answerStep_ignored {s : State} (h : s.orphan = false) (ha : awaitsAllocator s = false) (r : AllocAnswer) :
    answerStep r s = s := by
  simp [answerStep, h, ha]

theorem answerStep_taken {s : State} (h : s.orphan = false) (ha : awaitsAllocator s = true) (hn : s.answers = [])
    (r : AllocAnswer) : answerStep r s = s.setAnswers [r] := by
  simp [answerStep, h, ha, hn]

/-- Settles O52: the three cases of an answer, and what a reset takes over from the port. -/
theorem answersWithoutRequestAreIgnored : Obligations.AnswersWithoutRequestAreIgnored := by
  refine fun s rest => ⟨fun r hx ho => ⟨fun ha => ?_, fun ha hn => ?_⟩, fun ho => ⟨fun hx => ?_, fun f hx => ?_⟩,
    fun hx => ⟨resetBlock (s.setInputs rest), step_input hx, rfl, rfl⟩⟩
  · rw [step_input hx, inputStep, answerStep_ignored (s := s.setInputs rest) ho ha]
    rfl
  · rw [step_input hx, inputStep, answerStep_taken (s := s.setInputs rest) ho ha hn]
    rfl
  · rw [step_input hx, inputStep, answerStep_orphan (s := s.setInputs rest) ho]
    rfl
  · rw [step_input hx, inputStep, answerStep_orphan (s := s.setInputs rest) ho]
    rfl

/-! The host's input sequences (rule R90, rule R194). -/

/-- The inputs of a list of written commands. -/
theorem pseudoInputs_mapfw (ds : List Descriptor) :
    pseudoInputs (.mapfw ds) = ((ds.map Descriptor.written).map writtenInputs).flatten := rfl

theorem pseudoInputs_mapfw_append (ds ds' : List Descriptor) :
    pseudoInputs (.mapfw (ds ++ ds')) = pseudoInputs (.mapfw ds) ++ pseudoInputs (.mapfw ds') := by
  simp only [pseudoInputs_mapfw, List.map_append, List.flatten_append]

/-- Settles O55: `SETUP` is `ROOTZ`, the descriptors of `MAPFW`, `MAPFB` and `ENABLE`. -/
theorem pseudoCommandsExpand : Obligations.PseudoCommandsExpand := by
  refine ⟨fun _ _ => rfl, fun _ => rfl, pseudoInputs_mapfw_append, fun ds fb => ?_⟩
  rw [pseudoInputs_mapfw]
  simp only [pseudoInputs, Pseudo.expand, List.map_cons, List.map_append, List.flatten_cons, List.flatten_append,
    List.append_assoc]
  rfl

/-! A poll (rule R90). -/

/-- Settles O56: the poll reads `STATUS`, and the sequencer moves while it reads `BUSY`. -/
theorem waitPollsStatus : Obligations.WaitPollsStatus := by
  refine fun s rest hx => ⟨fun hs => ?_, fun hb => ?_⟩
  · have idle : (s.setInputs rest).busy = false := State.busy_eq_false.2 hs
    rw [step_input hx]
    exact if_neg (Bool.eq_false_iff.1 idle)
  · rw [step_input hx]
    exact if_pos hb

end Sys2Proof.Laws
end
